-- ==== Sys2Proof/Word.lean ====
section
/-! DEFINITION. The word types of `drive-state-fsm`: the widths that the spec names, as bit vectors (R11). -/

namespace Sys2Proof

/-- One payload byte; byte 0 of a payload is the least significant one (R47). -/
abbrev Byte := BitVec 8

/-- A command word of the host port (R61): a 64-bit value with no byte order (R47). -/
abbrev CmdWord := BitVec 64

/-- A status word or a control word (R17, R18). -/
abbrev Word16 := BitVec 16

/-- A count of ticks, or a counter of the same width (R8, R29). -/
abbrev Ticks := BitVec 32

end Sys2Proof
end

