-- ==== Sys2Proof/Machine/Codec.lean ====
section
/-! DEFINITION. The payload codec (R75 to R81): little-endian byte lists, byte 0 first. -/

namespace Sys2Proof.Machine

/-- `enc_u16` (R75). -/
def encU16 (v : BitVec 16) : List Byte := [v.extractLsb' 0 8, v.extractLsb' 8 8]

/-- `enc_s16` (R76): the pattern `v mod 2^16`, low byte first. -/
def encS16 (v : Int) : List Byte := encU16 (BitVec.ofInt 16 v)

/-- `enc_s32` (R77): the pattern `v mod 2^32`, low byte first. -/
def encS32 (v : Int) : List Byte :=
  let u := BitVec.ofInt 32 v
  [u.extractLsb' 0 8, u.extractLsb' 8 8, u.extractLsb' 16 8, u.extractLsb' 24 8]

/-- The three answers of the status-word decoder (R79). -/
inductive SwDecode where
  | readFailure
  | encodingError
  | word (s : Word16)
deriving DecidableEq, Repr

/-- `dec_sw` (R79): bytes 2 and above are ignored. -/
def decSw : List Byte → SwDecode
  | [] => .readFailure
  | [_] => .encodingError
  | b0 :: b1 :: _ => .word (b1 ++ b0)

/-- `dec_u16` (R80), defined only on a list of 2 bytes. -/
def decU16 : List Byte → Option Nat
  | [b0, b1] => some (b1 ++ b0).toNat
  | _ => none

/-- `dec_s16` (R80), defined only on a list of 2 bytes. -/
def decS16 : List Byte → Option Int
  | [b0, b1] => some (b1 ++ b0).toInt
  | _ => none

/-- `dec_s32` (R80), defined only on a list of 4 bytes. -/
def decS32 : List Byte → Option Int
  | [b0, b1, b2, b3] => some (b3 ++ b2 ++ b1 ++ b0).toInt
  | _ => none

end Sys2Proof.Machine
end

