-- ==== Sys2Proof/Config.lean ====
section
/-! DEFINITION. The configuration record `Cfg` (R6 to R9): the six OPEN register addresses and the timing and retry
parameters. It is fixed for the life of a block; `State` carries it as a field that no step changes. -/

namespace Sys2Proof

/-- A register address: the triple (class, instance, attribute), three 32-bit unsigned numbers (R7, D22). -/
structure Addr where
  cls : BitVec 32
  inst : BitVec 32
  attr : BitVec 32
deriving DecidableEq, Repr, Inhabited

/-- The implementation parameters of R7 and R8. -/
structure Cfg where
  addrExcl : Addr
  addrCw : Addr
  addrSw : Addr
  addrOpmode : Addr
  addrJog : Addr
  addrJogvel : Addr
  /-- `POLL_TICKS`: the inter-poll delay of a wait (R89). -/
  pollTicks : Ticks
  /-- `RETRY_DELAY_TICKS`: the delay between two attempts of TRIG (R106). -/
  retryDelayTicks : Ticks
  /-- `DEF_TIMEOUT_TICKS`: read by the assembler only (R73). -/
  defTimeoutTicks : Ticks
  /-- `DEF_RETRIES`: read by the assembler only (R73). -/
  defRetries : BitVec 8
  /-- `RUN_TICKS`: read by the host only (R139). -/
  runTicks : Ticks
  /-- `SETTLE_TICKS`: read by the host only (R139). -/
  settleTicks : Ticks
deriving DecidableEq, Repr

/-- `ADDR_EXCL`: OPEN (R7). DESIGN CHOICE (log 5), safe: no body, so nothing can be proved of its value. -/
opaque Config.addrExcl : Addr

/-- `ADDR_CW`: OPEN (R7), as `Config.addrExcl`. -/
opaque Config.addrCw : Addr

/-- `ADDR_SW`: OPEN (R7), as `Config.addrExcl`. -/
opaque Config.addrSw : Addr

/-- `ADDR_OPMODE`: OPEN (R7), as `Config.addrExcl`. -/
opaque Config.addrOpmode : Addr

/-- `ADDR_JOG`: OPEN (R7), as `Config.addrExcl`. -/
opaque Config.addrJog : Addr

/-- `ADDR_JOGVEL`: OPEN (R7), as `Config.addrExcl`. -/
opaque Config.addrJogvel : Addr

/-- The configuration of `State.reset`: the OPEN addresses, and R8's defaults in ticks. DESIGN CHOICE (log 5), unsafe
for the timings: R8 gives the numbers as defaults, never as values a rule depends on. -/
def Cfg.default : Cfg where
  addrExcl := Config.addrExcl
  addrCw := Config.addrCw
  addrSw := Config.addrSw
  addrOpmode := Config.addrOpmode
  addrJog := Config.addrJog
  addrJogvel := Config.addrJogvel
  pollTicks := 100
  retryDelayTicks := 500
  defTimeoutTicks := 3000
  defRetries := 3
  runTicks := 4000
  settleTicks := 500

end Sys2Proof
end

