-- ==== Sys2Proof/Machine/State.lean ====
section
/-! DEFINITION. The state of the block: every register of R43, and beside them the model's own fields (the
configuration, the tick count, the observation record of R41 and the events still to come, R35). -/

namespace Sys2Proof.Machine

/-- The lifecycle phase (R15). The values 6 and 7, which `phase` never holds (R16), cannot be written. -/
inductive Phase where
  /-- 0, `IDLE`. -/
  | idle
  /-- 1, `CLAIMED`. -/
  | claimed
  /-- 2, `RTSO`: ReadyToSwitchOn. -/
  | rtso
  /-- 3, `SWON`: SwitchedOn. -/
  | swon
  /-- 4, `OPEN`: OperationEnabled. -/
  | opEnabled
  /-- 5, `RELEASED`: Disabled/Released. -/
  | released
deriving DecidableEq, Repr

/-- The sequencer's positions (R28). -/
inductive Seq where
  /-- `S_IDLE`: waits for a command. -/
  | idle
  /-- `S_CLAIM_WR`: waits for the response to setup write `k` of CLAIM. -/
  | claimWr
  /-- `S_EN_CW`: waits for the response to the control-word write of stage `k` of ENABLE. -/
  | enCw
  /-- `S_WAIT_RD`: waits for the response to a status read of a wait. -/
  | waitRd
  /-- `S_WAIT_SLP`: waits for the end of a wait's inter-poll delay. -/
  | waitSlp
  /-- `S_DIS_WR`: waits for the response to cleanup write `k` of DISABLE. -/
  | disWr
  /-- `S_TRIG_WR`: waits for the response to jog write attempt `att` of TRIG. -/
  | trigWr
  /-- `S_TRIG_SLP`: waits for the end of TRIG's inter-attempt delay. -/
  | trigSlp
  /-- `S_STOP_WR`: waits for the response to the stop write. -/
  | stopWr
  /-- `S_RD`: waits for the response to RDSTAT's read. -/
  | rd
deriving DecidableEq, Repr

/-- The outcome codes (R112). The reserved values 7 to 14, which no command produces, cannot be written. -/
inductive ResCode where
  /-- 0. -/
  | ok
  /-- 1. -/
  | timeout
  /-- 2. -/
  | transport
  /-- 3. -/
  | encoding
  /-- 4. -/
  | phase
  /-- 5. -/
  | illegal
  /-- 6. -/
  | arg
  /-- 15: no command has completed since reset. -/
  | none
deriving DecidableEq, Repr

/-- The kind of a transport request (R32). -/
inductive ReqKind where
  | read
  | write
deriving DecidableEq, Repr

/-- A transport request (R32): `data` is empty for a read. -/
structure Request where
  kind : ReqKind
  addr : Addr
  data : List Byte
deriving DecidableEq, Repr

/-- The four kinds of event (R35), the environment's. -/
inductive Event where
  /-- The host presents a command word. -/
  | cmd (w : CmdWord)
  /-- The transport answers: `ok` is false for a `TransportError` (R32, R113). -/
  | rsp (ok : Bool) (payload : List Byte)
  /-- One time unit passes. -/
  | tick
  /-- The reset input. -/
  | reset
deriving DecidableEq, Repr

/-- What the observation record holds (R41). -/
inductive Obs where
  | cmd (w : CmdWord)
  | req (r : Request)
  | rsp (ok : Bool) (payload : List Byte)
  | tick
  | reset
  | done (code : ResCode) (op : BitVec 4) (detail : BitVec 8) (sw : Word16) (swValid : Bool)
deriving DecidableEq, Repr

/-- An entry of the record: what was observed, and the number of ticks since the model's start (R41). -/
structure Entry where
  ticks : Nat
  obs : Obs
deriving DecidableEq, Repr

/-- The registers of the block (R43), each with its reset value. -/
structure Regs where
  /-- R15. -/
  phase : Phase := .idle
  /-- R28. -/
  seq : Seq := .idle
  /-- R29, R32: a transport request is outstanding. -/
  reqOut : Bool := false
  /-- R29: the stage of ENABLE, or the index of the write of CLAIM or DISABLE. -/
  k : BitVec 2 := 0
  /-- R29: bit i-1 set when write i of CLAIM or DISABLE failed. -/
  mask : BitVec 3 := 0
  /-- R29: the jog write attempts issued by the running TRIG. -/
  att : BitVec 8 := 0
  /-- R29: a wait is in progress. -/
  wActive : Bool := false
  /-- R29, R125: ticks since the running wait started, saturating. -/
  el : Ticks := 0
  /-- R29: status reads issued by the running wait, saturating. -/
  polls : BitVec 32 := 0
  /-- R29, R125: ticks left in the running delay. -/
  dly : Ticks := 0
  /-- R25: the field OPC of the accepted word. -/
  op : BitVec 4 := 0
  /-- R25: CLAIM's operating mode, as its pattern (R83). -/
  opMode : BitVec 16 := 0
  /-- R25: CLAIM's jog velocity, as its pattern (R83). -/
  jogVel : BitVec 32 := 0
  /-- R25: CLAIM's policy, true for FailFast. -/
  ff : Bool := false
  /-- R25: the timeout of ENABLE and WAITB, in ticks. -/
  timeout : Ticks := 0
  /-- R25: TRIG's trigger bitmask. -/
  jogValue : BitVec 16 := 0
  /-- R25: TRIG's attempt count. -/
  maxAtt : BitVec 8 := 0
  /-- R25: the bit a wait tests. -/
  wBit : BitVec 4 := 0
  /-- R25: the value a wait tests for. -/
  wTarget : Bool := false
  /-- R19. -/
  lastSw : Word16 := 0
  /-- R19. -/
  lastSwValid : Bool := false
  /-- R20. -/
  stopFail : Bool := false
  /-- R21. -/
  resCode : ResCode := .none
  /-- R21. -/
  resOp : BitVec 4 := 0
  /-- R21. -/
  resDetail : BitVec 8 := 0
  /-- R21. -/
  resSw : Word16 := 0
  /-- R21. -/
  resSwValid : Bool := false
deriving DecidableEq, Repr

/-- Every register at its value of R43. -/
def Regs.reset : Regs := {}

/-- The block's registers and the model's own fields (logs 1, 5 and 7). -/
structure State where
  /-- The configuration record (R6), which no step changes. -/
  cfg : Cfg
  /-- The registers of R43. -/
  regs : Regs
  /-- The ticks since the model's start (R41). -/
  ticks : Nat
  /-- The observation record (R41), oldest entry first. -/
  history : List Entry
  /-- The events the environment is still to make (R35), the next one first. -/
  events : List Event
deriving DecidableEq, Repr

/-- The block right after reset (R43, R132), at the model's start: nothing observed, no event made yet. -/
def State.reset : State where
  cfg := Cfg.default
  regs := Regs.reset
  ticks := 0
  history := []
  events := []

/-- Why a step stops with a fault. The block has no fault (R118): each of these is raised only in a state that no run
from reset reaches (log 13), for which the spec gives no behaviour; each is safe. -/
inductive Fault where
  /-- A response with `req_out = 1` while `seq` waits for no response: raised by `onResponse`. Safe. -/
  | noWaitPoint
  /-- A write or a stage is due while `k` is 0, which names none: raised by CLAIM, ENABLE and DISABLE. Safe. -/
  | noStage
  /-- A tick in a sleep state with `dly = 0`: raised by `onTick`. Safe. -/
  | noDelay
  /-- A wait ends while `op` is neither ENABLE nor WAITB: raised by `waitReturn`. Safe. -/
  | noCaller
deriving DecidableEq, Repr

/-- Why a step refuses. -/
inductive Refusal where
  /-- An instruction without a meaning: raised by a refused arm of `exec`, of which there is none. Safe. -/
  | notModelled (mnemonic : String)
  /-- `POLL_TICKS = 0`, a configuration that the model refuses (R9): raised by `step`. Safe. -/
  | illFormedConfig
deriving DecidableEq, Repr

/-- What a meaning answers. -/
abbrev Result := Host.Outcome State Fault Refusal

end Sys2Proof.Machine
end

