-- ==== Sys2Proof/Machine/Flags.lean ====
section
/-! DEFINITION. What a host can see and test (R15, R20 to R23, R30, R31, R112): the numbers on the port, `busy`, `cmd_ready`,
and which `seq` values wait for what (R28, R36). There are no arithmetic condition codes (R23). -/

namespace Sys2Proof.Machine

/-- The number of a phase on the port (R15). -/
def Phase.code : Phase → BitVec 3
  | .idle => 0
  | .claimed => 1
  | .rtso => 2
  | .swon => 3
  | .opEnabled => 4
  | .released => 5

/-- The number of an outcome code on the port (R112). -/
def ResCode.code : ResCode → BitVec 4
  | .ok => 0
  | .timeout => 1
  | .transport => 2
  | .encoding => 3
  | .phase => 4
  | .illegal => 5
  | .arg => 6
  | .none => 15

/-- The values of `seq` with a request outstanding (R28). -/
def Seq.awaitsResponse : Seq → Bool
  | .claimWr => true
  | .enCw => true
  | .waitRd => true
  | .disWr => true
  | .trigWr => true
  | .stopWr => true
  | .rd => true
  | .idle => false
  | .waitSlp => false
  | .trigSlp => false

/-- The sleep states (R36, R40). -/
def Seq.sleeps : Seq → Bool
  | .waitSlp => true
  | .trigSlp => true
  | .idle => false
  | .claimWr => false
  | .enCw => false
  | .waitRd => false
  | .disWr => false
  | .trigWr => false
  | .stopWr => false
  | .rd => false

/-- `busy` (R22): 1 exactly when `seq` is not `S_IDLE`. -/
def State.busy (s : State) : Bool := decide (s.regs.seq ≠ .idle)

/-- `cmd_ready` (R22). -/
def State.cmdReady (s : State) : Bool := !s.busy

/-- `alarm_stop_fail` (R20), a level (R123). -/
def State.alarmStopFail (s : State) : Bool := s.regs.stopFail

/-- The outputs of the host port but `done`, which is a pulse and stands in the record (R31). -/
structure HostPort where
  cmdReady : Bool
  resCode : BitVec 4
  resOp : BitVec 4
  resDetail : BitVec 8
  resSw : Word16
  resSwValid : Bool
  phase : BitVec 3
  busy : Bool
  lastSw : Word16
  lastSwValid : Bool
  alarmStopFail : Bool
deriving DecidableEq, Repr

/-- What the host sees of a state (R30, R31). -/
def State.hostPort (s : State) : HostPort where
  cmdReady := s.cmdReady
  resCode := s.regs.resCode.code
  resOp := s.regs.resOp
  resDetail := s.regs.resDetail
  resSw := s.regs.resSw
  resSwValid := s.regs.resSwValid
  phase := s.regs.phase.code
  busy := s.busy
  lastSw := s.regs.lastSw
  lastSwValid := s.regs.lastSwValid
  alarmStopFail := s.alarmStopFail

/-- R115: the outcomes that report the diagnostic status word, those of ENABLE (2), RDSTAT (6) and WAITB (7) unless the
code is `PHASE`, `ILLEGAL` or `ARG`. -/
def reportsStatus (op : BitVec 4) (code : ResCode) : Bool :=
  (op == 0x2 || op == 0x6 || op == 0x7) &&
    match code with
    | .phase => false
    | .illegal => false
    | .arg => false
    | .ok => true
    | .timeout => true
    | .transport => true
    | .encoding => true
    | .none => true

end Sys2Proof.Machine
end

