-- ==== Sys2Proof/Syntax.lean ====
section
/-! DEFINITION. The seven commands (R63), one constructor each, with their operands at the width of their latch (R25,
R65 to R69); and the assembler's lines (R72, R73) with their operands as the integers a line can hold. -/

namespace Sys2Proof

/-- A command. Every operand has exactly its field's width (R64), so a value outside its range cannot be written. -/
inductive Instr where
  /-- CLAIM: `ff` (true is FailFast), `op_mode` and `jog_vel` as their bit patterns (R65, R83). -/
  | claim (ff : Bool) (opMode : BitVec 16) (jogVel : BitVec 32)
  /-- ENABLE: the timeout of each stage, in ticks (R66). -/
  | enable (timeout : Ticks)
  /-- DISABLE (R69). -/
  | disable
  /-- TRIG: the trigger bitmask and the attempt count (R67). -/
  | trig (jogValue : BitVec 16) (maxAtt : BitVec 8)
  /-- STOP (R69). -/
  | stop
  /-- RDSTAT (R69). -/
  | rdstat
  /-- WAITB: the bit's number, the value it is waited for, the timeout in ticks (R68). -/
  | waitb (bit : BitVec 4) (target : Bool) (timeout : Ticks)
deriving DecidableEq, Repr

/-- A line of a host script: the commands of R72, the pseudo-instructions of R73, `.word`, and the host directive
`hwait`. Operands are integers, as a line may hold any; `AsmLine.wellFormed` holds R72's ranges. -/
inductive AsmLine where
  | claim (opMode jogVel : Int)
  | claimFf (opMode jogVel : Int)
  | enable (timeout : Int)
  | disable
  | trig (value maxAttempts : Int)
  | stop
  | rdstat
  | waitb (bit target timeout : Int)
  | word (value : Int)
  /-- `enable` with its operand left out: DEF_TIMEOUT_TICKS. -/
  | enableDefault
  /-- `trig <value>` with the attempt count left out: DEF_RETRIES. -/
  | trigDefault (value : Int)
  | jogmode (jogVel : Int)
  | waitrtso (timeout : Int)
  | waitswon (timeout : Int)
  | waitopen (timeout : Int)
  /-- `hwait n`: a host directive with no word (R73). -/
  | hwait (ticks : Int)
deriving DecidableEq, Repr

end Sys2Proof
end

