-- ==== Sys2Proof/Decode.lean ====
section
/-! DEFINITION. The decoder (R61 to R71), total on all 2^64 words, and the encoder (R64). -/

namespace Sys2Proof

/-- Why a word is illegal (R71). -/
inductive DecodeError where
  /-- `OPC` is 0x0 or in 0x8 to 0xF. -/
  | reservedOpcode
  /-- A bit that the command's mask covers differs from its match. -/
  | reservedBits
deriving DecidableEq, Repr

/-- A row's match and mask (R64); the field `pattern` is the spec's `match`. -/
structure OpRow where
  pattern : CmdWord
  mask : CmdWord
deriving DecidableEq, Repr

/-- `w AND mask = match` (R64). -/
def OpRow.hits (r : OpRow) (w : CmdWord) : Bool := decide (w &&& r.mask = r.pattern)

def rowClaim : OpRow := ⟨0x0000000000000001, 0x000000000000FEFF⟩
def rowEnable : OpRow := ⟨0x0000000000000002, 0x00000000FFFFFFFF⟩
def rowDisable : OpRow := ⟨0x0000000000000003, 0xFFFFFFFFFFFFFFFF⟩
def rowTrig : OpRow := ⟨0x0000000000000004, 0xFFFFFFFF000000FF⟩
def rowStop : OpRow := ⟨0x0000000000000005, 0xFFFFFFFFFFFFFFFF⟩
def rowRdstat : OpRow := ⟨0x0000000000000006, 0xFFFFFFFFFFFFFFFF⟩
def rowWaitb : OpRow := ⟨0x0000000000000007, 0x00000000FFFFE0FF⟩

/-- The table of R64, in its order. -/
def opRows : List OpRow := [rowClaim, rowEnable, rowDisable, rowTrig, rowStop, rowRdstat, rowWaitb]

/-- The field `OPC` (R61). -/
def fieldOpc (w : CmdWord) : BitVec 4 := w.extractLsb' 0 4

/-- The field `B` (R61). -/
def fieldB (w : CmdWord) : BitVec 8 := w.extractLsb' 8 8

/-- The field `H` (R61). -/
def fieldH (w : CmdWord) : BitVec 16 := w.extractLsb' 16 16

/-- The field `W` (R61). -/
def fieldW (w : CmdWord) : BitVec 32 := w.extractLsb' 32 32

/-- R70, with the operands of R65 to R68; an illegal word (R71) is refused by name. -/
def decode (w : CmdWord) : Except DecodeError Instr :=
  if rowClaim.hits w then .ok (.claim (w.getLsbD 8) (fieldH w) (fieldW w))
  else if rowEnable.hits w then .ok (.enable (fieldW w))
  else if rowDisable.hits w then .ok .disable
  else if rowTrig.hits w then .ok (.trig (fieldH w) (fieldB w))
  else if rowStop.hits w then .ok .stop
  else if rowRdstat.hits w then .ok .rdstat
  else if rowWaitb.hits w then .ok (.waitb (w.extractLsb' 8 4) (w.getLsbD 12) (fieldW w))
  else if decide (1 ≤ (fieldOpc w).toNat) && decide ((fieldOpc w).toNat ≤ 7) then .error .reservedBits
  else .error .reservedOpcode

/-- The opcode of a command (R63). -/
def Instr.opc : Instr → BitVec 4
  | .claim _ _ _ => 0x1
  | .enable _ => 0x2
  | .disable => 0x3
  | .trig _ _ => 0x4
  | .stop => 0x5
  | .rdstat => 0x6
  | .waitb _ _ _ => 0x7

/-- The field `B` of a command's word (R64). -/
def Instr.byteField : Instr → BitVec 8
  | .claim ff _ _ => 0#7 ++ BitVec.ofBool ff
  | .trig _ n => n
  | .waitb b t _ => 0#3 ++ BitVec.ofBool t ++ b
  | .enable _ => 0
  | .disable => 0
  | .stop => 0
  | .rdstat => 0

/-- The field `H` of a command's word (R64). -/
def Instr.halfField : Instr → BitVec 16
  | .claim _ m _ => m
  | .trig v _ => v
  | .enable _ => 0
  | .disable => 0
  | .stop => 0
  | .rdstat => 0
  | .waitb _ _ _ => 0

/-- The field `W` of a command's word (R64). -/
def Instr.wordField : Instr → BitVec 32
  | .claim _ _ v => v
  | .enable t => t
  | .waitb _ _ t => t
  | .disable => 0
  | .trig _ _ => 0
  | .stop => 0
  | .rdstat => 0

/-- The word of a command: `W`, `H`, `B`, `Z` = 0 and `OPC`, the highest field first (R61, R64). -/
def encode (i : Instr) : CmdWord := i.wordField ++ i.halfField ++ i.byteField ++ 0#4 ++ i.opc

/-- The host's question: what the decoder reads from the word whose low `nbits` bits are those of `w`, the bits above
them zero. There is one word and it has no byte order (R47, R62). -/
def decodeTableWord (nbits w : Nat) : Option Instr :=
  match decode (BitVec.ofNat 64 (w % 2 ^ nbits)) with
  | .ok i => some i
  | .error _ => none

end Sys2Proof
end

