-- ==== Sys2Proof/Machine/Operands.lean ====
section
/-! DEFINITION. The operand latches (R25), the phases each command is allowed in (R95), the registers of the drive and
their addresses (R45), and the block's arithmetic (R82). -/

namespace Sys2Proof.Machine

/-- R25, R38: the latches a command writes when it is accepted. -/
def latch (i : Instr) (r : Regs) : Regs :=
  match i with
  | .claim ff m v => { r with op := i.opc, ff := ff, opMode := m, jogVel := v }
  | .enable t => { r with op := i.opc, timeout := t }
  | .disable => { r with op := i.opc }
  | .trig v n => { r with op := i.opc, jogValue := v, maxAtt := n }
  | .stop => { r with op := i.opc }
  | .rdstat => { r with op := i.opc }
  | .waitb b t d => { r with op := i.opc, wBit := b, wTarget := t, timeout := d }

/-- R95: the phases a command is allowed in. -/
def phaseAllowed (i : Instr) (p : Phase) : Bool :=
  match i with
  | .claim _ _ _ => p == .idle || p == .released
  | .enable _ => p == .claimed || p == .rtso || p == .swon
  | .trig _ _ => p == .opEnabled
  | .disable => true
  | .stop => true
  | .rdstat => true
  | .waitb _ _ _ => true

/-- The six registers of the drive that the block reaches (R45). -/
inductive DevReg where
  | excl
  | opmode
  | jogvel
  | cw
  | sw
  | jog
deriving DecidableEq, Repr

/-- The address of a register of the drive (R7, R45). -/
def devAddr (c : Cfg) : DevReg → Addr
  | .excl => c.addrExcl
  | .opmode => c.addrOpmode
  | .jogvel => c.addrJogvel
  | .cw => c.addrCw
  | .sw => c.addrSw
  | .jog => c.addrJog

/-- `sat32` (R11). -/
def sat32 (n : Nat) : BitVec 32 := BitVec.ofNat 32 (min n (2 ^ 32 - 1))

/-- `sat8` (R11). -/
def sat8 (n : Nat) : BitVec 8 := BitVec.ofNat 8 (min n 255)

/-- `mask[k-1] <- 1` (R82): write `k` failed. -/
def setMaskBit (mask : BitVec 3) (k : BitVec 2) : BitVec 3 := mask ||| (1#3 <<< (k.toNat - 1))

/-- The bit test of a wait, `s[w_bit] = w_target` (R82). -/
def bitMatches (s : Word16) (bit : BitVec 4) (target : Bool) : Bool := s.getLsbD bit.toNat == target

end Sys2Proof.Machine
end

