-- ==== Sys2Proof/Machine/Ops.lean ====
section
/-! DEFINITION. The shared operations: the observation record (R41), the primitives of R12, `finish` (R115), which stands
in the place of taking an exception (R118), and the acceptance of a command (R38, R95, R116). -/

namespace Sys2Proof.Machine

/-- Adds an entry to the observation record (R41). -/
def State.record (o : Obs) (s : State) : State :=
  { s with history := s.history ++ [⟨s.ticks, o⟩] }

/-- Writes registers. -/
def State.upd (s : State) (f : Regs → Regs) : State := { s with regs := f s.regs }

/-- R37 (i): sends a request and stops at the wait point `label`. -/
def send (label : Seq) (r : Request) (s : State) : State :=
  (s.record (.req r)).upd fun g => { g with reqOut := true, seq := label }

/-- `MemWrite` (R12) up to its wait point. -/
def memWrite (label : Seq) (reg : DevReg) (v : List Byte) (s : State) : Result :=
  .next (send label ⟨.write, devAddr s.cfg reg, v⟩ s)

/-- `MemRead` (R12) up to its wait point; a read carries no payload (R32). -/
def memRead (label : Seq) (reg : DevReg) (s : State) : Result :=
  .next (send label ⟨.read, devAddr s.cfg reg, []⟩ s)

/-- `Sleep(t)` (R12, R37 (ii)): with `t = 0` the procedure goes on, else it stops at the wait point `label`. -/
def sleepThen (label : Seq) (t : Ticks) (resume : State → Result) (s : State) : Result :=
  if t = 0 then resume s
  else .next (s.upd fun r => { r with dly := t, seq := label })

/-- The registers after `finish` (R115). -/
def finishRegs (code : ResCode) (detail : BitVec 8) (r : Regs) : Regs :=
  { r with
    resCode := code
    resOp := r.op
    resDetail := detail
    resSw := if reportsStatus r.op code then r.lastSw else 0
    resSwValid := reportsStatus r.op code && r.lastSwValid
    wActive := false
    dly := 0
    seq := .idle }

/-- The pulse `done` as the record shows it (R41): the result fields. -/
def doneObs (r : Regs) : Obs := .done r.resCode r.resOp r.resDetail r.resSw r.resSwValid

/-- `finish(code, detail)` (R115): the only way a command ends. -/
def finish (code : ResCode) (detail : BitVec 8) (s : State) : Result :=
  let s' := s.upd (finishRegs code detail)
  .next (s'.record (doneObs s'.regs))

/-- The acceptance of a legal command (R38): not accepted while `busy` (R135); else the word is recorded and latched,
the phase checked (R95), and the procedure started. -/
def accept (i : Instr) (proc : State → Result) (s : State) : Result :=
  if s.busy then .next s
  else
    let s' := (s.record (.cmd (encode i))).upd (latch i)
    if phaseAllowed i s'.regs.phase then proc s' else finish .phase 0 s'

/-- The acceptance of an illegal word (R116): it latches `op` and finishes at once. -/
def acceptIllegal (w : CmdWord) (s : State) : Result :=
  if s.busy then .next s
  else finish .illegal 0 ((s.record (.cmd w)).upd fun r => { r with op := fieldOpc w })

end Sys2Proof.Machine
end

