-- ==== Sys2Proof/Machine/Sequencer.lean ====
section
/-! DEFINITION. The control-word sequencer (R97, R98): the three stages of ENABLE. -/

namespace Sys2Proof.Machine

/-- A stage of ENABLE (R97): its control word, the status bit it waits for, the phase it leads to. -/
structure Stage where
  cw : Word16
  bit : BitVec 4
  nextPhase : Phase
deriving DecidableEq, Repr

/-- The table of R97. -/
def stage (k : BitVec 2) : Option Stage :=
  if k = 1 then some ⟨0x06, 0, .rtso⟩
  else if k = 2 then some ⟨0x07, 1, .swon⟩
  else if k = 3 then some ⟨0x0F, 2, .opEnabled⟩
  else none

/-- Sends the control word of stage `k` (R97). -/
def enableIssue (s : State) : Result :=
  match stage s.regs.k with
  | none => .fault .noStage
  | some st => memWrite .enCw .cw (encU16 st.cw) s

/-- How a wait ends (R86). -/
inductive WaitEnd where
  /-- `TRUE`: the bit matched. -/
  | matched
  /-- `FALSE`: the deadline test ended it. -/
  | expired
  /-- `ENCERR`: a 1-byte payload (R91). -/
  | encerr
deriving DecidableEq, Repr

/-- ENABLE after the wait of stage `k` (R97, R98). -/
def enableAfterWait (e : WaitEnd) (s : State) : Result :=
  match stage s.regs.k with
  | none => .fault .noStage
  | some st =>
    match e with
    | .encerr => finish .encoding (s.regs.k.setWidth 8) s
    | .expired => finish .timeout (s.regs.k.setWidth 8) s
    | .matched =>
      if s.regs.k = 3 then finish .ok 0 (s.upd fun r => { r with phase := st.nextPhase })
      else enableIssue (s.upd fun r => { r with phase := st.nextPhase, k := r.k + 1 })

end Sys2Proof.Machine
end

