-- ==== Sys2Proof/Machine/Poller.lean ====
section
/-! DEFINITION. The status poller (R84 to R94): the status read and its classification, RDSTAT, the wait, WAITB. -/

namespace Sys2Proof.Machine

/-- The classes of a status read (R84). -/
inductive ReadClass where
  | readfail
  | encerr
  | sw (s : Word16)
deriving DecidableEq, Repr

/-- `classify` (R84): the class of a status read's response. -/
def readClass (ok : Bool) (payload : List Byte) : ReadClass :=
  if ok then
    match decSw payload with
    | .readFailure => .readfail
    | .encodingError => .encerr
    | .word s => .sw s
  else .readfail

/-- `classify` (R84): the registers it writes. -/
def noteStatus (c : ReadClass) (r : Regs) : Regs :=
  match c with
  | .sw v => { r with lastSw := v, lastSwValid := true }
  | .readfail => r
  | .encerr => r

/-- RDSTAT up to its wait point (R85). -/
def rdstatStart (s : State) : Result :=
  memRead .rd .sw (s.upd fun r => { r with lastSwValid := false })

/-- RDSTAT from the response (R85). -/
def rdstatResume (ok : Bool) (payload : List Byte) (s : State) : Result :=
  let s' := s.upd (noteStatus (readClass ok payload))
  match readClass ok payload with
  | .sw _ => finish .ok 0 s'
  | .readfail => finish .transport 0 s'
  | .encerr => finish .encoding 0 s'

/-- RDSTAT (R85). -/
def execRdstat (s : State) : Result := accept .rdstat rdstatStart s

/-- WAITB after its wait (R94). -/
def waitbAfterWait (e : WaitEnd) (s : State) : Result :=
  match e with
  | .matched => finish .ok (sat8 s.regs.polls.toNat) s
  | .expired => finish .timeout (sat8 s.regs.polls.toNat) s
  | .encerr => finish .encoding (sat8 s.regs.polls.toNat) s

/-- The end of a wait (R86): it returns to the command that called it, which the latch `op` names. -/
def waitReturn (e : WaitEnd) (s : State) : Result :=
  let s' := s.upd fun r => { r with wActive := false }
  if s.regs.op = 0x7 then waitbAfterWait e s'
  else if s.regs.op = 0x2 then enableAfterWait e s'
  else .fault .noCaller

/-- The head of the wait's loop (R86, R87): the deadline test, then the next read. -/
def waitTest (s : State) : Result :=
  if s.regs.timeout ≤ s.regs.el then waitReturn .expired s
  else memRead .waitRd .sw (s.upd fun r => { r with polls := sat32 (r.polls.toNat + 1) })

/-- The start of a wait (R86). -/
def waitStart (s : State) : Result :=
  waitTest (s.upd fun r => { r with wActive := true, el := 0, polls := 0, lastSwValid := false })

/-- A wait from the response to a read (R86, R88 to R91). -/
def waitResume (ok : Bool) (payload : List Byte) (s : State) : Result :=
  let s' := s.upd (noteStatus (readClass ok payload))
  match readClass ok payload with
  | .encerr => waitReturn .encerr s'
  | .sw v =>
    if bitMatches v s.regs.wBit s.regs.wTarget then waitReturn .matched s'
    else sleepThen .waitSlp s.cfg.pollTicks waitTest s'
  | .readfail => sleepThen .waitSlp s.cfg.pollTicks waitTest s'

/-- WAITB (R94). -/
def execWaitb (bit : BitVec 4) (target : Bool) (timeout : Ticks) (s : State) : Result :=
  accept (.waitb bit target timeout) waitStart s

end Sys2Proof.Machine
end

