-- ==== Sys2Proof/Machine/Drive.lean ====
section
/-! DEFINITION. The drive state machine (R95 to R105): CLAIM, ENABLE and DISABLE. -/

namespace Sys2Proof.Machine

/-- CLAIM's setup writes (R96). -/
def claimWrite (r : Regs) : Option (DevReg × List Byte) :=
  if r.k = 1 then some (.excl, encU16 1)
  else if r.k = 2 then some (.opmode, encS16 r.opMode.toInt)
  else if r.k = 3 then some (.jogvel, encS32 r.jogVel.toInt)
  else none

/-- Sends setup write `k` (R96). -/
def claimIssue (s : State) : Result :=
  match claimWrite s.regs with
  | none => .fault .noStage
  | some (reg, v) => memWrite .claimWr reg v s

/-- CLAIM up to its first wait point (R96). -/
def claimStart (s : State) : Result :=
  claimIssue (s.upd fun r => { r with mask := 0, k := 1 })

/-- `mask` after the response to write `k` of CLAIM or DISABLE (R96, R102). -/
def maskAfter (ok : Bool) (r : Regs) : BitVec 3 := if ok then r.mask else setMaskBit r.mask r.k

/-- CLAIM from the response to setup write `k` (R96). -/
def claimResume (ok : Bool) (s : State) : Result :=
  let m := maskAfter ok s.regs
  if s.regs.k = 0 then .fault .noStage
  else if !ok && s.regs.ff then
    finish .transport (m.setWidth 8) (s.upd fun r => { r with mask := m })
  else if s.regs.k = 3 then
    finish (if m = 0 then .ok else .transport) (m.setWidth 8)
      (s.upd fun r => { r with mask := m, phase := .claimed })
  else claimIssue (s.upd fun r => { r with mask := m, k := r.k + 1 })

/-- CLAIM (R96). -/
def execClaim (ff : Bool) (opMode : BitVec 16) (jogVel : BitVec 32) (s : State) : Result :=
  accept (.claim ff opMode jogVel) claimStart s

/-- ENABLE up to its first wait point (R97): it always starts from the first stage. -/
def enableStart (s : State) : Result :=
  enableIssue (s.upd fun r => { r with phase := .claimed, lastSwValid := false, k := 1 })

/-- ENABLE from the response to the control-word write of stage `k` (R97). -/
def enableResume (ok : Bool) (s : State) : Result :=
  match stage s.regs.k with
  | none => .fault .noStage
  | some st =>
    if ok then waitStart (s.upd fun r => { r with wBit := st.bit, wTarget := true })
    else finish .transport (s.regs.k.setWidth 8) s

/-- ENABLE (R97). -/
def execEnable (timeout : Ticks) (s : State) : Result := accept (.enable timeout) enableStart s

/-- DISABLE's cleanup writes (R102). -/
def disableWrite (k : BitVec 2) : Option (DevReg × List Byte) :=
  if k = 1 then some (.jog, encU16 0)
  else if k = 2 then some (.cw, encU16 0x00)
  else if k = 3 then some (.excl, encU16 0)
  else none

/-- Sends cleanup write `k` (R102). -/
def disableIssue (s : State) : Result :=
  match disableWrite s.regs.k with
  | none => .fault .noStage
  | some (reg, v) => memWrite .disWr reg v s

/-- DISABLE up to its first wait point (R102). -/
def disableStart (s : State) : Result :=
  disableIssue (s.upd fun r => { r with mask := 0, k := 1 })

/-- `stop_fail` after the response to write `k` of DISABLE: it follows the stop write, `k = 1` (R20, R102). -/
def alarmAfter (ok : Bool) (r : Regs) : Bool := if r.k = 1 then !ok else r.stopFail

/-- DISABLE from the response to cleanup write `k` (R102). -/
def disableResume (ok : Bool) (s : State) : Result :=
  let m := maskAfter ok s.regs
  if s.regs.k = 0 then .fault .noStage
  else if s.regs.k = 3 then
    finish (if m = 0 then .ok else .transport) (m.setWidth 8)
      (s.upd fun r => { r with mask := m, stopFail := alarmAfter ok r, phase := .released })
  else
    disableIssue (s.upd fun r => { r with mask := m, stopFail := alarmAfter ok r, k := r.k + 1 })

/-- DISABLE (R102). -/
def execDisable (s : State) : Result := accept .disable disableStart s

end Sys2Proof.Machine
end

