-- ==== Sys2Proof/Machine/Jog.lean ====
section
/-! DEFINITION. The jog command pulse generator (R106 to R111): TRIG and STOP. -/

namespace Sys2Proof.Machine

/-- One jog write attempt (R106). -/
def trigAttempt (s : State) : Result :=
  memWrite .trigWr .jog (encU16 s.regs.jogValue) (s.upd fun r => { r with att := r.att + 1 })

/-- TRIG up to its first wait point (R106, R107). -/
def trigStart (s : State) : Result :=
  if s.regs.jogValue = 0 then finish .arg 0 s
  else if s.regs.maxAtt = 0 then finish .arg 0 s
  else trigAttempt (s.upd fun r => { r with att := 0 })

/-- TRIG from the response to attempt `att` (R106). -/
def trigResume (ok : Bool) (s : State) : Result :=
  if ok then finish .ok s.regs.att s
  else if s.regs.att = s.regs.maxAtt then finish .transport s.regs.att s
  else sleepThen .trigSlp s.cfg.retryDelayTicks trigAttempt s

/-- TRIG (R106). -/
def execTrig (jogValue : BitVec 16) (maxAtt : BitVec 8) (s : State) : Result :=
  accept (.trig jogValue maxAtt) trigStart s

/-- STOP up to its wait point (R110). -/
def stopStart (s : State) : Result := memWrite .stopWr .jog (encU16 0) s

/-- STOP from the response (R110). -/
def stopResume (ok : Bool) (s : State) : Result :=
  finish (if ok then .ok else .transport) 0 (s.upd fun r => { r with stopFail := !ok })

/-- STOP (R110). -/
def execStop (s : State) : Result := accept .stop stopStart s

end Sys2Proof.Machine
end

