-- ==== Sys2Proof/Machine/Dispatch.lean ====
section
/-! DEFINITION. The dispatch of a command to its meaning (R63). -/

namespace Sys2Proof.Machine

/-- The effect of presenting a legal command: its procedure up to its first wait point or its end (R37, R38). -/
def exec (i : Instr) (s : State) : Host.Outcome State Fault Refusal :=
  match i with
  | .claim ff opMode jogVel => Sys2Proof.Machine.execClaim ff opMode jogVel s
  | .enable timeout => Sys2Proof.Machine.execEnable timeout s
  | .disable => Sys2Proof.Machine.execDisable s
  | .trig jogValue maxAtt => Sys2Proof.Machine.execTrig jogValue maxAtt s
  | .stop => Sys2Proof.Machine.execStop s
  | .rdstat => Sys2Proof.Machine.execRdstat s
  | .waitb bit target timeout => Sys2Proof.Machine.execWaitb bit target timeout s

end Sys2Proof.Machine
end

