-- ==== Sys2Proof/Machine/Events.lean ====
section
/-! DEFINITION. The events of R35: which one comes next, and the effect of a command word (R38), a response (R39), a
tick (R40) and a reset (R130). -/

namespace Sys2Proof.Machine

/-- The next event and the events after it. While `busy`, the host holds the commands it presents, in their order,
until `cmd_ready = 1` (R38, R135; log 2). -/
def nextEvent (busy : Bool) : List Event → Option (Event × List Event)
  | [] => none
  | .cmd w :: es =>
    if busy then (nextEvent busy es).map (fun p => (p.1, .cmd w :: p.2)) else some (.cmd w, es)
  | .rsp ok payload :: es => some (.rsp ok payload, es)
  | .tick :: es => some (.tick, es)
  | .reset :: es => some (.reset, es)

/-- `Cmd(w)` (R38): the word is decoded (R70) and executed; an illegal word finishes with `ILLEGAL` (R116). -/
def onCommand (w : CmdWord) (s : State) : Result :=
  match decode w with
  | .ok i => exec i s
  | .error _ => acceptIllegal w s

/-- The command resumed at its wait point with the response (R39, R28). -/
def resume (ok : Bool) (payload : List Byte) (s : State) : Result :=
  match s.regs.seq with
  | .claimWr => claimResume ok s
  | .enCw => enableResume ok s
  | .waitRd => waitResume ok payload s
  | .disWr => disableResume ok s
  | .trigWr => trigResume ok s
  | .stopWr => stopResume ok s
  | .rd => rdstatResume ok payload s
  | .idle => .fault .noWaitPoint
  | .waitSlp => .fault .noWaitPoint
  | .trigSlp => .fault .noWaitPoint

/-- `Rsp(ok, payload)` (R39): with no request outstanding it changes no register. -/
def onResponse (ok : Bool) (payload : List Byte) (s : State) : Result :=
  let s' := s.record (.rsp ok payload)
  if s.regs.reqOut then resume ok payload (s'.upd fun r => { r with reqOut := false })
  else .next s'

/-- R40 (1): the elapsed time of a wait. -/
def elapse (r : Regs) : Regs := if r.wActive then { r with el := sat32 (r.el.toNat + 1) } else r

/-- R40 (2): one tick of the running delay; at its end the command goes on from `resumeSleep`. -/
def countDelay (resumeSleep : State → Result) (s : State) : Result :=
  if s.regs.dly = 0 then .fault .noDelay
  else
    let s' := s.upd fun r => { r with dly := r.dly - 1 }
    if s'.regs.dly = 0 then resumeSleep s' else .next s'

/-- What every tick does: it is counted and recorded, and a wait's elapsed time advances (R40 (1)). The tick is counted
first, so its entry and what it causes carry its own number (log 9). -/
def countTick (s : State) : State :=
  { cfg := s.cfg, regs := elapse s.regs, ticks := s.ticks + 1, history := s.history ++ [⟨s.ticks + 1, .tick⟩],
    events := s.events }

/-- `Tick` (R40): outside a sleep state nothing more happens. -/
def onTick (s : State) : Result :=
  match s.regs.seq with
  | .waitSlp => countDelay waitTest (countTick s)
  | .trigSlp => countDelay trigAttempt (countTick s)
  | .idle => .next (countTick s)
  | .claimWr => .next (countTick s)
  | .enCw => .next (countTick s)
  | .waitRd => .next (countTick s)
  | .disWr => .next (countTick s)
  | .trigWr => .next (countTick s)
  | .stopWr => .next (countTick s)
  | .rd => .next (countTick s)

/-- `Reset` (R130): every register takes its reset value; no request, no `done`. -/
def onReset (s : State) : Result :=
  .next ((s.record .reset).upd fun _ => Regs.reset)

end Sys2Proof.Machine
end

