-- ==== Sys2Proof/WellFormed.lean ====
section
/-! DEFINITION. The checks on terms: a configuration (R9) and an assembler line (R72). A command needs none: each
operand of `Instr` has exactly the width of its field (R64), so every term of `Instr` is well formed. -/

namespace Sys2Proof

/-- R9: `Cfg` is well formed only if `POLL_TICKS >= 1`. -/
def Cfg.wellFormed (c : Cfg) : Bool := decide (1 ≤ c.pollTicks.toNat)

/-- `v` is an unsigned value of `n` bits (R11, `uN`). -/
def inUnsigned (n : Nat) (v : Int) : Bool := decide (0 ≤ v) && decide (v < 2 ^ n)

/-- `v` is a two's-complement value of `n` bits, `n` at least 1 (R11, `sN`). -/
def inSigned (n : Nat) (v : Int) : Bool := decide (-(2 ^ (n - 1)) ≤ v) && decide (v < 2 ^ (n - 1))

/-- R72's operand ranges: a line outside them is an assembly error. -/
def AsmLine.wellFormed : AsmLine → Bool
  | .claim m v => inSigned 16 m && inSigned 32 v
  | .claimFf m v => inSigned 16 m && inSigned 32 v
  | .enable t => inUnsigned 32 t
  | .disable => true
  | .trig v n => inUnsigned 16 v && inUnsigned 8 n
  | .stop => true
  | .rdstat => true
  | .waitb b v t => inUnsigned 4 b && inUnsigned 1 v && inUnsigned 32 t
  | .word v => inUnsigned 64 v
  | .enableDefault => true
  | .trigDefault v => inUnsigned 16 v
  | .jogmode v => inSigned 32 v
  | .waitrtso t => inUnsigned 32 t
  | .waitswon t => inUnsigned 32 t
  | .waitopen t => inUnsigned 32 t
  | .hwait n => decide (0 ≤ n)

end Sys2Proof
end

