-- ==== Sys2Proof/Machine/Step.lean ====
section
/-! DEFINITION. One step: the block takes the next event (R35). -/

namespace Sys2Proof.Machine

/-- One step: one event of R35. With no event to take, nothing happens (log 4); an ill-formed configuration is
refused (R9; log 6). -/
def step (s : State) : Host.Outcome State Fault Refusal :=
  if s.cfg.wellFormed then
    match nextEvent s.busy s.events with
    | none => .next s
    | some (.cmd w, es) => onCommand w { s with events := es }
    | some (.rsp ok payload, es) => onResponse ok payload { s with events := es }
    | some (.tick, es) => onTick { s with events := es }
    | some (.reset, es) => onReset { s with events := es }
  else .refused .illFormedConfig

/-- The host presents the command word as its next event (R35, R132; log 3). -/
def State.withFetchWord (s : State) (nbits w : Nat) : State :=
  { s with events := .cmd (BitVec.ofNat 64 (w % 2 ^ nbits)) :: s.events }

end Sys2Proof.Machine
end

