-- ==== Sys2Proof/Machine/Assembler.lean ====
section
/-! DEFINITION. The assembler (R72, R73): from a line's text to an `AsmLine`, from an `AsmLine` to its word, and from a
host script to the events it presents. It is the host's tool, not part of the block; what R72 leaves open of the text's
form is log 18. -/

namespace Sys2Proof.Machine

/-- Why the assembler refuses a line. -/
inductive AsmError where
  /-- The line's first word is none of R72 and R73. -/
  | unknownMnemonic
  /-- An operand is missing, one too many, or not a number as R72 writes it. -/
  | badOperand
  /-- An operand is outside its range (R72). -/
  | outOfRange
deriving DecidableEq, Repr

/-- White space within a line (log 18). -/
def isSpace (c : Char) : Bool := c == ' ' || c == '\t' || c == '\r'

/-- The text without white space at its ends. -/
def trimText (cs : List Char) : List Char :=
  ((cs.dropWhile isSpace).reverse.dropWhile isSpace).reverse

/-- The text cut at every comma. -/
def splitCommas : List Char → List (List Char)
  | [] => [[]]
  | c :: cs =>
    if c == ',' then [] :: splitCommas cs
    else
      match splitCommas cs with
      | [] => [[c]]
      | x :: xs => (c :: x) :: xs

/-- The value of a digit in a base of at most 16. -/
def digitValue (base : Nat) (c : Char) : Option Nat :=
  let n := c.toNat
  let v :=
    if 48 ≤ n ∧ n ≤ 57 then n - 48
    else if 97 ≤ n ∧ n ≤ 102 then n - 87
    else if 65 ≤ n ∧ n ≤ 70 then n - 55
    else base
  if v < base then some v else none

/-- The value of a list of digits, after those already read. -/
def digitsValue (base : Nat) (sofar : Nat) : List Char → Option Nat
  | [] => some sofar
  | c :: cs =>
    match digitValue base c with
    | none => none
    | some v => digitsValue base (sofar * base + v) cs

/-- A number, decimal or hexadecimal with `0x` (R72). -/
def parseUnsigned : List Char → Option Int
  | [] => none
  | '0' :: 'x' :: c :: cs => (digitsValue 16 0 (c :: cs)).map Int.ofNat
  | c :: cs => (digitsValue 10 0 (c :: cs)).map Int.ofNat

/-- A number that may have a leading `-`: `op_mode` and `jog_vel` only (R72). -/
def parseSigned : List Char → Option Int
  | '-' :: cs => (parseUnsigned cs).map (fun v => -v)
  | cs => parseUnsigned cs

/-- The line with no operand. -/
def parse0 (line : AsmLine) : List (List Char) → Option AsmLine
  | [] => some line
  | _ :: _ => none

/-- A line with one operand. -/
def parse1 (f : List Char → Option Int) (line : Int → AsmLine) : List (List Char) → Option AsmLine
  | [a] => (f a).map line
  | _ => none

/-- A line with two operands. -/
def parse2 (f g : List Char → Option Int) (line : Int → Int → AsmLine) : List (List Char) → Option AsmLine
  | [a, b] => (f a).bind fun x => (g b).map fun y => line x y
  | _ => none

/-- A line with three unsigned operands. -/
def parse3 (line : Int → Int → Int → AsmLine) : List (List Char) → Option AsmLine
  | [a, b, c] =>
    (parseUnsigned a).bind fun x => (parseUnsigned b).bind fun y => (parseUnsigned c).map fun z => line x y z
  | _ => none

/-- The line a mnemonic and its operands stand for (R72, R73). -/
def parseCommand (name : List Char) (args : List (List Char)) : Except AsmError AsmLine :=
  let pick : Option AsmLine → Except AsmError AsmLine := fun o =>
    match o with
    | some line => .ok line
    | none => .error .badOperand
  if name = "claim".toList then pick (parse2 parseSigned parseSigned .claim args)
  else if name = "claim.ff".toList then pick (parse2 parseSigned parseSigned .claimFf args)
  else if name = "enable".toList then
    pick (if args.isEmpty then some .enableDefault else parse1 parseUnsigned .enable args)
  else if name = "disable".toList then pick (parse0 .disable args)
  else if name = "trig".toList then
    pick (if args.length = 1 then parse1 parseUnsigned .trigDefault args
      else parse2 parseUnsigned parseUnsigned .trig args)
  else if name = "stop".toList then pick (parse0 .stop args)
  else if name = "rdstat".toList then pick (parse0 .rdstat args)
  else if name = "waitb".toList then pick (parse3 .waitb args)
  else if name = ".word".toList then pick (parse1 parseUnsigned .word args)
  else if name = "jogmode".toList then pick (parse1 parseSigned .jogmode args)
  else if name = "waitrtso".toList then pick (parse1 parseUnsigned .waitrtso args)
  else if name = "waitswon".toList then pick (parse1 parseUnsigned .waitswon args)
  else if name = "waitopen".toList then pick (parse1 parseUnsigned .waitopen args)
  else if name = "hwait".toList then pick (parse1 parseUnsigned .hwait args)
  else .error .unknownMnemonic

/-- A line's text (R72): `;` starts a comment; a line that is empty without it holds nothing. -/
def parseLine (text : List Char) : Except AsmError (Option AsmLine) :=
  let body := trimText (text.takeWhile (· != ';'))
  if body.isEmpty then .ok none
  else
    let name := body.takeWhile (fun c => !isSpace c)
    let rest := trimText (body.dropWhile (fun c => !isSpace c))
    let args := if rest.isEmpty then [] else (splitCommas rest).map trimText
    match parseCommand name args with
    | .ok line => .ok (some line)
    | .error e => .error e

/-- R73: a pseudo-instruction as the line it expands to. -/
def expandLine (c : Cfg) : AsmLine → AsmLine
  | .enableDefault => .enable c.defTimeoutTicks.toNat
  | .trigDefault v => .trig v c.defRetries.toNat
  | .jogmode v => .claim (-1) v
  | .waitrtso t => .waitb 0 1 t
  | .waitswon t => .waitb 1 1 t
  | .waitopen t => .waitb 2 1 t
  | .claim m v => .claim m v
  | .claimFf m v => .claimFf m v
  | .enable t => .enable t
  | .disable => .disable
  | .trig v n => .trig v n
  | .stop => .stop
  | .rdstat => .rdstat
  | .waitb b v t => .waitb b v t
  | .word v => .word v
  | .hwait n => .hwait n

/-- The word of a line (R72) whose operands are in range; a pseudo-instruction and `hwait` have none of their own. -/
def lineWord : AsmLine → Option CmdWord
  | .claim m v => some (encode (.claim false (BitVec.ofInt 16 m) (BitVec.ofInt 32 v)))
  | .claimFf m v => some (encode (.claim true (BitVec.ofInt 16 m) (BitVec.ofInt 32 v)))
  | .enable t => some (encode (.enable (BitVec.ofInt 32 t)))
  | .disable => some (encode .disable)
  | .trig v n => some (encode (.trig (BitVec.ofInt 16 v) (BitVec.ofInt 8 n)))
  | .stop => some (encode .stop)
  | .rdstat => some (encode .rdstat)
  | .waitb b v t => some (encode (.waitb (BitVec.ofInt 4 b) (v == 1) (BitVec.ofInt 32 t)))
  | .word v => some (BitVec.ofInt 64 v)
  | .enableDefault => none
  | .trigDefault _ => none
  | .jogmode _ => none
  | .waitrtso _ => none
  | .waitswon _ => none
  | .waitopen _ => none
  | .hwait _ => none

/-- The word of a line (R72, R73): none for `hwait`; a line with an operand outside its range is refused. -/
def assemble (c : Cfg) (line : AsmLine) : Except AsmError (Option CmdWord) :=
  if line.wellFormed then .ok (lineWord (expandLine c line)) else .error .outOfRange

/-- The events a line stands for in a host script (R73): a word is presented; `hwait n` lets n ticks pass. -/
def lineEvents (c : Cfg) (line : AsmLine) : Except AsmError (List Event) :=
  match assemble c line with
  | .error e => .error e
  | .ok (some w) => .ok [.cmd w]
  | .ok none =>
    match line with
    | .hwait n => .ok (List.replicate n.toNat .tick)
    | _ => .ok []

/-- The source's control flow as a host script (R134, R139). -/
def sourceFlow (c : Cfg) (opMode jogVel value : Int) : List AsmLine :=
  [.claim opMode jogVel, .enableDefault, .trigDefault value, .hwait c.runTicks.toNat, .stop,
    .hwait c.settleTicks.toNat, .disable]

end Sys2Proof.Machine
end

