-- ==== Sys2Proof/Safety.lean ====
section
/-! DEFINITION. What a sound state and a sound record are: quiescence (R36), the registers of a running command (R28,
R29), the bounds of a wait (R93), the request discipline (R55) and the writes that one command may send (R99, R108). -/

namespace Sys2Proof.Machine

/-- R36: exactly one of the three waiting conditions; `seq` decides which, and `req_out` and `dly` agree with it. -/
def Regs.Quiescent (r : Regs) : Prop :=
  (r.seq = .idle ∧ r.reqOut = false) ∨
  (r.seq.awaitsResponse = true ∧ r.reqOut = true) ∨
  (r.seq.sleeps = true ∧ r.reqOut = false ∧ 1 ≤ r.dly.toNat)

/-- The phase that stage `k` of ENABLE starts from (R98). -/
def phaseBefore (k : BitVec 2) : Phase :=
  if k = 1 then .claimed else if k = 2 then .rtso else .swon

/-- ENABLE is at stage `k`, 1 to 3, in the phase that stage starts from (R97, R98). -/
def Regs.InStage (r : Regs) : Prop := r.op = 0x2 ∧ r.k ≠ 0 ∧ r.phase = phaseBefore r.k

/-- A wait runs, called by WAITB or by stage `k` of ENABLE, whose bit is k-1 and whose target is 1 (R86, R97). -/
def Regs.InWait (r : Regs) : Prop :=
  r.op = 0x7 ∨ (r.InStage ∧ r.wBit.toNat + 1 = r.k.toNat ∧ r.wTarget = true)

/-- TRIG runs: in phase `OPEN`, with legal operands, having made `att` attempts (R95, R106, R107). -/
def Regs.InTrig (r : Regs) : Prop :=
  r.op = 0x4 ∧ r.phase = .opEnabled ∧ r.jogValue ≠ 0 ∧ 1 ≤ r.att.toNat ∧ r.att.toNat ≤ r.maxAtt.toNat

/-- The registers that `seq` says a command is using hold what that command put there (R28, R29). -/
def Regs.InCommand (r : Regs) : Prop :=
  match r.seq with
  | .idle => True
  | .claimWr =>
    r.op = 0x1 ∧ r.k ≠ 0 ∧ (r.phase = .idle ∨ r.phase = .released) ∧ r.mask.toNat < 2 ^ (r.k.toNat - 1)
  | .enCw => r.InStage
  | .waitRd => r.InWait
  | .waitSlp => r.InWait
  | .disWr => r.op = 0x3 ∧ r.k ≠ 0 ∧ r.mask.toNat < 2 ^ (r.k.toNat - 1)
  | .trigWr => r.InTrig
  | .trigSlp => r.InTrig ∧ r.att.toNat < r.maxAtt.toNat
  | .stopWr => r.op = 0x5
  | .rd => r.op = 0x6

/-- `seq` is a wait point of a wait (R28). -/
def Seq.inWait : Seq → Bool
  | .waitRd => true
  | .waitSlp => true
  | .idle => false
  | .claimWr => false
  | .enCw => false
  | .disWr => false
  | .trigWr => false
  | .trigSlp => false
  | .stopWr => false
  | .rd => false

/-- R29: `w_active` holds from a wait's start to its end, and `dly` is 0 outside a sleep. -/
def Regs.TimersAgree (r : Regs) : Prop :=
  r.wActive = r.seq.inWait ∧ (r.seq.sleeps = false → r.dly = 0)

/-- R93: read n of a wait starts at `el >= (n-1) * POLL_TICKS`, and only while `el < timeout`; so the number of reads
is at most `ceil(timeout / POLL_TICKS)`. The last clause carries the first through a sleep. -/
def Regs.PollsBounded (c : Cfg) (r : Regs) : Prop :=
  r.seq.inWait = true →
    1 ≤ r.polls.toNat ∧
    (r.polls.toNat - 1) * c.pollTicks.toNat ≤ r.el.toNat ∧
    (r.polls.toNat - 1) * c.pollTicks.toNat < r.timeout.toNat ∧
    (r.seq = .waitSlp → r.dly.toNat ≤ c.pollTicks.toNat ∧
      (r.polls.toNat * c.pollTicks.toNat ≤ r.el.toNat + r.dly.toNat ∨ r.el.toNat = 2 ^ 32 - 1))

/-- The invariant of the block: a well-formed configuration (R9), quiescence (R36), and registers that agree with the
running command (R28, R29, R93). -/
def State.Sound (s : State) : Prop :=
  s.cfg.wellFormed = true ∧ s.regs.Quiescent ∧ s.regs.InCommand ∧ s.regs.TimersAgree ∧
    s.regs.PollsBounded s.cfg

/-- Whether a request is outstanding after an entry, given whether one was before it; `none` once a request has been
sent while one was outstanding (R55). -/
def trackRequests (outstanding : Option Bool) (e : Entry) : Option Bool :=
  match outstanding, e.obs with
  | some false, .req _ => some true
  | some true, .req _ => none
  | some _, .rsp _ _ => some false
  | some _, .reset => some false
  | some b, .cmd _ => some b
  | some b, .tick => some b
  | some b, .done _ _ _ _ _ => some b
  | none, _ => none

/-- R55: in the whole record no request was sent while one was outstanding, and `req_out` says whether one is now. -/
def State.OneRequestAtATime (s : State) : Prop :=
  s.history.foldl trackRequests (some false) = some s.regs.reqOut

/-- The write requests since the last accepted command or reset. -/
def collectWrites (sofar : List Request) (e : Entry) : List Request :=
  match e.obs with
  | .cmd _ => []
  | .reset => []
  | .req r => if r.kind = .write then sofar ++ [r] else sofar
  | .rsp _ _ => sofar
  | .tick => sofar
  | .done _ _ _ _ _ => sofar

/-- The write requests of the last accepted command, in order. -/
def State.commandWrites (s : State) : List Request := s.history.foldl collectWrites []

/-- A write request to a register of the drive. -/
def writeTo (c : Cfg) (reg : DevReg) (data : List Byte) : Request := ⟨.write, devAddr c reg, data⟩

/-- The read of the status word (R84). -/
def readStatus (c : Cfg) : Request := ⟨.read, devAddr c .sw, []⟩

/-- The writes a command may send, in order, from the latches of the last accepted command: all of them for a command
that goes through, fewer for one that ends before (R96, R97, R102, R106, R110). -/
def plannedWrites (c : Cfg) (r : Regs) : List Request :=
  if r.op = 0x1 then
    [writeTo c .excl (encU16 1), writeTo c .opmode (encS16 r.opMode.toInt), writeTo c .jogvel (encS32 r.jogVel.toInt)]
  else if r.op = 0x2 then
    [writeTo c .cw (encU16 0x06), writeTo c .cw (encU16 0x07), writeTo c .cw (encU16 0x0F)]
  else if r.op = 0x3 then
    [writeTo c .jog (encU16 0), writeTo c .cw (encU16 0x00), writeTo c .excl (encU16 0)]
  else if r.op = 0x4 then List.replicate r.maxAtt.toNat (writeTo c .jog (encU16 r.jogValue))
  else if r.op = 0x5 then [writeTo c .jog (encU16 0)]
  else []

/-- How many of the planned writes the running command has sent. -/
def Regs.writesSent (r : Regs) : Nat :=
  match r.seq with
  | .claimWr => r.k.toNat
  | .enCw => r.k.toNat
  | .waitRd => if r.op = 0x2 then r.k.toNat else 0
  | .waitSlp => if r.op = 0x2 then r.k.toNat else 0
  | .disWr => r.k.toNat
  | .trigWr => r.att.toNat
  | .trigSlp => r.att.toNat
  | .stopWr => 1
  | .rd => 0
  | .idle => 0

/-- The writes of the last accepted command are the first of its planned writes, in order: as many as it has sent
while it runs, some number of them once it has ended (R99, R108). -/
def State.WritesInPlan (s : State) : Prop :=
  if s.busy then s.commandWrites = (plannedWrites s.cfg s.regs).take s.regs.writesSent
  else s.commandWrites <+: plannedWrites s.cfg s.regs

/-- The control word values of R18 and R103. -/
def controlWords : List Word16 := [0x06, 0x07, 0x0F, 0x00]

/-- A request that a row of R45 allows: register, access kind, payload encoding, and the values its commands write. -/
def Request.InTable (c : Cfg) (q : Request) : Prop :=
  q = readStatus c ∨
  q = writeTo c .excl (encU16 1) ∨ q = writeTo c .excl (encU16 0) ∨
  (∃ m : BitVec 16, q = writeTo c .opmode (encS16 m.toInt)) ∨
  (∃ v : BitVec 32, q = writeTo c .jogvel (encS32 v.toInt)) ∨
  (∃ w ∈ controlWords, q = writeTo c .cw (encU16 w)) ∨
  (∃ v : BitVec 16, q = writeTo c .jog (encU16 v))

/-- The requests that stand in a piece of the record, in order. -/
def requestsOf (h : List Entry) : List Request :=
  h.filterMap fun e =>
    match e.obs with
    | .req r => some r
    | .cmd _ => none
    | .rsp _ _ => none
    | .tick => none
    | .reset => none
    | .done _ _ _ _ _ => none

/-- The tick numbers of the requests that stand in a piece of the record, in order (R41). -/
def requestTicks (h : List Entry) : List Nat :=
  h.filterMap fun e =>
    match e.obs with
    | .req _ => some e.ticks
    | .cmd _ => none
    | .rsp _ _ => none
    | .tick => none
    | .reset => none
    | .done _ _ _ _ _ => none

/-- The number of `done` pulses in a piece of the record. -/
def donesOf (h : List Entry) : Nat :=
  (h.filter fun e =>
    match e.obs with
    | .done _ _ _ _ _ => true
    | .req _ => false
    | .cmd _ => false
    | .rsp _ _ => false
    | .tick => false
    | .reset => false).length

/-- What the transport is assumed never to do (R141, R143): answer while no request is outstanding. -/
def State.transportKeepsDuty (s : State) : Bool :=
  match nextEvent s.busy s.events with
  | some (.rsp _ _, _) => s.regs.reqOut
  | some (.cmd _, _) => true
  | some (.tick, _) => true
  | some (.reset, _) => true
  | none => true

/-- `k` events taken, one a step. -/
def runFor (k : Nat) (s : State) : Result := Host.Core.run Sys2Proof.core k s

/-- `n` ticks with no other event between them. -/
def quiet (n : Nat) : List Event := List.replicate n .tick

/-- The environment's part of jog write attempts that fail: for each, a latency and a failure response, and the `d` ticks
of the inter-attempt delay after it (R106, R108). -/
def failedAttempts (d : Nat) : List (Nat × List Byte) → List Event
  | [] => []
  | (latency, payload) :: rest => quiet latency ++ .rsp false payload :: (quiet d ++ failedAttempts d rest)

/-- When the attempts of a TRIG start: the first at tick `start`, each later one `d` ticks after the response to the one
before it, which comes its latency after that one's start (R106, R108). -/
def attemptTicks (d start : Nat) : List (Nat × List Byte) → List Nat
  | [] => [start]
  | (latency, _) :: rest => start :: attemptTicks d (start + latency + d) rest

/-- The environment's part of a wait's reads that are answered at once and do not end it: for each, its response, and
the `p` ticks of the inter-poll delay after it (R89). -/
def missedReads (p : Nat) : List (Bool × List Byte) → List Event
  | [] => []
  | (ok, payload) :: rest => .rsp ok payload :: (quiet p ++ missedReads p rest)

/-- A response that does not end a wait for `bit` to be `target` (R89): a read failure, an empty payload, or a word
whose bit is not the target. -/
def misses (bit : BitVec 4) (target : Bool) (ok : Bool) (payload : List Byte) : Bool :=
  match ok, payload with
  | false, _ => true
  | true, [] => true
  | true, [_] => false
  | true, b0 :: b1 :: _ => (b1 ++ b0).getLsbD bit.toNat != target

/-- The registers after the responses to these status reads, in order, have been classified (R84). -/
def notedReads (ms : List (Bool × List Byte)) (r : Regs) : Regs :=
  ms.foldl (fun r m => noteStatus (readClass m.1 m.2) r) r

/-- The registers without those a host can test: the status word, the alarm and the result (R19 to R23). -/
def Regs.hidden (r : Regs) : Regs :=
  { r with lastSw := 0, lastSwValid := false, stopFail := false, resCode := .none, resOp := 0, resDetail := 0,
           resSw := 0, resSwValid := false }

end Sys2Proof.Machine
end

