-- ==== Sys2Proof/Certificates/Slice0/Obligations.lean ====
section
/-! DEFINITION. The statements, one `def Obligations.<Name> : Prop` each, in the order of OBLIGATIONS.json. -/

open Sys2Proof Sys2Proof.Machine

/-! ### Encoding -/

/-- R64, R70: every command is read back from its word, with every operand at every value. -/
def Obligations.DecodeOfEncode : Prop := ∀ i : Instr, decode (encode i) = .ok i

/-- R64, R70: a word that decodes is the one word of its command; no bit of it is left unread. -/
def Obligations.EncodeOfDecode : Prop := ∀ (w : CmdWord) (i : Instr), decode w = .ok i → encode i = w

/-- R64 to R68, R70: a word is a row's command exactly when `w AND mask = match`, with the row's operands; it is illegal
exactly when no row matches. -/
def Obligations.DecodeFollowsTheTable : Prop :=
  ∀ w : CmdWord,
    (decode w = .ok (.claim (w.getLsbD 8) (w.extractLsb' 16 16) (w.extractLsb' 32 32)) ↔
      w &&& 0x000000000000FEFF = 0x0000000000000001) ∧
    (decode w = .ok (.enable (w.extractLsb' 32 32)) ↔ w &&& 0x00000000FFFFFFFF = 0x0000000000000002) ∧
    (decode w = .ok .disable ↔ w &&& 0xFFFFFFFFFFFFFFFF = 0x0000000000000003) ∧
    (decode w = .ok (.trig (w.extractLsb' 16 16) (w.extractLsb' 8 8)) ↔
      w &&& 0xFFFFFFFF000000FF = 0x0000000000000004) ∧
    (decode w = .ok .stop ↔ w &&& 0xFFFFFFFFFFFFFFFF = 0x0000000000000005) ∧
    (decode w = .ok .rdstat ↔ w &&& 0xFFFFFFFFFFFFFFFF = 0x0000000000000006) ∧
    (decode w = .ok (.waitb (w.extractLsb' 8 4) (w.getLsbD 12) (w.extractLsb' 32 32)) ↔
      w &&& 0x00000000FFFFE0FF = 0x0000000000000007) ∧
    ((∃ e, decode w = .error e) ↔
      w &&& 0x000000000000FEFF ≠ 0x0000000000000001 ∧ w &&& 0x00000000FFFFFFFF ≠ 0x0000000000000002 ∧
      w &&& 0xFFFFFFFFFFFFFFFF ≠ 0x0000000000000003 ∧ w &&& 0xFFFFFFFF000000FF ≠ 0x0000000000000004 ∧
      w &&& 0xFFFFFFFFFFFFFFFF ≠ 0x0000000000000005 ∧ w &&& 0xFFFFFFFFFFFFFFFF ≠ 0x0000000000000006 ∧
      w &&& 0x00000000FFFFE0FF ≠ 0x0000000000000007)

/-- R71, its first sentence: the reserved opcodes and every non-zero reserved bit are illegal. -/
def Obligations.ReservedPatternsAreIllegal : Prop :=
  ∀ w : CmdWord,
    (w.extractLsb' 0 4 = 0 → decode w = .error .reservedOpcode) ∧
    (8 ≤ (w.extractLsb' 0 4).toNat → decode w = .error .reservedOpcode) ∧
    (1 ≤ (w.extractLsb' 0 4).toNat → (w.extractLsb' 0 4).toNat ≤ 7 → w.extractLsb' 4 4 ≠ 0 →
      decode w = .error .reservedBits) ∧
    (w.extractLsb' 0 4 = 1 → w.extractLsb' 9 7 ≠ 0 → decode w = .error .reservedBits) ∧
    (w.extractLsb' 0 4 = 2 → w.extractLsb' 8 24 ≠ 0 → decode w = .error .reservedBits) ∧
    (w.extractLsb' 0 4 = 3 ∨ w.extractLsb' 0 4 = 5 ∨ w.extractLsb' 0 4 = 6 → w.extractLsb' 8 56 ≠ 0 →
      decode w = .error .reservedBits) ∧
    (w.extractLsb' 0 4 = 4 → w.extractLsb' 32 32 ≠ 0 → decode w = .error .reservedBits) ∧
    (w.extractLsb' 0 4 = 7 → (w.extractLsb' 13 3 ≠ 0 ∨ w.extractLsb' 16 16 ≠ 0) → decode w = .error .reservedBits)

/-- R74: the words of the table of encodings decode to their source lines. -/
def Obligations.TableWordsDecode : Prop :=
  decode 0x000003E8FFFF0001 = .ok (.claim false (-1) 1000) ∧
  decode 0x000003E8FFFF0101 = .ok (.claim true (-1) 1000) ∧
  decode 0xFFFFFC1800030001 = .ok (.claim false 3 (-1000)) ∧
  decode 0x00000BB800000002 = .ok (.enable 3000) ∧
  decode 0x0000012C00000002 = .ok (.enable 300) ∧
  decode 0x0000000000000003 = .ok .disable ∧
  decode 0x0000000000010304 = .ok (.trig 1 3) ∧
  decode 0x0000000000000005 = .ok .stop ∧
  decode 0x0000000000000006 = .ok .rdstat ∧
  decode 0x00000BB800001007 = .ok (.waitb 0 true 3000) ∧
  decode 0x0000012C00001207 = .ok (.waitb 2 true 300) ∧
  decode 0x0000000000000007 = .ok (.waitb 0 false 0) ∧
  decode 0x0000000000000013 = .error .reservedBits

/-- R72, R73: a line with an operand outside R72's range is refused; a line whose operands are in range gives the word of
the command it names. That a `.word` of more than 64 bits and a negative `hwait` are refused is the model's choice
(log 18). -/
def Obligations.AssembledLines : Prop :=
  ∀ c : Cfg,
    (∀ m v : Int, m < -32768 ∨ 32767 < m ∨ v < -2147483648 ∨ 2147483647 < v →
      assemble c (.claim m v) = .error .outOfRange ∧ assemble c (.claimFf m v) = .error .outOfRange) ∧
    (∀ v : Int, v < -2147483648 ∨ 2147483647 < v → assemble c (.jogmode v) = .error .outOfRange) ∧
    (∀ t : Int, t < 0 ∨ 4294967295 < t →
      assemble c (.enable t) = .error .outOfRange ∧ assemble c (.waitrtso t) = .error .outOfRange ∧
      assemble c (.waitswon t) = .error .outOfRange ∧ assemble c (.waitopen t) = .error .outOfRange) ∧
    (∀ v n : Int, v < 0 ∨ 65535 < v ∨ n < 0 ∨ 255 < n → assemble c (.trig v n) = .error .outOfRange) ∧
    (∀ v : Int, v < 0 ∨ 65535 < v → assemble c (.trigDefault v) = .error .outOfRange) ∧
    (∀ b v t : Int, b < 0 ∨ 15 < b ∨ v < 0 ∨ 1 < v ∨ t < 0 ∨ 4294967295 < t →
      assemble c (.waitb b v t) = .error .outOfRange) ∧
    (∀ v : Int, v < 0 ∨ 18446744073709551615 < v → assemble c (.word v) = .error .outOfRange) ∧
    (∀ n : Int, n < 0 → assemble c (.hwait n) = .error .outOfRange) ∧
    (∀ m v : Int, -32768 ≤ m → m ≤ 32767 → -2147483648 ≤ v → v ≤ 2147483647 →
      assemble c (.claim m v) = .ok (some (encode (.claim false (BitVec.ofInt 16 m) (BitVec.ofInt 32 v)))) ∧
      assemble c (.claimFf m v) = .ok (some (encode (.claim true (BitVec.ofInt 16 m) (BitVec.ofInt 32 v)))) ∧
      assemble c (.jogmode v) = .ok (some (encode (.claim false 0xFFFF (BitVec.ofInt 32 v))))) ∧
    (∀ t : Ticks,
      assemble c (.enable t.toNat) = .ok (some (encode (.enable t))) ∧
      assemble c (.waitrtso t.toNat) = .ok (some (encode (.waitb 0 true t))) ∧
      assemble c (.waitswon t.toNat) = .ok (some (encode (.waitb 1 true t))) ∧
      assemble c (.waitopen t.toNat) = .ok (some (encode (.waitb 2 true t)))) ∧
    (∀ (v : BitVec 16) (n : BitVec 8),
      assemble c (.trig v.toNat n.toNat) = .ok (some (encode (.trig v n))) ∧
      assemble c (.trigDefault v.toNat) = .ok (some (encode (.trig v c.defRetries)))) ∧
    (∀ (b : BitVec 4) (t : Ticks),
      assemble c (.waitb b.toNat 0 t.toNat) = .ok (some (encode (.waitb b false t))) ∧
      assemble c (.waitb b.toNat 1 t.toNat) = .ok (some (encode (.waitb b true t)))) ∧
    (∀ w : CmdWord, assemble c (.word w.toNat) = .ok (some w)) ∧
    assemble c .enableDefault = .ok (some (encode (.enable c.defTimeoutTicks))) ∧
    assemble c .disable = .ok (some (encode .disable)) ∧
    assemble c .stop = .ok (some (encode .stop)) ∧
    assemble c .rdstat = .ok (some (encode .rdstat)) ∧
    (∀ n : Nat, assemble c (.hwait n) = .ok none)

/-! ### Codec -/

/-- R81: the round-trip law, for every value of each encoding. -/
def Obligations.CodecRoundTrip : Prop :=
  (∀ v : BitVec 16, decU16 (encU16 v) = some v.toNat) ∧
  (∀ v : Int, -32768 ≤ v → v ≤ 32767 → decS16 (encS16 v) = some v) ∧
  (∀ v : Int, -2147483648 ≤ v → v ≤ 2147483647 → decS32 (encS32 v) = some v) ∧
  (∀ v : BitVec 16, decSw (encU16 v) = .word v)

/-- R79: the status-word decoder on a list of any length. -/
def Obligations.StatusWordDecoding : Prop :=
  decSw [] = .readFailure ∧ (∀ b : Byte, decSw [b] = .encodingError) ∧
  (∀ (b0 b1 : Byte) (rest : List Byte), ∃ s : Word16,
    decSw (b0 :: b1 :: rest) = .word s ∧ s.toNat = b0.toNat + 256 * b1.toNat)

/-- R83: the pattern in the command word is the pattern on the wire. -/
def Obligations.SignedPatternsOnTheWire : Prop :=
  (∀ m : BitVec 16, encS16 m.toInt = [m.extractLsb' 0 8, m.extractLsb' 8 8]) ∧
  (∀ v : BitVec 32, encS32 v.toInt =
    [v.extractLsb' 0 8, v.extractLsb' 8 8, v.extractLsb' 16 8, v.extractLsb' 24 8])

/-! ### Reset -/

/-- R43: every register's reset value. -/
def Obligations.ResetValues : Prop :=
  State.reset.regs =
    { phase := .idle, seq := .idle, reqOut := false, k := 0, mask := 0, att := 0, wActive := false, el := 0,
      polls := 0, dly := 0, op := 0, opMode := 0, jogVel := 0, ff := false, timeout := 0, jogValue := 0, maxAtt := 0,
      wBit := 0, wTarget := false, lastSw := 0x0000, lastSwValid := false, stopFail := false, resCode := .none,
      resOp := 0, resDetail := 0, resSw := 0, resSwValid := false } ∧
  State.reset.busy = false ∧ State.reset.cmdReady = true ∧ State.reset.regs.phase.code = 0 ∧
  State.reset.regs.resCode.code = 0xF

/-- R130: a reset, at any time and whatever comes after it, sets every register at once and sends nothing; a response that
comes next is dropped (R39). That the
tick count, the record and the later events survive the reset is log 8, and that the dropped response is recorded is
log 10. -/
def Obligations.ResetEvent : Prop :=
  ∀ (s : State) (es : List Event), s.cfg.wellFormed = true → s.events = .reset :: es →
    step s = .next { s with
      regs := Regs.reset, events := es, history := s.history ++ [⟨s.ticks, .reset⟩] } ∧
    (∀ (ok : Bool) (payload : List Byte) (later : List Event), es = .rsp ok payload :: later →
      runFor 2 s = .next { s with
        regs := Regs.reset, events := later,
        history := s.history ++ [⟨s.ticks, .reset⟩, ⟨s.ticks, .rsp ok payload⟩] })

/-! ### Steps -/

/-- A step runs the decoded command: while no command runs, the word the host presents is decoded and executed, its event
being the only thing the step adds (R35, R38). -/
def Obligations.StepRunsTheDecodedCommand : Prop :=
  ∀ (s : State) (w : CmdWord) (i : Instr) (es : List Event), s.cfg.wellFormed = true → s.regs.seq = .idle →
    s.events = .cmd w :: es → decode w = .ok i → step s = exec i { s with events := es }

/-- The word that stands where the step fetches is the one it runs (log 3). -/
def Obligations.FetchedWordRuns : Prop :=
  ∀ (s : State) (nbits w : Nat) (i : Instr), s.cfg.wellFormed = true → s.regs.seq = .idle →
    decodeTableWord nbits w = some i → step (s.withFetchWord nbits w) = exec i s

/-- R38: a command presented while `busy = 1` is not accepted and changes no state. -/
def Obligations.BusyCommandNotAccepted : Prop :=
  ∀ (s : State) (i : Instr) (w : CmdWord), s.regs.seq ≠ .idle → exec i s = .next s ∧ acceptIllegal w s = .next s

/-- R38, R135, as log 2 reads them: while a command runs, the words the host presents wait, unchanged and in their order,
behind the next event that is no command; with no such event nothing happens. -/
def Obligations.HeldCommandsWait : Prop :=
  ∀ (s : State) (ws : List CmdWord) (es : List Event), s.cfg.wellFormed = true → s.regs.seq ≠ .idle →
    (s.events = ws.map .cmd → step s = .next s) ∧
    (∀ ok payload, s.events = ws.map .cmd ++ .rsp ok payload :: es →
      step s = onResponse ok payload { s with events := ws.map .cmd ++ es }) ∧
    (s.events = ws.map .cmd ++ .tick :: es → step s = onTick { s with events := ws.map .cmd ++ es }) ∧
    (s.events = ws.map .cmd ++ .reset :: es → step s = onReset { s with events := ws.map .cmd ++ es })

/-- R39, its second half: a response with no request outstanding changes no register. That it is recorded all the same is
log 10. -/
def Obligations.UnaskedResponseDropped : Prop :=
  ∀ (s : State) (ok : Bool) (payload : List Byte) (es : List Event), s.cfg.wellFormed = true →
    s.regs.reqOut = false → s.events = .rsp ok payload :: es →
    step s = .next { s with events := es, history := s.history ++ [⟨s.ticks, .rsp ok payload⟩] }

/-- R40: what a tick does. First `el` counts, saturating, while a wait is active; then, in a sleep state, `dly` counts
down, and at 0 the command goes on after its sleep. In every other state nothing more changes. That the tick's own entry
carries its own number, `s.ticks + 1`, is the model's choice (log 9).

In a sound state what goes on is stated in full. At the end of a wait's sleep, of WAITB or of ENABLE, the deadline test
(R86, R87) sends the next read while `el + 1 < timeout`; else WAITB finishes with `TIMEOUT` (R94), and ENABLE too, as
`EnableFailureOutcomes` says. At the end of TRIG's sleep the next attempt is sent (R106). That `el` and `polls` keep their
last values after the `TIMEOUT` is log 12. -/
def Obligations.TickCounts : Prop :=
  ∀ (s : State) (es : List Event), s.cfg.wellFormed = true → s.events = .tick :: es →
    ∃ r : Regs,
      (s.regs.wActive = false → r = s.regs) ∧
      (s.regs.wActive = true → s.regs.el.toNat = 2 ^ 32 - 1 → r = s.regs) ∧
      (s.regs.wActive = true → s.regs.el.toNat < 2 ^ 32 - 1 → r = { s.regs with el := s.regs.el + 1 }) ∧
      (s.regs.seq ≠ .waitSlp → s.regs.seq ≠ .trigSlp →
        step s = .next { s with
          regs := r, ticks := s.ticks + 1, events := es, history := s.history ++ [⟨s.ticks + 1, .tick⟩] }) ∧
      (s.regs.seq = .waitSlp ∨ s.regs.seq = .trigSlp → 2 ≤ s.regs.dly.toNat →
        step s = .next { s with
          regs := { r with dly := s.regs.dly - 1 }, ticks := s.ticks + 1, events := es,
          history := s.history ++ [⟨s.ticks + 1, .tick⟩] }) ∧
      (s.regs.dly = 1 → s.regs.seq = .waitSlp →
        step s = waitTest { s with
          regs := { r with dly := 0 }, ticks := s.ticks + 1, events := es,
          history := s.history ++ [⟨s.ticks + 1, .tick⟩] }) ∧
      (s.regs.dly = 1 → s.regs.seq = .trigSlp →
        step s = trigAttempt { s with
          regs := { r with dly := 0 }, ticks := s.ticks + 1, events := es,
          history := s.history ++ [⟨s.ticks + 1, .tick⟩] }) ∧
      (s.Sound → s.regs.dly = 1 → s.regs.seq = .waitSlp → s.regs.el.toNat + 1 < s.regs.timeout.toNat →
        step s = .next { s with
          regs := { r with dly := 0, polls := s.regs.polls + 1, reqOut := true, seq := .waitRd }
          ticks := s.ticks + 1, events := es
          history := s.history ++ [⟨s.ticks + 1, .tick⟩, ⟨s.ticks + 1, .req (readStatus s.cfg)⟩] }) ∧
      (s.Sound → s.regs.dly = 1 → s.regs.seq = .waitSlp → s.regs.op = 0x7 →
        s.regs.timeout.toNat ≤ s.regs.el.toNat + 1 →
        step s = .next { s with
          regs := { r with
            dly := 0, wActive := false, seq := .idle, resCode := .timeout, resOp := 0x7,
            resDetail := BitVec.ofNat 8 (min s.regs.polls.toNat 255), resSw := s.regs.lastSw,
            resSwValid := s.regs.lastSwValid }
          ticks := s.ticks + 1, events := es
          history := s.history ++ [⟨s.ticks + 1, .tick⟩,
            ⟨s.ticks + 1, .done .timeout 0x7 (BitVec.ofNat 8 (min s.regs.polls.toNat 255)) s.regs.lastSw
              s.regs.lastSwValid⟩] }) ∧
      (s.Sound → s.regs.dly = 1 → s.regs.seq = .trigSlp →
        step s = .next { s with
          regs := { r with dly := 0, att := s.regs.att + 1, reqOut := true, seq := .trigWr }
          ticks := s.ticks + 1, events := es
          history := s.history ++ [⟨s.ticks + 1, .tick⟩,
            ⟨s.ticks + 1, .req (writeTo s.cfg .jog
              [s.regs.jogValue.extractLsb' 0 8, s.regs.jogValue.extractLsb' 8 8])⟩] })

/-- R9: a configuration is well formed exactly when `POLL_TICKS >= 1`, whatever the other parameters; the model refuses
any other at every step, and refuses nothing else. -/
def Obligations.IllFormedConfigurationRefused : Prop :=
  (∀ c : Cfg, c.wellFormed = true ↔ 1 ≤ c.pollTicks.toNat) ∧
  (∀ s : State, (∃ r, step s = .refused r) ↔ s.cfg.pollTicks = 0) ∧
  (∀ s : State, s.cfg.pollTicks = 0 → step s = .refused .illFormedConfig)

/-- R6: no step changes the configuration. -/
def Obligations.ConfigurationFixed : Prop :=
  ∀ s t : State, step s = .next t → t.cfg = s.cfg

/-! ### Invariants -/

/-- The invariants hold at reset. -/
def Obligations.ResetIsSound : Prop :=
  State.reset.Sound ∧ State.reset.OneRequestAtATime ∧ State.reset.WritesInPlan

/-- The registers agree with the running command after every step (R28, R29, R36, R93). -/
def Obligations.SoundKept : Prop :=
  ∀ s t : State, s.Sound → step s = .next t → t.Sound

/-- The block never stops: from every sound state every event has a next state, so no model fault is ever raised and
nothing is refused. -/
def Obligations.SoundNeverStops : Prop :=
  ∀ s : State, s.Sound → ∃ t, step s = .next t

/-- R36: after every event the block is quiescent, in exactly one of three waiting conditions. -/
def Obligations.QuiescentAfterEveryEvent : Prop :=
  State.reset.regs.Quiescent ∧
  ∀ s t : State, s.regs.Quiescent → step s = .next t →
    (t.regs.seq = .idle ∧ t.regs.reqOut = false ∧ t.regs.seq.awaitsResponse = false ∧ t.regs.seq.sleeps = false) ∨
    (t.regs.seq ≠ .idle ∧ t.regs.reqOut = true ∧ t.regs.seq.awaitsResponse = true ∧ t.regs.seq.sleeps = false) ∨
    (t.regs.seq ≠ .idle ∧ t.regs.reqOut = false ∧ (t.regs.seq = .waitSlp ∨ t.regs.seq = .trigSlp) ∧
      1 ≤ t.regs.dly.toNat)

/-- R55: in the whole record no request is sent while one is outstanding, and `req_out` says whether one is. -/
def Obligations.OneRequestOutstanding : Prop :=
  ∀ s t : State, s.regs.Quiescent → s.OneRequestAtATime → step s = .next t → t.OneRequestAtATime

/-- R99, R108: the writes of one command are the first of its planned writes, in order, at every moment of every run. The
plan is read from the latch `op` alone, so after an illegal word it is that opcode's: that such a word sends nothing is
`IllegalWordFinishes`. -/
def Obligations.CommandWritesInOrder : Prop :=
  ∀ s t : State, s.Sound → s.WritesInPlan → step s = .next t → t.WritesInPlan

/-- R37: an event adds to the record itself, at most one request and at most one `done`, never both; a request is the
last entry and is then outstanding, and so is a `done`, after which the block is idle. -/
def Obligations.OneRequestPerEvent : Prop :=
  ∀ s t : State, s.regs.Quiescent → step s = .next t → ∃ h : List Entry,
    t.history = s.history ++ h ∧
    (h = [] ∨ (∃ e, h = [e]) ∨
      (∃ e q, h = [e, ⟨t.ticks, .req q⟩] ∧ t.regs.reqOut = true) ∨
      (∃ e, h = [e, ⟨t.ticks, doneObs t.regs⟩] ∧ t.regs.seq = .idle ∧ t.regs.reqOut = false)) ∧
    (requestsOf h).length + donesOf h ≤ 1

/-- R45, R103: every request the block sends is a row of the table: its register, its access kind, its payload. -/
def Obligations.RequestsInTable : Prop :=
  ∀ s t : State, step s = .next t →
    ∀ q ∈ requestsOf (t.history.drop s.history.length), q.InTable s.cfg

/-- R104: the phase changes only by a reset, at the start of ENABLE, when a stage of ENABLE succeeds, when CLAIM ends
(not under FailFast with a failure), and when DISABLE ends. -/
def Obligations.PhaseChanges : Prop :=
  ∀ s t : State, s.Sound → step s = .next t → t.regs.phase ≠ s.regs.phase →
    (∃ es, nextEvent s.busy s.events = some (.reset, es) ∧ t.regs.phase = .idle) ∨
    (∃ w es d, nextEvent s.busy s.events = some (.cmd w, es) ∧ s.regs.seq = .idle ∧ decode w = .ok (.enable d) ∧
      (s.regs.phase = .rtso ∨ s.regs.phase = .swon) ∧ t.regs.phase = .claimed) ∨
    (∃ ok p es, nextEvent s.busy s.events = some (.rsp ok p, es) ∧
      ((s.regs.seq = .claimWr ∧ s.regs.k = 3 ∧ (s.regs.phase = .idle ∨ s.regs.phase = .released) ∧
          (s.regs.ff = true → ok = true) ∧ t.regs.phase = .claimed) ∨
        (s.regs.seq = .waitRd ∧ s.regs.op = 0x2 ∧ readClass ok p = .sw t.regs.lastSw ∧
          t.regs.lastSw.getLsbD s.regs.wBit.toNat = true ∧
          ((s.regs.phase = .claimed ∧ s.regs.wBit = 0 ∧ t.regs.phase = .rtso) ∨
            (s.regs.phase = .rtso ∧ s.regs.wBit = 1 ∧ t.regs.phase = .swon) ∨
            (s.regs.phase = .swon ∧ s.regs.wBit = 2 ∧ t.regs.phase = .opEnabled))) ∨
        (s.regs.seq = .disWr ∧ s.regs.k = 3 ∧ t.regs.phase = .released)))

/-- R99, its second half, and R140: a step that sends a control word of ENABLE either accepts ENABLE, and sends 0x06, or
takes the response with which the wait of the stage before succeeds, and sends the next one. No other step sends one, not
even the response to the control word before it. -/
def Obligations.ControlWordOnlyAfterItsGate : Prop :=
  ∀ s t : State, s.Sound → step s = .next t → t.regs.seq = .enCw →
    requestsOf (t.history.drop s.history.length) ≠ [] →
    (s.regs.seq = .idle ∧ t.regs.k = 1 ∧ t.regs.phase = .claimed ∧
      requestsOf (t.history.drop s.history.length) = [writeTo s.cfg .cw [0x06, 0x00]]) ∨
    (s.regs.seq = .waitRd ∧ s.regs.op = 0x2 ∧ t.regs.k = s.regs.k + 1 ∧
      t.regs.lastSwValid = true ∧ t.regs.lastSw.getLsbD (s.regs.k.toNat - 1) = true ∧
      ((s.regs.k = 1 ∧ requestsOf (t.history.drop s.history.length) = [writeTo s.cfg .cw [0x07, 0x00]]) ∨
        (s.regs.k = 2 ∧ requestsOf (t.history.drop s.history.length) = [writeTo s.cfg .cw [0x0F, 0x00]])))

/-- R20: the alarm follows the last answered write of 0 to jog-activate, and falls at a reset; nothing else moves it. -/
def Obligations.StopAlarm : Prop :=
  ∀ s t : State, s.Sound → step s = .next t →
    (∀ es, nextEvent s.busy s.events = some (.reset, es) → t.alarmStopFail = false) ∧
    (∀ ok p es, nextEvent s.busy s.events = some (.rsp ok p, es) →
      (s.regs.seq = .stopWr ∨ (s.regs.seq = .disWr ∧ s.regs.k = 1)) → t.alarmStopFail = !ok) ∧
    (t.alarmStopFail ≠ s.alarmStopFail →
      (∃ es, nextEvent s.busy s.events = some (.reset, es)) ∨
      (∃ ok p es, nextEvent s.busy s.events = some (.rsp ok p, es) ∧
        (s.regs.seq = .stopWr ∨ (s.regs.seq = .disWr ∧ s.regs.k = 1))))

/-- R17, R19: a status word enters only as the first two bytes of a successful status read, and is then valid. -/
def Obligations.StatusWordFromReadsOnly : Prop :=
  ∀ s t : State, s.Sound → step s = .next t → t.regs.lastSw ≠ s.regs.lastSw →
    (∃ es, nextEvent s.busy s.events = some (.reset, es) ∧ t.regs.lastSw = 0) ∨
    (∃ b0 b1 p es, nextEvent s.busy s.events = some (.rsp true (b0 :: b1 :: p), es) ∧
      (s.regs.seq = .rd ∨ s.regs.seq = .waitRd) ∧ t.regs.lastSw = b1 ++ b0 ∧ t.regs.lastSwValid = true)

/-- R115, R119: the result fields change only when a command finishes, which the record shows, or at a reset. -/
def Obligations.ResultStays : Prop :=
  ∀ s t : State, step s = .next t → donesOf (t.history.drop s.history.length) = 0 →
    (∀ es, nextEvent s.busy s.events ≠ some (.reset, es)) →
    t.regs.resCode = s.regs.resCode ∧ t.regs.resOp = s.regs.resOp ∧ t.regs.resDetail = s.regs.resDetail ∧
      t.regs.resSw = s.regs.resSw ∧ t.regs.resSwValid = s.regs.resSwValid

/-- R87, R93: a step that sends a read of a wait leaves `el < timeout`; a step that finishes a command with `TIMEOUT`
leaves `el >= timeout`, and is never the response to a read. After every step a wait has sent at most
`ceil(timeout / POLL_TICKS)` reads, the n-th not before `el = (n-1) * POLL_TICKS`; with `TIMEOUT` too it has sent no
more. A step takes any event, so all this holds for every latency. That `el` and `polls` still read so after the
`TIMEOUT` is log 12. -/
def Obligations.PollsWithinTheDeadline : Prop :=
  ∀ s t : State, s.Sound → step s = .next t →
    (t.regs.seq = .waitRd → requestsOf (t.history.drop s.history.length) ≠ [] →
      requestsOf (t.history.drop s.history.length) = [readStatus s.cfg] ∧
        t.regs.el.toNat < t.regs.timeout.toNat) ∧
    (donesOf (t.history.drop s.history.length) ≠ 0 → t.regs.resCode = .timeout →
      t.regs.timeout.toNat ≤ t.regs.el.toNat ∧ s.regs.seq ≠ .waitRd ∧
        t.regs.polls.toNat ≤ (t.regs.timeout.toNat + s.cfg.pollTicks.toNat - 1) / s.cfg.pollTicks.toNat) ∧
    (t.regs.seq = .waitRd ∨ t.regs.seq = .waitSlp →
      t.regs.polls.toNat ≤ (t.regs.timeout.toNat + s.cfg.pollTicks.toNat - 1) / s.cfg.pollTicks.toNat ∧
        (t.regs.polls.toNat - 1) * s.cfg.pollTicks.toNat ≤ t.regs.el.toNat)

/-- R23, R60: what a host can test never steers the block: from two states that differ only in the status word, the
alarm, the result and the record, an event does the same to every other register and sends the same requests. -/
def Obligations.HostFlagsNeverSteer : Prop :=
  ∀ s s' t : State, s'.cfg = s.cfg → s'.ticks = s.ticks → s'.events = s.events → s'.regs.hidden = s.regs.hidden →
    step s = .next t →
    ∃ t', step s' = .next t' ∧ t'.cfg = t.cfg ∧ t'.ticks = t.ticks ∧ t'.events = t.events ∧
      t'.regs.hidden = t.regs.hidden ∧
      requestsOf (t'.history.drop s'.history.length) = requestsOf (t.history.drop s.history.length)

/-! ### Commands: acceptance, each with all it leaves unchanged -/

/-- R96: CLAIM in `IDLE` or `RELEASED` is accepted and sends the exclusive-access write. -/
def Obligations.ClaimStarts : Prop :=
  ∀ (s : State) (ff : Bool) (m : BitVec 16) (v : BitVec 32), s.regs.seq = .idle →
    (s.regs.phase = .idle ∨ s.regs.phase = .released) →
    exec (.claim ff m v) s = .next { s with
      regs := { s.regs with
        op := 0x1, ff := ff, opMode := m, jogVel := v, mask := 0, k := 1, reqOut := true, seq := .claimWr }
      history := s.history ++
        [⟨s.ticks, .cmd (encode (.claim ff m v))⟩, ⟨s.ticks, .req ⟨.write, s.cfg.addrExcl, [0x01, 0x00]⟩⟩] }

/-- R97: ENABLE in `CLAIMED`, `RTSO` or `SWON` goes to `CLAIMED` and sends control word 0x06. -/
def Obligations.EnableStarts : Prop :=
  ∀ (s : State) (d : Ticks), s.regs.seq = .idle →
    (s.regs.phase = .claimed ∨ s.regs.phase = .rtso ∨ s.regs.phase = .swon) →
    exec (.enable d) s = .next { s with
      regs := { s.regs with
        op := 0x2, timeout := d, phase := .claimed, lastSwValid := false, k := 1, reqOut := true, seq := .enCw }
      history := s.history ++
        [⟨s.ticks, .cmd (encode (.enable d))⟩, ⟨s.ticks, .req ⟨.write, s.cfg.addrCw, [0x06, 0x00]⟩⟩] }

/-- R102: DISABLE is accepted in every phase and sends the stop write first. -/
def Obligations.DisableStarts : Prop :=
  ∀ s : State, s.regs.seq = .idle →
    exec .disable s = .next { s with
      regs := { s.regs with op := 0x3, mask := 0, k := 1, reqOut := true, seq := .disWr }
      history := s.history ++
        [⟨s.ticks, .cmd (encode .disable)⟩, ⟨s.ticks, .req ⟨.write, s.cfg.addrJog, [0x00, 0x00]⟩⟩] }

/-- R106: TRIG in `OPEN` with a non-zero value and a non-zero attempt count makes its first attempt. -/
def Obligations.TrigStarts : Prop :=
  ∀ (s : State) (v : BitVec 16) (n : BitVec 8), s.regs.seq = .idle → s.regs.phase = .opEnabled → v ≠ 0 → n ≠ 0 →
    exec (.trig v n) s = .next { s with
      regs := { s.regs with op := 0x4, jogValue := v, maxAtt := n, att := 1, reqOut := true, seq := .trigWr }
      history := s.history ++
        [⟨s.ticks, .cmd (encode (.trig v n))⟩,
          ⟨s.ticks, .req ⟨.write, s.cfg.addrJog, [v.extractLsb' 0 8, v.extractLsb' 8 8]⟩⟩] }

/-- R107: TRIG in `OPEN` refuses a zero value and a zero attempt count with `ARG`, without a write. -/
def Obligations.TrigRefusesZeroOperands : Prop :=
  ∀ (s : State) (v : BitVec 16) (n : BitVec 8), s.regs.seq = .idle → s.regs.phase = .opEnabled → v = 0 ∨ n = 0 →
    exec (.trig v n) s = .next { s with
      regs := { s.regs with
        op := 0x4, jogValue := v, maxAtt := n, resCode := .arg, resOp := 0x4, resDetail := 0, resSw := 0,
        resSwValid := false, wActive := false, dly := 0 }
      history := s.history ++
        [⟨s.ticks, .cmd (encode (.trig v n))⟩, ⟨s.ticks, .done .arg 0x4 0 0 false⟩] }

/-- R110: STOP is accepted in every phase and sends its one write of 0. -/
def Obligations.StopStarts : Prop :=
  ∀ s : State, s.regs.seq = .idle →
    exec .stop s = .next { s with
      regs := { s.regs with op := 0x5, reqOut := true, seq := .stopWr }
      history := s.history ++
        [⟨s.ticks, .cmd (encode .stop)⟩, ⟨s.ticks, .req ⟨.write, s.cfg.addrJog, [0x00, 0x00]⟩⟩] }

/-- R85: RDSTAT is accepted in every phase, clears `last_sw_valid` and sends one status read. -/
def Obligations.RdstatStarts : Prop :=
  ∀ s : State, s.regs.seq = .idle →
    exec .rdstat s = .next { s with
      regs := { s.regs with op := 0x6, lastSwValid := false, reqOut := true, seq := .rd }
      history := s.history ++
        [⟨s.ticks, .cmd (encode .rdstat)⟩, ⟨s.ticks, .req ⟨.read, s.cfg.addrSw, []⟩⟩] }

/-- R86, R94: WAITB with a non-zero timeout is accepted in every phase, starts its wait and sends the first read at
once. -/
def Obligations.WaitbStarts : Prop :=
  ∀ (s : State) (b : BitVec 4) (v : Bool) (d : Ticks), s.regs.seq = .idle → d ≠ 0 →
    exec (.waitb b v d) s = .next { s with
      regs := { s.regs with
        op := 0x7, wBit := b, wTarget := v, timeout := d, wActive := true, el := 0, polls := 1, lastSwValid := false,
        reqOut := true, seq := .waitRd }
      history := s.history ++
        [⟨s.ticks, .cmd (encode (.waitb b v d))⟩, ⟨s.ticks, .req ⟨.read, s.cfg.addrSw, []⟩⟩] }

/-- R92: with a timeout of 0 the wait of WAITB returns at once with no read. -/
def Obligations.WaitbZeroTimeout : Prop :=
  ∀ (s : State) (b : BitVec 4) (v : Bool), s.regs.seq = .idle →
    exec (.waitb b v 0) s = .next { s with
      regs := { s.regs with
        op := 0x7, wBit := b, wTarget := v, timeout := 0, wActive := false, el := 0, polls := 0, lastSwValid := false,
        dly := 0, resCode := .timeout, resOp := 0x7, resDetail := 0, resSw := s.regs.lastSw, resSwValid := false }
      history := s.history ++
        [⟨s.ticks, .cmd (encode (.waitb b v 0))⟩, ⟨s.ticks, .done .timeout 0x7 0 s.regs.lastSw false⟩] }

/-- R95: CLAIM, ENABLE and TRIG in any other phase finish at once with `PHASE`, without a request; the latches stand as
R38 has them written (log 11). -/
def Obligations.PhaseRefusals : Prop :=
  ∀ (s : State) (i : Instr), s.regs.seq = .idle →
    (match i with
      | .claim _ _ _ => s.regs.phase ≠ .idle ∧ s.regs.phase ≠ .released
      | .enable _ => s.regs.phase ≠ .claimed ∧ s.regs.phase ≠ .rtso ∧ s.regs.phase ≠ .swon
      | .trig _ _ => s.regs.phase ≠ .opEnabled
      | _ => False) →
    exec i s = .next { s with
      regs := { latch i s.regs with
        resCode := .phase, resOp := i.opc, resDetail := 0, resSw := 0, resSwValid := false, wActive := false, dly := 0 }
      history := s.history ++ [⟨s.ticks, .cmd (encode i)⟩, ⟨s.ticks, .done .phase i.opc 0 0 false⟩] }

/-- R116: an illegal word is accepted, latches `op` alone, and finishes at once with `ILLEGAL`. -/
def Obligations.IllegalWordFinishes : Prop :=
  ∀ (s : State) (w : CmdWord) (e : DecodeError) (es : List Event), s.Sound → s.regs.seq = .idle →
    decode w = .error e → s.events = .cmd w :: es →
    step s = .next { s with
      regs := { s.regs with
        op := w.extractLsb' 0 4, resCode := .illegal, resOp := w.extractLsb' 0 4, resDetail := 0, resSw := 0,
        resSwValid := false }
      events := es
      history := s.history ++ [⟨s.ticks, .cmd w⟩, ⟨s.ticks, .done .illegal (w.extractLsb' 0 4) 0 0 false⟩] }

/-! ### Commands: whole runs, with any response latencies -/

/-- R96 with `ff = 0` (BestEffort): all three writes are sent, whatever fails, the phase becomes `CLAIMED`, and the
result says which failed. That `k` and `mask` keep their last values once the command has ended is log 12. -/
def Obligations.ClaimBestEffortRun : Prop :=
  ∀ (s : State) (m : BitVec 16) (v : BitVec 32) (n1 n2 n3 : Nat) (a b c : Bool) (pa pb pc : List Byte)
    (rest : List Event), s.Sound → s.regs.seq = .idle → (s.regs.phase = .idle ∨ s.regs.phase = .released) →
    s.events = .cmd (encode (.claim false m v)) ::
      (quiet n1 ++ .rsp a pa :: (quiet n2 ++ .rsp b pb :: (quiet n3 ++ .rsp c pc :: rest))) →
    ∃ t : State, runFor (n1 + n2 + n3 + 4) s = .next t ∧
      t.cfg = s.cfg ∧ t.events = rest ∧ t.ticks = s.ticks + (n1 + n2 + n3) ∧
      t.regs = { s.regs with
        op := 0x1, ff := false, opMode := m, jogVel := v, k := 3,
        mask := BitVec.ofBool (!c) ++ BitVec.ofBool (!b) ++ BitVec.ofBool (!a), phase := .claimed,
        resCode := if a && b && c then .ok else .transport, resOp := 0x1,
        resDetail := (BitVec.ofBool (!c) ++ BitVec.ofBool (!b) ++ BitVec.ofBool (!a)).setWidth 8,
        resSw := 0, resSwValid := false } ∧
      t.commandWrites =
        [writeTo s.cfg .excl [0x01, 0x00], writeTo s.cfg .opmode [m.extractLsb' 0 8, m.extractLsb' 8 8],
          writeTo s.cfg .jogvel
            [v.extractLsb' 0 8, v.extractLsb' 8 8, v.extractLsb' 16 8, v.extractLsb' 24 8]] ∧
      t.history.getLast? = some ⟨t.ticks, doneObs t.regs⟩

/-- R96 with `ff = 1` (FailFast): the first failed write ends the command, the later writes are not sent, and the phase
keeps its value; without a failure it is as under BestEffort. That `k` and `mask` keep their last values once the command
has ended is log 12. -/
def Obligations.ClaimFailFastRun : Prop :=
  ∀ (s : State) (m : BitVec 16) (v : BitVec 32) (n1 n2 n3 : Nat) (pa pb pc : List Byte) (rest : List Event),
    s.Sound → s.regs.seq = .idle → (s.regs.phase = .idle ∨ s.regs.phase = .released) →
    let regs : Regs := { s.regs with op := 0x1, ff := true, opMode := m, jogVel := v, resOp := 0x1, resSw := 0,
                                     resSwValid := false }
    let writes : List Request :=
      [writeTo s.cfg .excl [0x01, 0x00], writeTo s.cfg .opmode [m.extractLsb' 0 8, m.extractLsb' 8 8],
        writeTo s.cfg .jogvel [v.extractLsb' 0 8, v.extractLsb' 8 8, v.extractLsb' 16 8, v.extractLsb' 24 8]]
    (s.events = .cmd (encode (.claim true m v)) :: (quiet n1 ++ .rsp false pa :: rest) →
      ∃ t : State, runFor (n1 + 2) s = .next t ∧ t.events = rest ∧ t.commandWrites = writes.take 1 ∧
        t.regs = { regs with k := 1, mask := 1, resCode := .transport, resDetail := 1 }) ∧
    (s.events = .cmd (encode (.claim true m v)) :: (quiet n1 ++ .rsp true pa :: (quiet n2 ++ .rsp false pb :: rest)) →
      ∃ t : State, runFor (n1 + n2 + 3) s = .next t ∧ t.events = rest ∧ t.commandWrites = writes.take 2 ∧
        t.regs = { regs with k := 2, mask := 2, resCode := .transport, resDetail := 2 }) ∧
    (s.events = .cmd (encode (.claim true m v)) ::
        (quiet n1 ++ .rsp true pa :: (quiet n2 ++ .rsp true pb :: (quiet n3 ++ .rsp false pc :: rest))) →
      ∃ t : State, runFor (n1 + n2 + n3 + 4) s = .next t ∧ t.events = rest ∧ t.commandWrites = writes ∧
        t.regs = { regs with k := 3, mask := 4, resCode := .transport, resDetail := 4 }) ∧
    (s.events = .cmd (encode (.claim true m v)) ::
        (quiet n1 ++ .rsp true pa :: (quiet n2 ++ .rsp true pb :: (quiet n3 ++ .rsp true pc :: rest))) →
      ∃ t : State, runFor (n1 + n2 + n3 + 4) s = .next t ∧ t.events = rest ∧ t.commandWrites = writes ∧
        t.regs = { regs with k := 3, mask := 0, phase := .claimed, resCode := .ok, resDetail := 0 })

/-- R97: with every write succeeding and the first read of each stage showing its bit, ENABLE sends 0x06, 0x07 and 0x0F
and reaches `OPEN`, however late the responses come (R88). That `k`, `polls` and `el` keep their last values once it has
ended is log 12. A timeout of 0 is in `EnableFailureOutcomes`; a stage of several reads is in `ReadFailureKeepsWaiting` (the
read that does not match), `TickCounts` (the next read) and `EnableFailureOutcomes` (the match). -/
def Obligations.EnableSucceedsRun : Prop :=
  ∀ (s : State) (d : Ticks) (n1 m1 n2 m2 n3 m3 : Nat) (p1 p2 p3 q1 q2 q3 : List Byte) (x1 x2 x3 y1 y2 y3 : Byte)
    (rest : List Event), s.Sound → s.regs.seq = .idle →
    (s.regs.phase = .claimed ∨ s.regs.phase = .rtso ∨ s.regs.phase = .swon) → d ≠ 0 →
    x1.getLsbD 0 = true → x2.getLsbD 1 = true → x3.getLsbD 2 = true →
    s.events = .cmd (encode (.enable d)) ::
      (quiet n1 ++ .rsp true p1 :: (quiet m1 ++ .rsp true (x1 :: y1 :: q1) ::
        (quiet n2 ++ .rsp true p2 :: (quiet m2 ++ .rsp true (x2 :: y2 :: q2) ::
          (quiet n3 ++ .rsp true p3 :: (quiet m3 ++ .rsp true (x3 :: y3 :: q3) :: rest)))))) →
    ∃ t : State, runFor (n1 + m1 + n2 + m2 + n3 + m3 + 7) s = .next t ∧
      t.cfg = s.cfg ∧ t.events = rest ∧ t.ticks = s.ticks + (n1 + m1 + n2 + m2 + n3 + m3) ∧
      t.regs = { s.regs with
        op := 0x2, timeout := d, phase := .opEnabled, k := 3, wBit := 2, wTarget := true, polls := 1,
        el := BitVec.ofNat 32 (min m3 (2 ^ 32 - 1)), lastSw := y3 ++ x3, lastSwValid := true,
        resCode := .ok, resOp := 0x2, resDetail := 0, resSw := y3 ++ x3, resSwValid := true } ∧
      t.commandWrites =
        [writeTo s.cfg .cw [0x06, 0x00], writeTo s.cfg .cw [0x07, 0x00], writeTo s.cfg .cw [0x0F, 0x00]]

/-- R97, R98: what ends stage `k` of ENABLE, and what leads on to the next. A read that does not match is in
`ReadFailureKeepsWaiting`, and the end of a sleep before the deadline in `TickCounts`. A failed control-word write ends ENABLE with
`TRANSPORT`, a 1-byte payload with `ENCODING`, and the deadline with `TIMEOUT`: at the end of a sleep, or with a timeout of
0 at the response to the write, without a read (R92). The detail is `k`, the phase is the one stage `k` started from, and
the last status word is reported. Otherwise a successful write starts the stage's wait and sends its first read, and a
status word with the stage's bit set sends the next control word, or after stage 3 ends ENABLE with `OK`. That a tick's
entry carries its own number is the model's choice (log 9); that `k`, `polls` and `el` keep their last values once ENABLE
has ended is log 12. -/
def Obligations.EnableFailureOutcomes : Prop :=
  ∀ (s : State) (es : List Event), s.Sound → s.regs.op = 0x2 →
    let ended (code : ResCode) (detail : BitVec 8) (h : List Entry) (r : Regs) : State :=
      { cfg := s.cfg, events := es
        ticks := s.ticks + h.countP (fun e => e.obs == .tick)
        history := s.history ++ h ++
          [⟨s.ticks + h.countP (fun e => e.obs == .tick), .done code 0x2 detail r.lastSw r.lastSwValid⟩]
        regs := { r with
          reqOut := false, seq := .idle, wActive := false, dly := 0, resCode := code, resOp := 0x2,
          resDetail := detail, resSw := r.lastSw, resSwValid := r.lastSwValid } }
    let failed (code : ResCode) (h : List Entry) (r : Regs) : State := ended code (s.regs.k.setWidth 8) h r
    let stageStart : Regs :=
      { s.regs with wBit := (s.regs.k - 1).setWidth 4, wTarget := true, el := 0, polls := 0, lastSwValid := false }
    (∀ p, s.regs.seq = .enCw → s.events = .rsp false p :: es →
      step s = .next (failed .transport [⟨s.ticks, .rsp false p⟩] s.regs)) ∧
    (∀ p, s.regs.seq = .enCw → s.regs.timeout = 0 → s.events = .rsp true p :: es →
      step s = .next (failed .timeout [⟨s.ticks, .rsp true p⟩] stageStart)) ∧
    (∀ p, s.regs.seq = .enCw → s.regs.timeout ≠ 0 → s.events = .rsp true p :: es →
      step s = .next { s with
        regs := { stageStart with wActive := true, polls := 1, reqOut := true, seq := .waitRd }
        events := es
        history := s.history ++ [⟨s.ticks, .rsp true p⟩, ⟨s.ticks, .req (readStatus s.cfg)⟩] }) ∧
    (∀ x, s.regs.seq = .waitRd → s.events = .rsp true [x] :: es →
      step s = .next (failed .encoding [⟨s.ticks, .rsp true [x]⟩] s.regs)) ∧
    (s.regs.seq = .waitSlp → s.regs.dly = 1 → s.regs.timeout.toNat ≤ s.regs.el.toNat + 1 →
      s.events = .tick :: es →
      step s = .next (failed .timeout [⟨s.ticks + 1, .tick⟩]
        { s.regs with el := if s.regs.el.toNat < 2 ^ 32 - 1 then s.regs.el + 1 else s.regs.el })) ∧
    (∀ x y q, s.regs.seq = .waitRd → s.regs.k ≠ 3 → (y ++ x).getLsbD (s.regs.k.toNat - 1) = true →
      s.events = .rsp true (x :: y :: q) :: es →
      step s = .next { s with
        regs := { s.regs with
          lastSw := y ++ x, lastSwValid := true, wActive := false, phase := phaseBefore (s.regs.k + 1),
          k := s.regs.k + 1, reqOut := true, seq := .enCw }
        events := es
        history := s.history ++
          [⟨s.ticks, .rsp true (x :: y :: q)⟩,
            ⟨s.ticks, .req (writeTo s.cfg .cw (if s.regs.k = 1 then [0x07, 0x00] else [0x0F, 0x00]))⟩] }) ∧
    (∀ x y q, s.regs.seq = .waitRd → s.regs.k = 3 → (y ++ x).getLsbD 2 = true →
      s.events = .rsp true (x :: y :: q) :: es →
      step s = .next (ended .ok 0 [⟨s.ticks, .rsp true (x :: y :: q)⟩]
        { s.regs with lastSw := y ++ x, lastSwValid := true, phase := .opEnabled })) ∧
    (s.regs.seq = .enCw ∨ s.regs.seq = .waitRd ∨ s.regs.seq = .waitSlp → s.regs.phase = phaseBefore s.regs.k)

/-- R102: DISABLE sends all three writes in order, whatever fails, the alarm follows the first, the phase becomes
`RELEASED`, and the result says which failed. That `k` and `mask` keep their last values once it has ended is log 12. -/
def Obligations.DisableRun : Prop :=
  ∀ (s : State) (n1 n2 n3 : Nat) (a b c : Bool) (pa pb pc : List Byte) (rest : List Event),
    s.Sound → s.regs.seq = .idle →
    s.events = .cmd (encode .disable) ::
      (quiet n1 ++ .rsp a pa :: (quiet n2 ++ .rsp b pb :: (quiet n3 ++ .rsp c pc :: rest))) →
    ∃ t : State, runFor (n1 + n2 + n3 + 4) s = .next t ∧
      t.cfg = s.cfg ∧ t.events = rest ∧ t.ticks = s.ticks + (n1 + n2 + n3) ∧
      t.regs = { s.regs with
        op := 0x3, k := 3, mask := BitVec.ofBool (!c) ++ BitVec.ofBool (!b) ++ BitVec.ofBool (!a),
        stopFail := !a, phase := .released, resCode := if a && b && c then .ok else .transport, resOp := 0x3,
        resDetail := (BitVec.ofBool (!c) ++ BitVec.ofBool (!b) ++ BitVec.ofBool (!a)).setWidth 8,
        resSw := 0, resSwValid := false } ∧
      t.commandWrites =
        [writeTo s.cfg .jog [0x00, 0x00], writeTo s.cfg .cw [0x00, 0x00], writeTo s.cfg .excl [0x00, 0x00]] ∧
      t.history.getLast? = some ⟨t.ticks, doneObs t.regs⟩

/-- R106, R108, R109: TRIG with any number of failed attempts below `max_att`, each with any latency, then an attempt
that succeeds or is the last: the attempts are that many equal writes, each later one sent `RETRY_DELAY_TICKS` ticks after
the response to the one before it.

The second part says what the response to an attempt does in every sound state. A success ends TRIG with `OK`, a failure
of the last attempt with `TRANSPORT`; a failure before it starts a sleep of `RETRY_DELAY_TICKS`, or with a delay of 0 sends
the next attempt at once. That `att` keeps its last value once TRIG has ended is log 12. -/
def Obligations.TrigRun : Prop :=
  (∀ (s : State) (v : BitVec 16) (n : BitVec 8) (fs : List (Nat × List Byte)) (lat : Nat) (ok : Bool) (p : List Byte)
    (rest : List Event), s.Sound → s.regs.seq = .idle → s.regs.phase = .opEnabled → v ≠ 0 →
    fs.length < n.toNat → (ok = true ∨ fs.length + 1 = n.toNat) →
    s.events = .cmd (encode (.trig v n)) ::
      (failedAttempts s.cfg.retryDelayTicks.toNat fs ++ (quiet lat ++ .rsp ok p :: rest)) →
    ∃ t : State, runFor ((failedAttempts s.cfg.retryDelayTicks.toNat fs).length + lat + 2) s = .next t ∧
      t.cfg = s.cfg ∧ t.events = rest ∧
      t.ticks = s.ticks + ((fs.map Prod.fst).sum + fs.length * s.cfg.retryDelayTicks.toNat + lat) ∧
      t.regs = { s.regs with
        op := 0x4, jogValue := v, maxAtt := n, att := BitVec.ofNat 8 (fs.length + 1),
        resCode := if ok then .ok else .transport, resOp := 0x4, resDetail := BitVec.ofNat 8 (fs.length + 1),
        resSw := 0, resSwValid := false } ∧
      t.commandWrites =
        List.replicate (fs.length + 1) (writeTo s.cfg .jog [v.extractLsb' 0 8, v.extractLsb' 8 8]) ∧
      requestTicks (t.history.drop s.history.length) =
        attemptTicks s.cfg.retryDelayTicks.toNat s.ticks fs) ∧
  (∀ (s : State) (es : List Event), s.Sound → s.regs.seq = .trigWr →
    let ended (ok : Bool) (p : List Byte) : State :=
      { s with
        regs := { s.regs with
          reqOut := false, seq := .idle, resCode := if ok then .ok else .transport, resOp := 0x4,
          resDetail := s.regs.att, resSw := 0, resSwValid := false }
        events := es
        history := s.history ++ [⟨s.ticks, .rsp ok p⟩,
          ⟨s.ticks, .done (if ok then .ok else .transport) 0x4 s.regs.att 0 false⟩] }
    (∀ p, s.events = .rsp true p :: es → step s = .next (ended true p)) ∧
    (∀ p, s.events = .rsp false p :: es → s.regs.att = s.regs.maxAtt → step s = .next (ended false p)) ∧
    (∀ p, s.events = .rsp false p :: es → s.regs.att ≠ s.regs.maxAtt → s.cfg.retryDelayTicks ≠ 0 →
      step s = .next { s with
        regs := { s.regs with reqOut := false, dly := s.cfg.retryDelayTicks, seq := .trigSlp }
        events := es
        history := s.history ++ [⟨s.ticks, .rsp false p⟩] }) ∧
    (∀ p, s.events = .rsp false p :: es → s.regs.att ≠ s.regs.maxAtt → s.cfg.retryDelayTicks = 0 →
      step s = .next { s with
        regs := { s.regs with att := s.regs.att + 1 }
        events := es
        history := s.history ++ [⟨s.ticks, .rsp false p⟩,
          ⟨s.ticks, .req (writeTo s.cfg .jog
            [s.regs.jogValue.extractLsb' 0 8, s.regs.jogValue.extractLsb' 8 8])⟩] }))

/-- R110: STOP sends one write of 0, never retried, and raises or clears the alarm at its response. -/
def Obligations.StopRun : Prop :=
  ∀ (s : State) (n : Nat) (ok : Bool) (p : List Byte) (rest : List Event), s.Sound → s.regs.seq = .idle →
    s.events = .cmd (encode .stop) :: (quiet n ++ .rsp ok p :: rest) →
    ∃ t : State, runFor (n + 2) s = .next t ∧ t.cfg = s.cfg ∧ t.events = rest ∧ t.ticks = s.ticks + n ∧
      t.regs = { s.regs with
        op := 0x5, stopFail := !ok, resCode := if ok then .ok else .transport, resOp := 0x5, resDetail := 0,
        resSw := 0, resSwValid := false } ∧
      t.commandWrites = [writeTo s.cfg .jog [0x00, 0x00]]

/-- R85: RDSTAT reads the status word once: `OK` with the word of the first two bytes, `TRANSPORT` for a failed read or
an empty payload, `ENCODING` for a 1-byte payload. -/
def Obligations.RdstatRun : Prop :=
  ∀ (s : State) (n : Nat) (ok : Bool) (p : List Byte) (rest : List Event), s.Sound → s.regs.seq = .idle →
    s.events = .cmd (encode .rdstat) :: (quiet n ++ .rsp ok p :: rest) →
    ∃ t : State, runFor (n + 2) s = .next t ∧ t.cfg = s.cfg ∧ t.events = rest ∧ t.ticks = s.ticks + n ∧
      requestsOf (t.history.drop s.history.length) = [readStatus s.cfg] ∧
      (ok = false ∨ p = [] →
        t.regs = { s.regs with
          op := 0x6, lastSwValid := false, resCode := .transport, resOp := 0x6, resDetail := 0,
          resSw := s.regs.lastSw, resSwValid := false }) ∧
      (∀ x, ok = true → p = [x] →
        t.regs = { s.regs with
          op := 0x6, lastSwValid := false, resCode := .encoding, resOp := 0x6, resDetail := 0,
          resSw := s.regs.lastSw, resSwValid := false }) ∧
      (∀ x y q, ok = true → p = x :: y :: q →
        t.regs = { s.regs with
          op := 0x6, lastSw := y ++ x, lastSwValid := true, resCode := .ok, resOp := 0x6, resDetail := 0,
          resSw := y ++ x, resSwValid := true })

/-- R88, R93, R94: a first read that shows the bit ends WAITB with `OK` after one read and no delay of its own, even when
its response comes after the deadline. That `el` and `polls` keep their last values once it has ended is log 12. -/
def Obligations.WaitbFirstReadMatches : Prop :=
  ∀ (s : State) (b : BitVec 4) (v : Bool) (d : Ticks) (n : Nat) (x y : Byte) (q : List Byte) (rest : List Event),
    s.Sound → s.regs.seq = .idle → d ≠ 0 → (y ++ x).getLsbD b.toNat = v →
    s.events = .cmd (encode (.waitb b v d)) :: (quiet n ++ .rsp true (x :: y :: q) :: rest) →
    ∃ t : State, runFor (n + 2) s = .next t ∧ t.cfg = s.cfg ∧ t.events = rest ∧ t.ticks = s.ticks + n ∧
      t.regs = { s.regs with
        op := 0x7, wBit := b, wTarget := v, timeout := d, el := BitVec.ofNat 32 (min n (2 ^ 32 - 1)), polls := 1,
        lastSw := y ++ x, lastSwValid := true, resCode := .ok, resOp := 0x7, resDetail := 1, resSw := y ++ x,
        resSwValid := true } ∧
      requestsOf (t.history.drop s.history.length) = [readStatus s.cfg]

/-- R93, R94: WAITB whose reads are answered at once and do not match makes exactly `ceil(timeout / POLL_TICKS)` reads
and finishes with `TIMEOUT` that many poll intervals after its acceptance, with the last status word that those reads
decoded, if any. That `el` and `polls` keep their last values once it has ended is log 12. -/
def Obligations.WaitbTimesOutRun : Prop :=
  ∀ (s : State) (b : BitVec 4) (v : Bool) (d : Ticks) (ms : List (Bool × List Byte)) (rest : List Event),
    s.Sound → s.regs.seq = .idle → (∀ m ∈ ms, misses b v m.1 m.2 = true) →
    ms.length = (d.toNat + s.cfg.pollTicks.toNat - 1) / s.cfg.pollTicks.toNat →
    s.events = .cmd (encode (.waitb b v d)) :: (missedReads s.cfg.pollTicks.toNat ms ++ rest) →
    let noted : Regs := notedReads ms { s.regs with lastSwValid := false }
    ∃ t : State,
      runFor ((missedReads s.cfg.pollTicks.toNat ms).length + 1) s = .next t ∧ t.cfg = s.cfg ∧ t.events = rest ∧
      t.ticks = s.ticks + ms.length * s.cfg.pollTicks.toNat ∧
      t.regs = { s.regs with
        op := 0x7, wBit := b, wTarget := v, timeout := d,
        el := BitVec.ofNat 32 (min (ms.length * s.cfg.pollTicks.toNat) (2 ^ 32 - 1)),
        polls := BitVec.ofNat 32 ms.length, lastSw := noted.lastSw, lastSwValid := noted.lastSwValid,
        resCode := .timeout, resOp := 0x7, resDetail := BitVec.ofNat 8 (min ms.length 255), resSw := noted.lastSw,
        resSwValid := noted.lastSwValid } ∧
      requestsOf (t.history.drop s.history.length) = List.replicate ms.length (readStatus s.cfg)

/-- R86, R94: WAITB whose first n reads are answered at once and do not match, while n poll intervals are below the
timeout, and whose next read matches, finishes with `OK` after n+1 reads and n poll intervals.

The second part holds in every sound state, so for every read and every latency (R88): a status word with the bit at its
target finishes WAITB with `OK`, the number of reads so far and that word. That `el` and `polls` keep
their last values once it has ended is log 12. -/
def Obligations.WaitbMatchesLaterRun : Prop :=
  (∀ (s : State) (b : BitVec 4) (v : Bool) (d : Ticks) (ms : List (Bool × List Byte)) (x y : Byte) (q : List Byte)
    (rest : List Event), s.Sound → s.regs.seq = .idle → (∀ m ∈ ms, misses b v m.1 m.2 = true) →
    ms.length * s.cfg.pollTicks.toNat < d.toNat → (y ++ x).getLsbD b.toNat = v →
    s.events = .cmd (encode (.waitb b v d)) ::
      (missedReads s.cfg.pollTicks.toNat ms ++ .rsp true (x :: y :: q) :: rest) →
    ∃ t : State, runFor ((missedReads s.cfg.pollTicks.toNat ms).length + 2) s = .next t ∧ t.cfg = s.cfg ∧
      t.events = rest ∧ t.ticks = s.ticks + ms.length * s.cfg.pollTicks.toNat ∧
      t.regs = { s.regs with
        op := 0x7, wBit := b, wTarget := v, timeout := d,
        el := BitVec.ofNat 32 (ms.length * s.cfg.pollTicks.toNat), polls := BitVec.ofNat 32 (ms.length + 1),
        lastSw := y ++ x, lastSwValid := true, resCode := .ok, resOp := 0x7,
        resDetail := BitVec.ofNat 8 (min (ms.length + 1) 255), resSw := y ++ x, resSwValid := true } ∧
      requestsOf (t.history.drop s.history.length) = List.replicate (ms.length + 1) (readStatus s.cfg)) ∧
  (∀ (s : State) (x y : Byte) (q : List Byte) (es : List Event), s.Sound → s.regs.seq = .waitRd → s.regs.op = 0x7 →
    (y ++ x).getLsbD s.regs.wBit.toNat = s.regs.wTarget → s.events = .rsp true (x :: y :: q) :: es →
    step s = .next { s with
      regs := { s.regs with
        reqOut := false, wActive := false, seq := .idle, lastSw := y ++ x, lastSwValid := true, resCode := .ok,
        resOp := 0x7, resDetail := BitVec.ofNat 8 (min s.regs.polls.toNat 255), resSw := y ++ x, resSwValid := true }
      events := es
      history := s.history ++ [⟨s.ticks, .rsp true (x :: y :: q)⟩,
        ⟨s.ticks, .done .ok 0x7 (BitVec.ofNat 8 (min s.regs.polls.toNat 255)) (y ++ x) true⟩] })

/-- R89, R90: a read that does not match does not end a wait, of WAITB or of ENABLE: it sleeps `POLL_TICKS`. A failed read
or an empty payload leaves the status word as it was; a status word whose bit is not the target is noted (R84). -/
def Obligations.ReadFailureKeepsWaiting : Prop :=
  ∀ (s : State) (es : List Event), s.Sound → s.regs.seq = .waitRd →
    (∀ ok p, ok = false ∨ p = [] → s.events = .rsp ok p :: es →
      step s = .next { s with
        regs := { s.regs with reqOut := false, dly := s.cfg.pollTicks, seq := .waitSlp }
        events := es
        history := s.history ++ [⟨s.ticks, .rsp ok p⟩] }) ∧
    (∀ x y q, (y ++ x).getLsbD s.regs.wBit.toNat ≠ s.regs.wTarget → s.events = .rsp true (x :: y :: q) :: es →
      step s = .next { s with
        regs := { s.regs with
          reqOut := false, lastSw := y ++ x, lastSwValid := true, dly := s.cfg.pollTicks, seq := .waitSlp }
        events := es
        history := s.history ++ [⟨s.ticks, .rsp true (x :: y :: q)⟩] })

/-- R91: a 1-byte payload ends the wait of WAITB at once with `ENCODING`, without a further read. That `el` and `polls`
keep their last values is log 12. -/
def Obligations.OneBytePayloadEndsWaitb : Prop :=
  ∀ (s : State) (x : Byte) (es : List Event), s.Sound → s.regs.seq = .waitRd → s.regs.op = 0x7 →
    s.events = .rsp true [x] :: es →
    step s = .next { s with
      regs := { s.regs with
        reqOut := false, wActive := false, seq := .idle, resCode := .encoding, resOp := 0x7,
        resDetail := BitVec.ofNat 8 (min s.regs.polls.toNat 255), resSw := s.regs.lastSw,
        resSwValid := s.regs.lastSwValid }
      events := es
      history := s.history ++ [⟨s.ticks, .rsp true [x]⟩,
        ⟨s.ticks, .done .encoding 0x7 (BitVec.ofNat 8 (min s.regs.polls.toNat 255)) s.regs.lastSw
          s.regs.lastSwValid⟩] }

/-- R122: at the deadline's boundary the order of a response and a tick decides whether WAITB reads once more. Taken
before the tick, a response that does not match still leaves time for a read; taken after it, it does not. That `polls`
keeps its last value after the `TIMEOUT` is log 12. -/
def Obligations.ResponseAndTickOrder : Prop :=
  ∀ (s : State) (ok : Bool) (p : List Byte) (rest : List Event), s.Sound → s.regs.seq = .waitRd → s.regs.op = 0x7 →
    misses s.regs.wBit s.regs.wTarget ok p = true →
    s.regs.el.toNat + s.cfg.pollTicks.toNat + 1 = s.regs.timeout.toNat →
    (s.events = .rsp ok p :: .tick :: (quiet s.cfg.pollTicks.toNat ++ rest) →
      ∃ t : State, runFor (s.cfg.pollTicks.toNat + 2) s = .next t ∧ t.events = rest ∧ t.regs.seq = .waitRd ∧
        t.regs.polls.toNat = s.regs.polls.toNat + 1) ∧
    (s.events = .tick :: .rsp ok p :: (quiet s.cfg.pollTicks.toNat ++ rest) →
      ∃ t : State, runFor (s.cfg.pollTicks.toNat + 2) s = .next t ∧ t.events = rest ∧ t.regs.seq = .idle ∧
        t.regs.resCode = .timeout ∧ t.regs.polls = s.regs.polls)

/-! ### The host port -/

/-- R22, R20, R15, R112: `busy`, `cmd_ready`, the alarm, and on the host port each number of `phase` and of `res_code`
exactly for its value. That the reserved numbers cannot be held is the model's choice of types (log 14). -/
def Obligations.HostPortReads : Prop :=
  ∀ s : State,
    (s.hostPort.busy = true ↔ s.regs.seq ≠ .idle) ∧ s.hostPort.cmdReady = !s.hostPort.busy ∧
    s.hostPort.alarmStopFail = s.regs.stopFail ∧
    s.hostPort.phase.toNat ≤ 5 ∧
    (s.hostPort.resCode.toNat ≤ 6 ∨ s.hostPort.resCode = 0xF) ∧
    (s.regs.resCode = .ok ↔ s.hostPort.resCode = 0) ∧ (s.regs.resCode = .timeout ↔ s.hostPort.resCode = 1) ∧
    (s.regs.resCode = .transport ↔ s.hostPort.resCode = 2) ∧ (s.regs.resCode = .encoding ↔ s.hostPort.resCode = 3) ∧
    (s.regs.resCode = .phase ↔ s.hostPort.resCode = 4) ∧ (s.regs.resCode = .illegal ↔ s.hostPort.resCode = 5) ∧
    (s.regs.resCode = .arg ↔ s.hostPort.resCode = 6) ∧ (s.regs.resCode = .none ↔ s.hostPort.resCode = 0xF) ∧
    (s.regs.phase = .idle ↔ s.hostPort.phase = 0) ∧ (s.regs.phase = .claimed ↔ s.hostPort.phase = 1) ∧
    (s.regs.phase = .rtso ↔ s.hostPort.phase = 2) ∧ (s.regs.phase = .swon ↔ s.hostPort.phase = 3) ∧
    (s.regs.phase = .opEnabled ↔ s.hostPort.phase = 4) ∧ (s.regs.phase = .released ↔ s.hostPort.phase = 5)
end

