-- ==== Sys2Proof/Laws/State.lean ====
section
/-! SUPPORT. One lemma per field for each update of the state that has a name: `record`, `upd`, `send`, `countTick`, `finishRegs`, `latch`. -/

namespace Sys2Proof.Machine

@[simp] theorem record_cfg (o : Obs) (s : State) : (s.record o).cfg = s.cfg := rfl
@[simp] theorem record_regs (o : Obs) (s : State) : (s.record o).regs = s.regs := rfl
@[simp] theorem record_ticks (o : Obs) (s : State) : (s.record o).ticks = s.ticks := rfl
@[simp] theorem record_events (o : Obs) (s : State) : (s.record o).events = s.events := rfl
@[simp] theorem record_history (o : Obs) (s : State) : (s.record o).history = s.history ++ [⟨s.ticks, o⟩] := rfl

@[simp] theorem upd_cfg (s : State) (f : Regs → Regs) : (s.upd f).cfg = s.cfg := rfl
@[simp] theorem upd_regs (s : State) (f : Regs → Regs) : (s.upd f).regs = f s.regs := rfl
@[simp] theorem upd_ticks (s : State) (f : Regs → Regs) : (s.upd f).ticks = s.ticks := rfl
@[simp] theorem upd_history (s : State) (f : Regs → Regs) : (s.upd f).history = s.history := rfl
@[simp] theorem upd_events (s : State) (f : Regs → Regs) : (s.upd f).events = s.events := rfl

@[simp] theorem send_cfg (q : Seq) (r : Request) (s : State) : (send q r s).cfg = s.cfg := rfl
@[simp] theorem send_regs (q : Seq) (r : Request) (s : State) :
    (send q r s).regs = { s.regs with reqOut := true, seq := q } := rfl
@[simp] theorem send_ticks (q : Seq) (r : Request) (s : State) : (send q r s).ticks = s.ticks := rfl
@[simp] theorem send_events (q : Seq) (r : Request) (s : State) : (send q r s).events = s.events := rfl
@[simp] theorem send_history (q : Seq) (r : Request) (s : State) :
    (send q r s).history = s.history ++ [⟨s.ticks, .req r⟩] := rfl

@[simp] theorem countTick_cfg (s : State) : (countTick s).cfg = s.cfg := rfl
@[simp] theorem countTick_regs (s : State) : (countTick s).regs = elapse s.regs := rfl
@[simp] theorem countTick_ticks (s : State) : (countTick s).ticks = s.ticks + 1 := rfl
@[simp] theorem countTick_history (s : State) : (countTick s).history = s.history ++ [⟨s.ticks + 1, .tick⟩] := rfl
@[simp] theorem countTick_events (s : State) : (countTick s).events = s.events := rfl

@[simp] theorem elapse_seq (r : Regs) : (elapse r).seq = r.seq := by unfold elapse; split <;> rfl
@[simp] theorem elapse_dly (r : Regs) : (elapse r).dly = r.dly := by unfold elapse; split <;> rfl
@[simp] theorem elapse_op (r : Regs) : (elapse r).op = r.op := by unfold elapse; split <;> rfl
@[simp] theorem elapse_phase (r : Regs) : (elapse r).phase = r.phase := by unfold elapse; split <;> rfl
@[simp] theorem elapse_reqOut (r : Regs) : (elapse r).reqOut = r.reqOut := by unfold elapse; split <;> rfl
@[simp] theorem elapse_wActive (r : Regs) : (elapse r).wActive = r.wActive := by unfold elapse; split <;> rfl
@[simp] theorem elapse_polls (r : Regs) : (elapse r).polls = r.polls := by unfold elapse; split <;> rfl
@[simp] theorem elapse_timeout (r : Regs) : (elapse r).timeout = r.timeout := by unfold elapse; split <;> rfl
@[simp] theorem elapse_k (r : Regs) : (elapse r).k = r.k := by unfold elapse; split <;> rfl
@[simp] theorem elapse_stopFail (r : Regs) : (elapse r).stopFail = r.stopFail := by unfold elapse; split <;> rfl

@[simp] theorem finishRegs_resCode (c : ResCode) (d : BitVec 8) (r : Regs) : (finishRegs c d r).resCode = c := rfl
@[simp] theorem finishRegs_resOp (c : ResCode) (d : BitVec 8) (r : Regs) : (finishRegs c d r).resOp = r.op := rfl
@[simp] theorem finishRegs_resDetail (c : ResCode) (d : BitVec 8) (r : Regs) : (finishRegs c d r).resDetail = d := rfl
@[simp] theorem finishRegs_seq (c : ResCode) (d : BitVec 8) (r : Regs) : (finishRegs c d r).seq = .idle := rfl
@[simp] theorem finishRegs_wActive (c : ResCode) (d : BitVec 8) (r : Regs) : (finishRegs c d r).wActive = false := rfl
@[simp] theorem finishRegs_dly (c : ResCode) (d : BitVec 8) (r : Regs) : (finishRegs c d r).dly = 0 := rfl
@[simp] theorem finishRegs_reqOut (c : ResCode) (d : BitVec 8) (r : Regs) : (finishRegs c d r).reqOut = r.reqOut := rfl
@[simp] theorem finishRegs_op (c : ResCode) (d : BitVec 8) (r : Regs) : (finishRegs c d r).op = r.op := rfl
@[simp] theorem finishRegs_phase (c : ResCode) (d : BitVec 8) (r : Regs) : (finishRegs c d r).phase = r.phase := rfl
@[simp] theorem finishRegs_k (c : ResCode) (d : BitVec 8) (r : Regs) : (finishRegs c d r).k = r.k := rfl
@[simp] theorem finishRegs_mask (c : ResCode) (d : BitVec 8) (r : Regs) : (finishRegs c d r).mask = r.mask := rfl
@[simp] theorem finishRegs_att (c : ResCode) (d : BitVec 8) (r : Regs) : (finishRegs c d r).att = r.att := rfl
@[simp] theorem finishRegs_el (c : ResCode) (d : BitVec 8) (r : Regs) : (finishRegs c d r).el = r.el := rfl
@[simp] theorem finishRegs_polls (c : ResCode) (d : BitVec 8) (r : Regs) : (finishRegs c d r).polls = r.polls := rfl
@[simp] theorem finishRegs_opMode (c : ResCode) (d : BitVec 8) (r : Regs) : (finishRegs c d r).opMode = r.opMode := rfl
@[simp] theorem finishRegs_jogVel (c : ResCode) (d : BitVec 8) (r : Regs) : (finishRegs c d r).jogVel = r.jogVel := rfl
@[simp] theorem finishRegs_ff (c : ResCode) (d : BitVec 8) (r : Regs) : (finishRegs c d r).ff = r.ff := rfl
@[simp] theorem finishRegs_timeout (c : ResCode) (d : BitVec 8) (r : Regs) : (finishRegs c d r).timeout = r.timeout := rfl
@[simp] theorem finishRegs_jogValue (c : ResCode) (d : BitVec 8) (r : Regs) :
    (finishRegs c d r).jogValue = r.jogValue := rfl
@[simp] theorem finishRegs_maxAtt (c : ResCode) (d : BitVec 8) (r : Regs) : (finishRegs c d r).maxAtt = r.maxAtt := rfl
@[simp] theorem finishRegs_wBit (c : ResCode) (d : BitVec 8) (r : Regs) : (finishRegs c d r).wBit = r.wBit := rfl
@[simp] theorem finishRegs_wTarget (c : ResCode) (d : BitVec 8) (r : Regs) : (finishRegs c d r).wTarget = r.wTarget := rfl
@[simp] theorem finishRegs_lastSw (c : ResCode) (d : BitVec 8) (r : Regs) : (finishRegs c d r).lastSw = r.lastSw := rfl
@[simp] theorem finishRegs_lastSwValid (c : ResCode) (d : BitVec 8) (r : Regs) :
    (finishRegs c d r).lastSwValid = r.lastSwValid := rfl
@[simp] theorem finishRegs_stopFail (c : ResCode) (d : BitVec 8) (r : Regs) :
    (finishRegs c d r).stopFail = r.stopFail := rfl

@[simp] theorem latch_op (i : Instr) (r : Regs) : (latch i r).op = i.opc := by cases i <;> rfl
@[simp] theorem latch_phase (i : Instr) (r : Regs) : (latch i r).phase = r.phase := by cases i <;> rfl
@[simp] theorem latch_seq (i : Instr) (r : Regs) : (latch i r).seq = r.seq := by cases i <;> rfl
@[simp] theorem latch_reqOut (i : Instr) (r : Regs) : (latch i r).reqOut = r.reqOut := by cases i <;> rfl
@[simp] theorem latch_wActive (i : Instr) (r : Regs) : (latch i r).wActive = r.wActive := by cases i <;> rfl
@[simp] theorem latch_dly (i : Instr) (r : Regs) : (latch i r).dly = r.dly := by cases i <;> rfl
@[simp] theorem latch_lastSw (i : Instr) (r : Regs) : (latch i r).lastSw = r.lastSw := by cases i <;> rfl
@[simp] theorem latch_lastSwValid (i : Instr) (r : Regs) : (latch i r).lastSwValid = r.lastSwValid := by cases i <;> rfl
@[simp] theorem latch_stopFail (i : Instr) (r : Regs) : (latch i r).stopFail = r.stopFail := by cases i <;> rfl

end Sys2Proof.Machine
end

