-- ==== Sys2Proof/Laws/Ops.lean ====
section
/-! SUPPORT. What each shared operation can do, said once: a procedure stops at a request, at a sleep or at its end
(R37), whatever it was doing. -/

namespace Sys2Proof.Machine

variable {s t : State}

/-- Where a procedure that runs from `s` stops (R37), with `r` the registers it has by then: a request, a sleep of at
least one tick, or `finish`. -/
inductive StopsAt (s : State) : State → Prop where
  | sent (label : Seq) (q : Request) (r : Regs) (h : label.awaitsResponse = true) :
      StopsAt s (send label q (s.upd fun _ => r))
  | slept (label : Seq) (d : Ticks) (r : Regs) (h : label.sleeps = true) (hd : d ≠ 0) (hr : r.reqOut = s.regs.reqOut) :
      StopsAt s (s.upd fun _ => { r with dly := d, seq := label })
  | finished (code : ResCode) (detail : BitVec 8) (r : Regs) (hr : r.reqOut = s.regs.reqOut) :
      StopsAt s ((s.upd fun _ => finishRegs code detail r).record (doneObs (finishRegs code detail r)))

/-- The registers do not matter to where a procedure may stop, but for `req_out`. -/
theorem StopsAt.of_upd {f : Regs → Regs} (hr : (f s.regs).reqOut = s.regs.reqOut) (h : StopsAt (s.upd f) t) :
    StopsAt s t := by
  cases h with
  | sent label q r' h => exact .sent label q r' h
  | slept label d r' h hd h' => exact .slept label d r' h hd (h'.trans hr)
  | finished code detail r' h' => exact .finished code detail r' (h'.trans hr)

theorem finish_eq (code : ResCode) (detail : BitVec 8) (s : State) :
    finish code detail s =
      .next ((s.upd (finishRegs code detail)).record (doneObs (finishRegs code detail s.regs))) := rfl

theorem finish_stops {code : ResCode} {detail : BitVec 8} (h : finish code detail s = .next t) : StopsAt s t := by
  rw [finish_eq] at h
  cases h
  exact .finished code detail s.regs rfl

theorem memWrite_stops {q : Seq} {reg : DevReg} {v : List Byte} (hq : q.awaitsResponse = true)
    (h : memWrite q reg v s = .next t) : StopsAt s t := by
  cases h
  exact .sent q _ s.regs hq

theorem memRead_stops {q : Seq} {reg : DevReg} (hq : q.awaitsResponse = true)
    (h : memRead q reg s = .next t) : StopsAt s t := by
  cases h
  exact .sent q _ s.regs hq

theorem sleepThen_stops {q : Seq} {d : Ticks} {k : State → Result} (hq : q.sleeps = true)
    (hk : ∀ {u}, k s = .next u → StopsAt s u) (h : sleepThen q d k s = .next t) : StopsAt s t := by
  unfold sleepThen at h
  split at h
  · exact hk h
  · rename_i hd
    cases h
    exact .slept q d s.regs hq hd rfl

theorem enableIssue_stops (h : enableIssue s = .next t) : StopsAt s t := by
  unfold enableIssue at h
  split at h
  · cases h
  · exact memWrite_stops rfl h

theorem enableAfterWait_stops {e : WaitEnd} (h : enableAfterWait e s = .next t) : StopsAt s t := by
  unfold enableAfterWait at h
  split at h
  · cases h
  · split at h
    · exact finish_stops h
    · exact finish_stops h
    · split at h
      · exact .of_upd rfl (finish_stops h)
      · exact .of_upd rfl (enableIssue_stops h)

theorem waitbAfterWait_stops {e : WaitEnd} (h : waitbAfterWait e s = .next t) : StopsAt s t := by
  cases e <;> exact finish_stops h

theorem waitReturn_stops {e : WaitEnd} (h : waitReturn e s = .next t) : StopsAt s t := by
  unfold waitReturn at h
  split at h
  · exact .of_upd rfl (waitbAfterWait_stops h)
  · split at h
    · exact .of_upd rfl (enableAfterWait_stops h)
    · cases h

/-- The head of a wait's loop, said once (R87): the deadline has passed and the wait expires, or it has not and a read is
sent. -/
theorem waitTest_cases (h : waitTest s = .next t) :
    (s.regs.timeout ≤ s.regs.el ∧ waitReturn .expired s = .next t) ∨
      (s.regs.el < s.regs.timeout ∧
        t = send .waitRd ⟨.read, devAddr s.cfg .sw, []⟩
          (s.upd fun r => { r with polls := sat32 (r.polls.toNat + 1) })) := by
  unfold waitTest at h
  split at h
  · rename_i hle
    exact .inl ⟨hle, h⟩
  · rename_i hle
    cases h
    exact .inr ⟨BitVec.not_le.mp hle, rfl⟩

theorem waitTest_stops (h : waitTest s = .next t) : StopsAt s t := by
  unfold waitTest at h
  split at h
  · exact waitReturn_stops h
  · exact .of_upd rfl (memRead_stops rfl h)

theorem waitStart_stops (h : waitStart s = .next t) : StopsAt s t := .of_upd rfl (waitTest_stops h)

@[simp] theorem noteStatus_reqOut (c : ReadClass) (r : Regs) : (noteStatus c r).reqOut = r.reqOut := by
  cases c <;> rfl

theorem waitResume_stops {ok : Bool} {payload : List Byte} (h : waitResume ok payload s = .next t) : StopsAt s t := by
  unfold waitResume at h
  refine .of_upd (noteStatus_reqOut (readClass ok payload) s.regs) ?_
  split at h
  · exact waitReturn_stops h
  · split at h
    · exact waitReturn_stops h
    · exact sleepThen_stops rfl waitTest_stops h
  · exact sleepThen_stops rfl waitTest_stops h

theorem rdstatResume_stops {ok : Bool} {payload : List Byte} (h : rdstatResume ok payload s = .next t) :
    StopsAt s t := by
  unfold rdstatResume at h
  refine .of_upd (noteStatus_reqOut (readClass ok payload) s.regs) ?_
  split at h <;> exact finish_stops h

theorem rdstatStart_stops (h : rdstatStart s = .next t) : StopsAt s t := .of_upd rfl (memRead_stops rfl h)

theorem claimIssue_stops (h : claimIssue s = .next t) : StopsAt s t := by
  unfold claimIssue at h
  split at h
  · cases h
  · exact memWrite_stops rfl h

theorem claimStart_stops (h : claimStart s = .next t) : StopsAt s t := .of_upd rfl (claimIssue_stops h)

theorem claimResume_stops {ok : Bool} (h : claimResume ok s = .next t) : StopsAt s t := by
  unfold claimResume at h
  split at h
  · cases h
  · split at h
    · exact .of_upd rfl (finish_stops h)
    · split at h
      · exact .of_upd rfl (finish_stops h)
      · exact .of_upd rfl (claimIssue_stops h)

theorem enableStart_stops (h : enableStart s = .next t) : StopsAt s t := .of_upd rfl (enableIssue_stops h)

theorem enableResume_stops {ok : Bool} (h : enableResume ok s = .next t) : StopsAt s t := by
  unfold enableResume at h
  split at h
  · cases h
  · split at h
    · exact .of_upd rfl (waitStart_stops h)
    · exact finish_stops h

theorem disableIssue_stops (h : disableIssue s = .next t) : StopsAt s t := by
  unfold disableIssue at h
  split at h
  · cases h
  · exact memWrite_stops rfl h

theorem disableStart_stops (h : disableStart s = .next t) : StopsAt s t := .of_upd rfl (disableIssue_stops h)

theorem disableResume_stops {ok : Bool} (h : disableResume ok s = .next t) : StopsAt s t := by
  unfold disableResume at h
  split at h
  · cases h
  · split at h
    · exact .of_upd rfl (finish_stops h)
    · exact .of_upd rfl (disableIssue_stops h)

theorem trigAttempt_stops (h : trigAttempt s = .next t) : StopsAt s t := .of_upd rfl (memWrite_stops rfl h)

theorem trigStart_stops (h : trigStart s = .next t) : StopsAt s t := by
  unfold trigStart at h
  split at h
  · exact finish_stops h
  · split at h
    · exact finish_stops h
    · exact .of_upd rfl (trigAttempt_stops h)

theorem trigResume_stops {ok : Bool} (h : trigResume ok s = .next t) : StopsAt s t := by
  unfold trigResume at h
  split at h
  · exact finish_stops h
  · split at h
    · exact finish_stops h
    · exact sleepThen_stops rfl trigAttempt_stops h

theorem stopStart_stops (h : stopStart s = .next t) : StopsAt s t := memWrite_stops rfl h

theorem stopResume_stops {ok : Bool} (h : stopResume ok s = .next t) : StopsAt s t := .of_upd rfl (finish_stops h)

/-- A resumed command stops at a request, a sleep or its end (R37, R39). -/
theorem resume_stops {ok : Bool} {payload : List Byte} (h : resume ok payload s = .next t) : StopsAt s t := by
  unfold resume at h
  split at h
  · exact claimResume_stops h
  · exact enableResume_stops h
  · exact waitResume_stops h
  · exact disableResume_stops h
  · exact trigResume_stops h
  · exact stopResume_stops h
  · exact rdstatResume_stops h
  · cases h
  · cases h
  · cases h

/-- The acceptance of a command (R38): not accepted while busy; else the word is recorded and latched, and the command
stops at a request, a sleep or its end. -/
theorem accept_stops {i : Instr} {proc : State → Result} (hp : ∀ {u v}, proc u = .next v → StopsAt u v)
    (h : accept i proc s = .next t) :
    (s.busy = true ∧ t = s) ∨
      (s.busy = false ∧ StopsAt ((s.record (.cmd (encode i))).upd (latch i)) t) := by
  unfold accept at h
  split at h
  · rename_i hb
    cases h
    exact .inl ⟨hb, rfl⟩
  · rename_i hb
    refine .inr ⟨by simpa using hb, ?_⟩
    dsimp only at h
    split at h
    · exact hp h
    · exact finish_stops h

/-- The effect of presenting a legal command, said once for all commands (R37, R38). -/
theorem exec_stops {i : Instr} (h : exec i s = .next t) :
    (s.busy = true ∧ t = s) ∨
      (s.busy = false ∧ StopsAt ((s.record (.cmd (encode i))).upd (latch i)) t) := by
  cases i with
  | claim ff m v => exact accept_stops claimStart_stops h
  | enable d => exact accept_stops enableStart_stops h
  | disable => exact accept_stops disableStart_stops h
  | trig v n => exact accept_stops trigStart_stops h
  | stop => exact accept_stops stopStart_stops h
  | rdstat => exact accept_stops rdstatStart_stops h
  | waitb b v d => exact accept_stops waitStart_stops h

/-- The effect of presenting an illegal word (R116). -/
theorem acceptIllegal_stops {w : CmdWord} (h : acceptIllegal w s = .next t) :
    (s.busy = true ∧ t = s) ∨
      (s.busy = false ∧
        t = ((s.record (.cmd w)).upd fun r => finishRegs .illegal 0 { r with op := fieldOpc w }).record
          (doneObs (finishRegs .illegal 0 { s.regs with op := fieldOpc w }))) := by
  unfold acceptIllegal at h
  split at h
  · rename_i hb
    cases h
    exact .inl ⟨hb, rfl⟩
  · rename_i hb
    rw [finish_eq] at h
    cases h
    exact .inr ⟨by simpa using hb, rfl⟩

/-- What a response can do (R39). -/
theorem onResponse_stops {ok : Bool} {payload : List Byte} (h : onResponse ok payload s = .next t) :
    (s.regs.reqOut = false ∧ t = s.record (.rsp ok payload)) ∨
      (s.regs.reqOut = true ∧
        StopsAt ((s.record (.rsp ok payload)).upd fun r => { r with reqOut := false }) t) := by
  unfold onResponse at h
  split at h
  · rename_i hr
    exact .inr ⟨hr, resume_stops h⟩
  · rename_i hr
    cases h
    exact .inl ⟨by simpa using hr, rfl⟩

theorem countDelay_cases {k : State → Result} (h : countDelay k s = .next t) :
    s.regs.dly ≠ 0 ∧
      ((s.regs.dly = 1 ∧ k (s.upd fun r => { r with dly := 0 }) = .next t) ∨
        (s.regs.dly ≠ 1 ∧ t = s.upd fun r => { r with dly := r.dly - 1 })) := by
  unfold countDelay at h
  split at h
  · cases h
  · rename_i hd
    refine ⟨hd, ?_⟩
    dsimp only at h
    split at h
    · rename_i h1
      have h1' : s.regs.dly = 1 := sub_eq_zero.mp h1
      have hf : (s.upd fun r => { r with dly := r.dly - 1 }) = s.upd fun r => { r with dly := 0 } := by
        simp [State.upd, h1']
      exact .inl ⟨h1', hf ▸ h⟩
    · rename_i h1
      cases h
      exact .inr ⟨fun h1' => h1 (sub_eq_zero.mpr h1'), rfl⟩

/-- What a tick can do (R40): outside a sleep it only counts; in a sleep it counts the delay down, and at 0 the
command goes on. -/
theorem onTick_cases (h : onTick s = .next t) :
    (s.regs.seq.sleeps = false ∧ t = countTick s) ∨
      (s.regs.seq = .waitSlp ∧ countDelay waitTest (countTick s) = .next t) ∨
      (s.regs.seq = .trigSlp ∧ countDelay trigAttempt (countTick s) = .next t) := by
  unfold onTick at h
  split at h <;> rename_i hq
  · exact .inr (.inl ⟨hq, h⟩)
  · exact .inr (.inr ⟨hq, h⟩)
  all_goals cases h; exact .inl ⟨by rw [hq]; rfl, rfl⟩

/-- What a reset does (R130). -/
theorem onReset_eq (s : State) : onReset s = .next ((s.record .reset).upd fun _ => Regs.reset) := rfl

end Sys2Proof.Machine
end

