-- ==== Sys2Proof/Laws/PerInstr.lean ====
section
/-! SUPPORT. The per-instruction family: the fields of an encoded command (R61, R64). -/

namespace Sys2Proof

/-- The fields of a word put together from its parts (R61). -/
theorem fields_of_parts (w : BitVec 32) (h : BitVec 16) (b : BitVec 8) (o : BitVec 4) :
    fieldOpc (w ++ h ++ b ++ 0#4 ++ o) = o ∧ (w ++ h ++ b ++ 0#4 ++ o).extractLsb' 4 4 = 0 ∧
      fieldB (w ++ h ++ b ++ 0#4 ++ o) = b ∧ fieldH (w ++ h ++ b ++ 0#4 ++ o) = h ∧
      fieldW (w ++ h ++ b ++ 0#4 ++ o) = w := by
  refine ⟨?_, ?_, ?_, ?_, ?_⟩ <;>
    (apply BitVec.eq_of_getLsbD_eq
     intro i hi
     simp only [fieldOpc, fieldB, fieldH, fieldW, BitVec.getLsbD_extractLsb', BitVec.getLsbD_append]
     have := hi
     simp [hi, show ¬ (4 + i < 4) by omega] <;> grind)

namespace Laws.EncodedFields

/-- R61, R64: the word of a command holds its opcode, zero in `Z`, and its operands in `B`, `H` and `W`. -/
def Statement (i : Instr) : Prop :=
  fieldOpc (encode i) = i.opc ∧ (encode i).extractLsb' 4 4 = 0 ∧ fieldB (encode i) = i.byteField ∧
    fieldH (encode i) = i.halfField ∧ fieldW (encode i) = i.wordField

theorem claim (ff : Bool) (m : BitVec 16) (v : BitVec 32) : Statement (.claim ff m v) := fields_of_parts _ _ _ _
theorem enable (t : Ticks) : Statement (.enable t) := fields_of_parts _ _ _ _
theorem disable : Statement .disable := fields_of_parts _ _ _ _
theorem trig (v : BitVec 16) (n : BitVec 8) : Statement (.trig v n) := fields_of_parts _ _ _ _
theorem stop : Statement .stop := fields_of_parts _ _ _ _
theorem rdstat : Statement .rdstat := fields_of_parts _ _ _ _
theorem waitb (b : BitVec 4) (v : Bool) (t : Ticks) : Statement (.waitb b v t) := fields_of_parts _ _ _ _

end Laws.EncodedFields

end Sys2Proof
end

