-- ==== Sys2Proof/Laws/Step.lean ====
section
/-! SUPPORT. What a step can do, said once (R35). -/

namespace Sys2Proof.Machine

variable {s t : State}

/-- While the block is idle the next event is the first of the list. -/
theorem nextEvent_idle (e : Event) (es : List Event) : nextEvent false (e :: es) = some (e, es) := by
  cases e <;> simp [nextEvent]

/-- While the block is busy the next event is no command (R38). -/
theorem nextEvent_busy {w : CmdWord} {es rest : List Event} : nextEvent true es ≠ some (.cmd w, rest) := by
  induction es generalizing rest with
  | nil => simp [nextEvent]
  | cons e es ih =>
    cases e with
    | cmd v =>
      simp only [nextEvent, if_true]
      intro h
      cases hn : nextEvent true es with
      | none => simp [hn] at h
      | some p =>
        obtain ⟨e, r⟩ := p
        simp only [hn, Option.map_some, Option.some.injEq, Prod.mk.injEq] at h
        obtain ⟨rfl, -⟩ := h
        exact ih hn
    | rsp ok payload => simp [nextEvent]
    | tick => simp [nextEvent]
    | reset => simp [nextEvent]

/-- Everything a step can do when it answers a next state. -/
theorem step_cases (h : step s = .next t) :
    s.cfg.wellFormed = true ∧
      ((nextEvent s.busy s.events = none ∧ t = s) ∨
        (∃ w es, nextEvent s.busy s.events = some (.cmd w, es) ∧ onCommand w { s with events := es } = .next t) ∨
        (∃ ok p es, nextEvent s.busy s.events = some (.rsp ok p, es) ∧
          onResponse ok p { s with events := es } = .next t) ∨
        (∃ es, nextEvent s.busy s.events = some (.tick, es) ∧ onTick { s with events := es } = .next t) ∨
        (∃ es, nextEvent s.busy s.events = some (.reset, es) ∧ onReset { s with events := es } = .next t)) := by
  unfold step at h
  split at h
  · rename_i hw
    refine ⟨hw, ?_⟩
    split at h
    · rename_i hn
      cases h
      exact .inl ⟨hn, rfl⟩
    · rename_i w es hn
      exact .inr (.inl ⟨w, es, hn, h⟩)
    · rename_i ok p es hn
      exact .inr (.inr (.inl ⟨ok, p, es, hn, h⟩))
    · rename_i es hn
      exact .inr (.inr (.inr (.inl ⟨es, hn, h⟩)))
    · rename_i es hn
      exact .inr (.inr (.inr (.inr ⟨es, hn, h⟩)))
  · cases h

end Sys2Proof.Machine
end

