-- ==== Sys2Proof/Laws/Run.lean ====
section
/-! SUPPORT. Runs of several steps: how they compose, what one step does with the event at the head of the list, and
what ticks with no other event between them do. -/

namespace Sys2Proof.Machine

variable {s t u : State}

theorem sat32_toNat (n : Nat) : (sat32 n).toNat = min n (2 ^ 32 - 1) := by
  simp [sat32]

theorem sat8_toNat (n : Nat) : (sat8 n).toNat = min n 255 := by
  simp [sat8]

/-- Saturating sums compose. -/
theorem sat32_add (a b : Nat) : sat32 ((sat32 a).toNat + b) = sat32 (a + b) := by
  apply BitVec.eq_of_toNat_eq
  simp only [sat32_toNat]
  omega

@[simp] theorem sat32_of_toNat (v : BitVec 32) : sat32 v.toNat = v := by
  apply BitVec.eq_of_toNat_eq
  have := v.isLt
  rw [sat32_toNat]
  omega

@[simp] theorem runFor_zero (s : State) : runFor 0 s = .next s := rfl

theorem runFor_succ (k : Nat) (h : step s = .next t) : runFor (k + 1) s = runFor k t := by
  have h' : Sys2Proof.core.step s = .next t := h
  simp only [runFor, Host.Core.run, h']
  rfl

/-- A run followed by a run. -/
theorem runFor_add {j k : Nat} (h : runFor j s = .next t) : runFor (j + k) s = runFor k t := by
  induction j generalizing s with
  | zero => cases h; simp
  | succ j ih =>
    cases hs : step s with
    | next v =>
      rw [runFor_succ j hs] at h
      rw [Nat.add_right_comm, runFor_succ (j + k) hs, ih h]
    | fault r =>
      have hs' : Sys2Proof.core.step s = .fault r := hs
      simp [runFor, Host.Core.run, hs'] at h
    | refused r =>
      have hs' : Sys2Proof.core.step s = .refused r := hs
      simp [runFor, Host.Core.run, hs'] at h

/-- A step with a response at the head of the list (R39). -/
theorem step_response {ok : Bool} {payload : List Byte} {es : List Event} (hw : s.cfg.wellFormed = true)
    (h : s.events = .rsp ok payload :: es) : step s = onResponse ok payload { s with events := es } := by
  unfold step
  rw [if_pos hw, h]
  rfl

/-- A step with a tick at the head of the list (R40). -/
theorem step_tick {es : List Event} (hw : s.cfg.wellFormed = true) (h : s.events = .tick :: es) :
    step s = onTick { s with events := es } := by
  unfold step
  rw [if_pos hw, h]
  rfl

/-- A step with a command word at the head of the list, while no command runs (R38). -/
theorem step_command {w : CmdWord} {es : List Event} (hw : s.cfg.wellFormed = true) (hi : s.regs.seq = .idle)
    (h : s.events = .cmd w :: es) : step s = onCommand w { s with events := es } := by
  have hb : s.busy = false := by simp [State.busy, hi]
  unfold step
  rw [if_pos hw, h, hb]
  rfl

/-- A tick while the block is not asleep only counts (R40). -/
theorem onTick_awake (h : s.regs.seq.sleeps = false) : onTick s = .next (countTick s) := by
  unfold onTick
  revert h
  cases s.regs.seq <;> simp [Seq.sleeps]

/-- The entries of `n` ticks after tick number `t`. -/
def tickEntries (t : Nat) : Nat → List Entry
  | 0 => []
  | n + 1 => ⟨t + 1, .tick⟩ :: tickEntries (t + 1) n

/-- The registers after `n` ticks of which none ends a delay: a wait's elapsed time advances (R40 (1), R125). -/
def elapseBy (n : Nat) (r : Regs) : Regs := if r.wActive then { r with el := sat32 (r.el.toNat + n) } else r

theorem elapseBy_succ (n : Nat) (r : Regs) : elapseBy n (elapse r) = elapseBy (n + 1) r := by
  cases h : r.wActive <;> simp [elapseBy, elapse, h, sat32_add, Nat.add_assoc, Nat.add_comm 1]

@[simp] theorem elapseBy_zero (r : Regs) : elapseBy 0 r = r := by
  simp [elapseBy]

/-- `n` ticks while the block is not asleep (R40). -/
theorem runFor_quiet (n : Nat) {es : List Event} (hw : s.cfg.wellFormed = true) (hs : s.regs.seq.sleeps = false)
    (h : s.events = quiet n ++ es) :
    runFor n s = .next
      { cfg := s.cfg, regs := elapseBy n s.regs, ticks := s.ticks + n, history := s.history ++ tickEntries s.ticks n,
        events := es } := by
  induction n generalizing s with
  | zero =>
    have h' : s.events = es := h
    subst h'
    simp [tickEntries]
  | succ n ih =>
    have h' : s.events = .tick :: (quiet n ++ es) := h
    have hstep := step_tick hw h'
    rw [onTick_awake (s := { s with events := quiet n ++ es }) hs] at hstep
    have := ih (s := countTick { s with events := quiet n ++ es }) hw (by simpa using hs) rfl
    rw [runFor_succ n hstep, this]
    simp [tickEntries, elapseBy_succ, Nat.add_assoc, Nat.add_comm 1]

/-- A tick in a sleep of at least two more ticks counts and shortens it (R40 (2)). -/
theorem onTick_asleep (h : s.regs.seq.sleeps = true) (hd : 2 ≤ s.regs.dly.toNat) :
    onTick s = .next ((countTick s).upd fun r => { r with dly := r.dly - 1 }) := by
  have key : ∀ f, countDelay f (countTick s) = .next ((countTick s).upd fun r => { r with dly := r.dly - 1 }) := by
    intro f
    have h0 : (countTick s).regs.dly ≠ 0 := by
      intro h0
      simp only [countTick_regs, elapse_dly] at h0
      simp [h0] at hd
    have h1 : (countTick s).regs.dly - 1 ≠ 0 := by
      intro h1
      simp only [countTick_regs, elapse_dly] at h1
      rw [sub_eq_zero] at h1
      simp [h1] at hd
    unfold countDelay
    rw [if_neg h0]
    exact if_neg h1
  unfold onTick
  revert h
  cases hq : s.regs.seq <;> simp [Seq.sleeps, key]

/-- All ticks of a sleep but its last (R40 (2), R125). -/
theorem runFor_asleep (n : Nat) {es : List Event} (hw : s.cfg.wellFormed = true) (hs : s.regs.seq.sleeps = true)
    (hd : s.regs.dly.toNat = n + 1) (h : s.events = quiet n ++ es) :
    runFor n s = .next
      { cfg := s.cfg, regs := { elapseBy n s.regs with dly := 1 }, ticks := s.ticks + n,
        history := s.history ++ tickEntries s.ticks n, events := es } := by
  induction n generalizing s with
  | zero =>
    have h' : s.events = es := h
    have hd' : s.regs.dly = 1 := BitVec.eq_of_toNat_eq (by simpa using hd)
    subst h'
    obtain ⟨c, r, k, l, e⟩ := s
    cases r
    simp only at hd'
    subst hd'
    simp [tickEntries]
  | succ n ih =>
    have h' : s.events = .tick :: (quiet n ++ es) := h
    have hstep := step_tick hw h'
    rw [onTick_asleep (s := { s with events := quiet n ++ es }) hs (by show 2 ≤ s.regs.dly.toNat; omega)] at hstep
    have hsub : (s.regs.dly - 1).toNat = n + 1 := by
      have := s.regs.dly.isLt
      bv_omega
    have hrun := ih (s := (countTick { s with events := quiet n ++ es }).upd fun r => { r with dly := r.dly - 1 })
      hw (by simpa using hs) (by simpa using hsub) rfl
    have he : { elapseBy n { elapse s.regs with dly := (elapse s.regs).dly - 1 } with dly := 1 } =
        { elapseBy (n + 1) s.regs with dly := 1 } := by
      rw [← elapseBy_succ]
      cases h : s.regs.wActive <;> simp [elapseBy, elapse, h]
    rw [runFor_succ n hstep, hrun]
    simp only [upd_regs, countTick_regs, he]
    simp [tickEntries, Nat.add_assoc, Nat.add_comm 1]

@[simp] theorem notedReads_nil (r : Regs) : notedReads [] r = r := rfl

/-- One read after another is classified from the registers the first left (R84). -/
@[simp] theorem notedReads_cons (m : Bool × List Byte) (ms : List (Bool × List Byte)) (r : Regs) :
    notedReads (m :: ms) r = notedReads ms (noteStatus (readClass m.1 m.2) r) := rfl

@[simp] theorem requestsOf_nil : requestsOf [] = [] := rfl

@[simp] theorem requestsOf_append (a b : List Entry) : requestsOf (a ++ b) = requestsOf a ++ requestsOf b := by
  simp [requestsOf]

@[simp] theorem requestTicks_nil : requestTicks [] = [] := rfl

@[simp] theorem requestTicks_append (a b : List Entry) :
    requestTicks (a ++ b) = requestTicks a ++ requestTicks b := by
  simp [requestTicks]

@[simp] theorem requestTicks_tickEntries (t n : Nat) : requestTicks (tickEntries t n) = [] := by
  induction n generalizing t with
  | zero => rfl
  | succ n ih => simpa [tickEntries, requestTicks] using ih (t + 1)

/-- Ticks send nothing. -/
@[simp] theorem requestsOf_tickEntries (t n : Nat) : requestsOf (tickEntries t n) = [] := by
  induction n generalizing t with
  | zero => rfl
  | succ n ih => simpa [tickEntries, requestsOf] using ih (t + 1)

end Sys2Proof.Machine
end

