-- ==== Sys2Proof/Tests/Slice0.lean ====
section
/-! SUPPORT. Tests on fixed values. Expected values are those of the spec's vectors or worked out by hand from its
rules, as each test says; the last part shows, for each statement with hypotheses, values that meet them. -/

namespace Sys2Proof.Tests

open Sys2Proof Sys2Proof.Machine

/-! ### Well-formedness: each check refuses an ill-formed term -/

/-- A configuration with its six addresses apart, a poll interval of 2 ticks and a retry delay of 3. -/
def cfg : Cfg where
  addrExcl := ⟨1, 1, 0⟩
  addrCw := ⟨1, 1, 1⟩
  addrSw := ⟨1, 1, 2⟩
  addrOpmode := ⟨1, 1, 3⟩
  addrJog := ⟨1, 1, 4⟩
  addrJogvel := ⟨1, 1, 5⟩
  pollTicks := 2
  retryDelayTicks := 3
  defTimeoutTicks := 3000
  defRetries := 3
  runTicks := 4000
  settleTicks := 500

/-- R9. -/
theorem test_cfg_poll_ticks : cfg.wellFormed = true ∧ ({ cfg with pollTicks := 0 } : Cfg).wellFormed = false := by decide

/-- R8: the defaults are well formed. -/
theorem test_cfg_default : Cfg.default.wellFormed = true := by decide

/-- The assembly errors of the test vectors, section 3.1. -/
theorem test_lines_refused :
    (AsmLine.claim 40000 0).wellFormed = false ∧ (AsmLine.trig 1 256).wellFormed = false ∧
    (AsmLine.waitb 16 1 10).wellFormed = false ∧ (AsmLine.waitb 0 2 10).wellFormed = false ∧
    (AsmLine.enable (-1)).wellFormed = false := by decide

/-- R72, R73: one value out of range for every other operand. -/
theorem test_operands_refused :
    (AsmLine.claim (-32769) 0).wellFormed = false ∧ (AsmLine.claim 0 2147483648).wellFormed = false ∧
    (AsmLine.claimFf 32768 0).wellFormed = false ∧ (AsmLine.claimFf 0 (-2147483649)).wellFormed = false ∧
    (AsmLine.enable 4294967296).wellFormed = false ∧ (AsmLine.trig 65536 1).wellFormed = false ∧
    (AsmLine.trigDefault (-1)).wellFormed = false ∧ (AsmLine.waitb 0 0 4294967296).wellFormed = false ∧
    (AsmLine.word 18446744073709551616).wellFormed = false ∧ (AsmLine.jogmode 2147483648).wellFormed = false ∧
    (AsmLine.waitrtso (-1)).wellFormed = false ∧ (AsmLine.waitswon (-1)).wellFormed = false ∧
    (AsmLine.waitopen 4294967296).wellFormed = false ∧ (AsmLine.hwait (-1)).wellFormed = false := by decide

/-! ### Decoding: words written out as W, H, B, Z, OPC from R61 and R65 to R69 -/

theorem test_decode_claim :
    decode (0x000003E8#32 ++ 0xFFFF#16 ++ 0b00000001#8 ++ 0b0000#4 ++ 0b0001#4) = .ok (.claim true (-1) 1000) := by
  decide

theorem test_decode_claim_best_effort :
    decode (0x80000000#32 ++ 0x8000#16 ++ 0b00000000#8 ++ 0b0000#4 ++ 0b0001#4) =
      .ok (.claim false (-32768) (-2147483648)) := by decide

theorem test_decode_enable :
    decode (0x00000BB8#32 ++ 0x0000#16 ++ 0b00000000#8 ++ 0b0000#4 ++ 0b0010#4) = .ok (.enable 3000) := by decide

theorem test_decode_disable :
    decode (0x00000000#32 ++ 0x0000#16 ++ 0b00000000#8 ++ 0b0000#4 ++ 0b0011#4) = .ok .disable := by decide

theorem test_decode_trig :
    decode (0x00000000#32 ++ 0x0102#16 ++ 0b00000011#8 ++ 0b0000#4 ++ 0b0100#4) = .ok (.trig 0x0102 3) := by decide

theorem test_decode_stop :
    decode (0x00000000#32 ++ 0x0000#16 ++ 0b00000000#8 ++ 0b0000#4 ++ 0b0101#4) = .ok .stop := by decide

theorem test_decode_rdstat :
    decode (0x00000000#32 ++ 0x0000#16 ++ 0b00000000#8 ++ 0b0000#4 ++ 0b0110#4) = .ok .rdstat := by decide

theorem test_decode_waitb :
    decode (0x00000064#32 ++ 0x0000#16 ++ 0b00011101#8 ++ 0b0000#4 ++ 0b0111#4) = .ok (.waitb 13 true 100) := by decide

theorem test_decode_waitb_target_0 :
    decode (0x0000012C#32 ++ 0x0000#16 ++ 0b00000010#8 ++ 0b0000#4 ++ 0b0111#4) = .ok (.waitb 2 false 300) := by decide

/-- The illegal words of the test vectors, section 3.1. -/
theorem test_decode_illegal :
    decode 0x0000000000000000 = .error .reservedOpcode ∧ decode 0x0000000000000008 = .error .reservedOpcode ∧
    decode 0x000000000000000F = .error .reservedOpcode ∧ decode 0x0000000100000003 = .error .reservedBits ∧
    decode 0x0000000000000201 = .error .reservedBits ∧ decode 0x0000000000002007 = .error .reservedBits ∧
    decode 0x0000000100010304 = .error .reservedBits ∧ decode 0x0000000000010002 = .error .reservedBits := by decide

/-- R64: no two rows match a common word: they differ in a bit that both cover. -/
theorem test_rows_disjoint :
    opRows.Pairwise fun a b => a.pattern &&& (a.mask &&& b.mask) ≠ b.pattern &&& (a.mask &&& b.mask) := by decide

/-- R64: each row's match lies within its mask. -/
theorem test_rows_matchable : ∀ r ∈ opRows, r.pattern &&& r.mask = r.pattern := by decide

/-! ### Codec: the vectors of section 2 -/

theorem test_enc :
    encU16 0x000F = [0x0F, 0x00] ∧ encS16 (-1) = [0xFF, 0xFF] ∧ encS16 (-32768) = [0x00, 0x80] ∧
    encS32 1000 = [0xE8, 0x03, 0x00, 0x00] ∧ encS32 (-1000) = [0x18, 0xFC, 0xFF, 0xFF] ∧
    encS32 (-2147483648) = [0x00, 0x00, 0x00, 0x80] := by decide

theorem test_dec :
    decSw [] = .readFailure ∧ decSw [0x05] = .encodingError ∧ decSw [0x01, 0x80] = .word 0x8001 ∧
    decSw [0x07, 0x00, 0xAA] = .word 0x0007 ∧ decU16 [0xFF, 0xFF] = some 65535 ∧ decS16 [0xFF, 0xFF] = some (-1) ∧
    decS32 [0x18, 0xFC, 0xFF, 0xFF] = some (-1000) ∧ decU16 [0x01] = none := by decide

/-! ### Assembler -/

/-- Texts and words of the table of R74. -/
theorem test_assemble :
    (parseLine "claim.ff -1, 1000 ; a comment".toList).toOption.join.map (fun l => (assemble cfg l).toOption.join) =
      some (some 0x000003E8FFFF0101) ∧
    (parseLine "waitopen 300".toList).toOption.join.map (fun l => (assemble cfg l).toOption.join) =
      some (some 0x0000012C00001207) ∧
    (parseLine "trig 0x1".toList).toOption.join.map (fun l => (assemble cfg l).toOption.join) =
      some (some 0x0000000000010304) := by decide

/-! ### One step of each command

Each looks at a few fields of the state after one step; the expected ones are worked out from the rule named. -/

/-- A state with these registers and events, at tick 10, with an empty record. -/
def at10 (r : Regs) (es : List Event) : State := { cfg := cfg, regs := r, ticks := 10, history := [], events := es }

/-- The registers after a step. -/
def regsAfter (s : State) : Option Regs :=
  match step s with
  | .next t => some t.regs
  | .fault _ => none
  | .refused _ => none

/-- The requests a step sends. -/
def requestsAfter (s : State) : Option (List Request) :=
  match step s with
  | .next t => some (requestsOf (t.history.drop s.history.length))
  | .fault _ => none
  | .refused _ => none

/-- R96: the second setup write carries `op_mode`, low byte first, though the first write failed under BestEffort. -/
theorem test_claim_second_write :
    requestsAfter (at10 { seq := .claimWr, reqOut := true, op := 1, k := 1, opMode := 0xFF01 } [.rsp false []]) =
      some [⟨.write, ⟨1, 1, 3⟩, [0x01, 0xFF]⟩] := by decide

/-- R96: BestEffort with the second write failed: bit 1 of the detail, and phase `CLAIMED`. -/
theorem test_claim_end :
    (regsAfter (at10 { seq := .claimWr, reqOut := true, op := 1, k := 3, mask := 2 } [.rsp true []])).map
      (fun r => (r.phase, r.resCode, r.resOp, r.resDetail)) = some (.claimed, .transport, 1, 2) := by decide

/-- R97: stage 2's control word follows the match of stage 1. -/
theorem test_enable_second_stage :
    requestsAfter (at10 { phase := .claimed, seq := .waitRd, reqOut := true, op := 2, k := 1, wActive := true, polls := 1,
                          timeout := 9, wBit := 0, wTarget := true } [.rsp true [0x01, 0x00]]) =
      some [⟨.write, ⟨1, 1, 1⟩, [0x07, 0x00]⟩] := by decide

/-- Scenario E's end: the third wait times out, with the last status word and phase `SWON`. -/
theorem test_enable_times_out :
    (regsAfter (at10 { phase := .swon, seq := .waitSlp, op := 2, k := 3, wActive := true, polls := 30, el := 2999,
                       dly := 1, timeout := 3000, wBit := 2, wTarget := true, lastSw := 3, lastSwValid := true }
        [.tick])).map (fun r => (r.phase, r.resCode, r.resDetail, r.resSw, r.resSwValid)) =
      some (.swon, .timeout, 3, 0x0003, true) := by decide

/-- R102: the second cleanup write is control word 0x00, and a failed stop write has raised the alarm. -/
theorem test_disable_second_write :
    requestsAfter (at10 { phase := .opEnabled, seq := .disWr, reqOut := true, op := 3, k := 1 } [.rsp false []]) =
        some [⟨.write, ⟨1, 1, 1⟩, [0x00, 0x00]⟩] ∧
      (regsAfter (at10 { phase := .opEnabled, seq := .disWr, reqOut := true, op := 3, k := 1 } [.rsp false []])).map
        (fun r => (r.phase, r.mask, r.stopFail)) = some (.opEnabled, 1, true) := by decide

/-- R102: the end of DISABLE, whatever its last write did. -/
theorem test_disable_end :
    (regsAfter (at10 { phase := .swon, seq := .disWr, reqOut := true, op := 3, k := 3, mask := 1, stopFail := true }
        [.rsp false []])).map (fun r => (r.phase, r.resCode, r.resDetail, r.stopFail)) =
      some (.released, .transport, 5, true) := by decide

/-- R106: a failed attempt sleeps `RETRY_DELAY_TICKS`. -/
theorem test_trig_sleeps :
    (regsAfter (at10 { phase := .opEnabled, seq := .trigWr, reqOut := true, op := 4, jogValue := 1, maxAtt := 3, att := 2 }
        [.rsp false []])).map (fun r => (r.seq, r.dly, r.att)) = some (.trigSlp, 3, 2) := by decide

/-- Scenario D's end: no sleep after the last attempt. -/
theorem test_trig_gives_up :
    (regsAfter (at10 { phase := .opEnabled, seq := .trigWr, reqOut := true, op := 4, jogValue := 1, maxAtt := 3, att := 3 }
        [.rsp false []])).map (fun r => (r.seq, r.resCode, r.resDetail, r.stopFail)) =
      some (.idle, .transport, 3, false) := by decide

/-- R110: STOP writes 0 to jog-activate in any phase, here `IDLE`. -/
theorem test_stop_writes :
    requestsAfter (at10 {} [.cmd 0x0000000000000005]) = some [⟨.write, ⟨1, 1, 4⟩, [0x00, 0x00]⟩] := by decide

/-- R110, R20: a successful stop write clears the alarm. -/
theorem test_stop_clears :
    (regsAfter (at10 { seq := .stopWr, reqOut := true, op := 5, stopFail := true } [.rsp true []])).map
      (fun r => (r.stopFail, r.resCode, r.resOp)) = some (false, .ok, 5) := by decide

/-- Vector P6: bytes 01, 80 are the status word 0x8001. -/
theorem test_rdstat_ok :
    (regsAfter (at10 { seq := .rd, reqOut := true, op := 6 } [.rsp true [0x01, 0x80]])).map
      (fun r => (r.resCode, r.resSw, r.resSwValid, r.lastSwValid)) = some (.ok, 0x8001, true, true) := by decide

/-- Vector P4: one byte is an encoding error; the old status word is reported as not valid. -/
theorem test_rdstat_one_byte :
    (regsAfter (at10 { seq := .rd, reqOut := true, op := 6, lastSw := 9 } [.rsp true [0x07]])).map
      (fun r => (r.resCode, r.resSw, r.resSwValid)) = some (.encoding, 9, false) := by decide

/-- R87: at the end of a sleep with `el` below the timeout the wait reads again. -/
theorem test_waitb_reads_again :
    requestsAfter (at10 { seq := .waitSlp, op := 7, wActive := true, polls := 1, el := 1, dly := 1, timeout := 3 }
      [.tick]) = some [⟨.read, ⟨1, 1, 2⟩, []⟩] := by decide

/-- R94: a target of 0 is matched by a clear bit. -/
theorem test_waitb_target_0 :
    (regsAfter (at10 { seq := .waitRd, reqOut := true, op := 7, wActive := true, polls := 1, timeout := 3, wBit := 9 }
        [.rsp true [0xFF, 0xFD]])).map (fun r => (r.seq, r.resCode, r.resDetail, r.resSw)) =
      some (.idle, .ok, 1, 0xFDFF) := by decide

/-! ### Sound states, for the hypotheses below -/

/-- Idle, in phase `p`. -/
def idleIn (p : Phase) (es : List Event) : State := at10 { phase := p } es

/-- CLAIM at write 3 (R96). -/
def claimLast (ff : Bool) (es : List Event) : State :=
  at10 { seq := .claimWr, reqOut := true, op := 1, k := 3, ff := ff, mask := 3 } es

/-- ENABLE at the control-word write of stage `k`, its last value of `phase` given (R97). -/
def enableAt (k : BitVec 2) (p : Phase) (es : List Event) : State :=
  at10 { phase := p, seq := .enCw, reqOut := true, op := 2, k := k, timeout := 9 } es

/-- ENABLE at the control-word write of stage 1, with a timeout of 0 (vector E10). -/
def enableNoTime (es : List Event) : State :=
  at10 { phase := .claimed, seq := .enCw, reqOut := true, op := 2, k := 1 } es

/-- ENABLE at a status read of stage `k` (R97). -/
def enableReads (k : BitVec 2) (bit : BitVec 4) (p : Phase) (es : List Event) : State :=
  at10 { phase := p, seq := .waitRd, reqOut := true, op := 2, k := k, timeout := 9, wActive := true, polls := 1,
         wBit := bit, wTarget := true } es

/-- ENABLE at the end of a sleep of stage 3, with the elapsed time at its limit or below it (R87). -/
def enableSleeps (el timeout : Ticks) (es : List Event) : State :=
  at10 { phase := .swon, seq := .waitSlp, op := 2, k := 3, timeout := timeout, wActive := true, polls := 1, el := el,
         dly := 1, wBit := 2, wTarget := true } es

/-- DISABLE at write `k` (R102). -/
def disableAt (k : BitVec 2) (es : List Event) : State :=
  at10 { phase := .opEnabled, seq := .disWr, reqOut := true, op := 3, k := k } es

/-- WAITB at a status read (R94). -/
def waitbReads (el timeout : Ticks) (es : List Event) : State :=
  at10 { seq := .waitRd, reqOut := true, op := 7, timeout := timeout, wActive := true, polls := 1, el := el } es

/-- WAITB at its second status read, whose response comes after the deadline (R88). -/
def waitbLater (es : List Event) : State :=
  at10 { seq := .waitRd, reqOut := true, op := 7, timeout := 5, wActive := true, polls := 2, el := 9, wTarget := true } es

/-- WAITB in a sleep (R89). -/
def waitbSleeps (el dly : Ticks) (es : List Event) : State :=
  at10 { seq := .waitSlp, op := 7, timeout := 0xFFFFFFFF, wActive := true, polls := 1, el := el, dly := dly } es

/-- TRIG at attempt `att` of 3 (R106). -/
def trigAt (att : BitVec 8) (es : List Event) : State :=
  at10 { phase := .opEnabled, seq := .trigWr, reqOut := true, op := 4, jogValue := 1, maxAtt := 3, att := att } es

/-- TRIG at attempt 2 of 3, with a retry delay of 0 (R9). -/
def trigNoDelay (es : List Event) : State := { trigAt 2 es with cfg := { cfg with retryDelayTicks := 0 } }

/-- TRIG in a sleep (R106). -/
def trigSleeps (dly : Ticks) (es : List Event) : State :=
  at10 { phase := .opEnabled, seq := .trigSlp, op := 4, jogValue := 1, maxAtt := 3, att := 1, dly := dly } es

/-- STOP at its write (R110). -/
def stopAt (es : List Event) : State := at10 { seq := .stopWr, reqOut := true, op := 5 } es

/-- RDSTAT at its read (R85). -/
def rdstatAt (es : List Event) : State := at10 { seq := .rd, reqOut := true, op := 6 } es

theorem sound_idle (p : Phase) (es : List Event) : (idleIn p es).Sound := by
  simp [State.Sound, Regs.Quiescent, Regs.InCommand, Regs.TimersAgree, Regs.PollsBounded, Seq.inWait, Seq.sleeps,
    idleIn, at10, cfg, Cfg.wellFormed]

theorem sound_claimLast (ff : Bool) (es : List Event) : (claimLast ff es).Sound := by
  simp [State.Sound, Regs.Quiescent, Regs.InCommand, Regs.TimersAgree, Regs.PollsBounded, Seq.inWait, Seq.sleeps,
    Seq.awaitsResponse, claimLast, at10, cfg, Cfg.wellFormed]

theorem sound_enableAt (es : List Event) :
    (enableAt 1 .claimed es).Sound ∧ (enableAt 2 .rtso es).Sound ∧ (enableAt 3 .swon es).Sound := by
  simp [State.Sound, Regs.Quiescent, Regs.InCommand, Regs.InStage, phaseBefore, Regs.TimersAgree, Regs.PollsBounded,
    Seq.inWait, Seq.sleeps, Seq.awaitsResponse, enableAt, at10, cfg, Cfg.wellFormed]

theorem sound_enableNoTime (es : List Event) : (enableNoTime es).Sound := by
  simp [State.Sound, Regs.Quiescent, Regs.InCommand, Regs.InStage, phaseBefore, Regs.TimersAgree, Regs.PollsBounded,
    Seq.inWait, Seq.sleeps, Seq.awaitsResponse, enableNoTime, at10, cfg, Cfg.wellFormed]

theorem sound_enableReads (es : List Event) :
    (enableReads 1 0 .claimed es).Sound ∧ (enableReads 2 1 .rtso es).Sound ∧ (enableReads 3 2 .swon es).Sound := by
  simp [State.Sound, Regs.Quiescent, Regs.InCommand, Regs.InWait, Regs.InStage, phaseBefore, Regs.TimersAgree,
    Regs.PollsBounded, Seq.inWait, Seq.sleeps, Seq.awaitsResponse, enableReads, at10, cfg, Cfg.wellFormed]

theorem sound_enableSleeps (es : List Event) :
    (enableSleeps 4 5 es).Sound ∧ (enableSleeps 0xFFFFFFFF 0xFFFFFFFF es).Sound ∧ (enableSleeps 3 5 es).Sound := by
  simp [State.Sound, Regs.Quiescent, Regs.InCommand, Regs.InWait, Regs.InStage, phaseBefore, Regs.TimersAgree,
    Regs.PollsBounded, Seq.inWait, Seq.sleeps, Seq.awaitsResponse, enableSleeps, at10, cfg, Cfg.wellFormed]

theorem sound_disableAt (es : List Event) : (disableAt 1 es).Sound ∧ (disableAt 3 es).Sound := by
  simp [State.Sound, Regs.Quiescent, Regs.InCommand, Regs.TimersAgree, Regs.PollsBounded, Seq.inWait, Seq.sleeps,
    Seq.awaitsResponse, disableAt, at10, cfg, Cfg.wellFormed]

theorem sound_waitbReads (es : List Event) : (waitbReads 0 3 es).Sound := by
  simp [State.Sound, Regs.Quiescent, Regs.InCommand, Regs.InWait, Regs.TimersAgree, Regs.PollsBounded, Seq.inWait,
    Seq.sleeps, Seq.awaitsResponse, waitbReads, at10, cfg, Cfg.wellFormed]

theorem sound_waitbSleeps (es : List Event) : (waitbSleeps 3 1 es).Sound ∧ (waitbSleeps 0xFFFFFFFE 1 es).Sound := by
  simp [State.Sound, Regs.Quiescent, Regs.InCommand, Regs.InWait, Regs.TimersAgree, Regs.PollsBounded, Seq.inWait,
    Seq.sleeps, Seq.awaitsResponse, waitbSleeps, at10, cfg, Cfg.wellFormed]

theorem sound_stopAt (es : List Event) : (stopAt es).Sound := by
  simp [State.Sound, Regs.Quiescent, Regs.InCommand, Regs.TimersAgree, Regs.PollsBounded, Seq.inWait, Seq.sleeps,
    Seq.awaitsResponse, stopAt, at10, cfg, Cfg.wellFormed]

theorem sound_rdstatAt (es : List Event) : (rdstatAt es).Sound := by
  simp [State.Sound, Regs.Quiescent, Regs.InCommand, Regs.TimersAgree, Regs.PollsBounded, Seq.inWait, Seq.sleeps,
    Seq.awaitsResponse, rdstatAt, at10, cfg, Cfg.wellFormed]

theorem sound_trigAt (es : List Event) : (trigAt 3 es).Sound ∧ (trigAt 2 es).Sound := by
  simp [State.Sound, Regs.Quiescent, Regs.InCommand, Regs.InTrig, Regs.TimersAgree, Regs.PollsBounded, Seq.inWait,
    Seq.sleeps, Seq.awaitsResponse, trigAt, at10, cfg, Cfg.wellFormed]

theorem sound_trigNoDelay (es : List Event) : (trigNoDelay es).Sound := by
  simp [State.Sound, Regs.Quiescent, Regs.InCommand, Regs.InTrig, Regs.TimersAgree, Regs.PollsBounded, Seq.inWait,
    Seq.sleeps, Seq.awaitsResponse, trigNoDelay, trigAt, at10, cfg, Cfg.wellFormed]

theorem sound_waitbLater (es : List Event) : (waitbLater es).Sound := by
  simp [State.Sound, Regs.Quiescent, Regs.InCommand, Regs.InWait, Regs.TimersAgree, Regs.PollsBounded, Seq.inWait,
    Seq.sleeps, Seq.awaitsResponse, waitbLater, at10, cfg, Cfg.wellFormed]

theorem sound_trigSleeps (es : List Event) : (trigSleeps 1 es).Sound := by
  simp [State.Sound, Regs.Quiescent, Regs.InCommand, Regs.InTrig, Regs.TimersAgree, Regs.PollsBounded, Seq.inWait,
    Seq.sleeps, Seq.awaitsResponse, trigSleeps, at10, cfg, Cfg.wellFormed]

/-! ### Witnesses: values that meet the hypotheses of each statement, and each of its clauses -/

theorem witness_EncodeOfDecode : decode 0x000003E8FFFF0101 = .ok (.claim true (-1) 1000) := by decide

/-- A word for each clause, at both ends of each reserved field. -/
theorem witness_ReservedPatternsAreIllegal :
    (0x10#64).extractLsb' 0 4 = 0 ∧ 8 ≤ ((0x08#64).extractLsb' 0 4).toNat ∧ 8 ≤ ((0x0F#64).extractLsb' 0 4).toNat ∧
    (1 ≤ ((0x11#64).extractLsb' 0 4).toNat ∧ ((0x11#64).extractLsb' 0 4).toNat ≤ 7 ∧ (0x11#64).extractLsb' 4 4 ≠ 0) ∧
    (1 ≤ ((0x87#64).extractLsb' 0 4).toNat ∧ ((0x87#64).extractLsb' 0 4).toNat ≤ 7 ∧ (0x87#64).extractLsb' 4 4 ≠ 0) ∧
    ((0x0201#64).extractLsb' 0 4 = 1 ∧ (0x0201#64).extractLsb' 9 7 ≠ 0) ∧
    ((0x8001#64).extractLsb' 0 4 = 1 ∧ (0x8001#64).extractLsb' 9 7 ≠ 0) ∧
    ((0x0102#64).extractLsb' 0 4 = 2 ∧ (0x0102#64).extractLsb' 8 24 ≠ 0) ∧
    ((0x80000002#64).extractLsb' 0 4 = 2 ∧ (0x80000002#64).extractLsb' 8 24 ≠ 0) ∧
    ((0x0103#64).extractLsb' 0 4 = 3 ∧ (0x0103#64).extractLsb' 8 56 ≠ 0) ∧
    ((0x0105#64).extractLsb' 0 4 = 5 ∧ (0x0105#64).extractLsb' 8 56 ≠ 0) ∧
    ((0x8000000000000006#64).extractLsb' 0 4 = 6 ∧ (0x8000000000000006#64).extractLsb' 8 56 ≠ 0) ∧
    ((0x100000004#64).extractLsb' 0 4 = 4 ∧ (0x100000004#64).extractLsb' 32 32 ≠ 0) ∧
    ((0x8000000000000004#64).extractLsb' 0 4 = 4 ∧ (0x8000000000000004#64).extractLsb' 32 32 ≠ 0) ∧
    ((0x2007#64).extractLsb' 0 4 = 7 ∧ (0x2007#64).extractLsb' 13 3 ≠ 0) ∧
    ((0x80000007#64).extractLsb' 0 4 = 7 ∧ (0x80000007#64).extractLsb' 16 16 ≠ 0) := by decide

/-- For each operand of each line a value just below and just above R72's range, and the ends of the ranges. -/
theorem witness_AssembledLines :
    (-32769 : Int) < -32768 ∧ (32767 : Int) < 32768 ∧ (-2147483649 : Int) < -2147483648 ∧
    (2147483647 : Int) < 2147483648 ∧ (-1 : Int) < 0 ∧ (4294967295 : Int) < 4294967296 ∧ (65535 : Int) < 65536 ∧
    (255 : Int) < 256 ∧ (15 : Int) < 16 ∧ (1 : Int) < 2 ∧ (18446744073709551615 : Int) < 18446744073709551616 ∧
    (AsmLine.claim (-32768) (-2147483648)).wellFormed = true ∧ (AsmLine.claimFf 32767 2147483647).wellFormed = true ∧
    (AsmLine.jogmode (-2147483648)).wellFormed = true := by decide

/-- The ends of the ranges of R81. -/
theorem witness_CodecRoundTrip :
    ((-32768 : Int) ≤ -32768 ∧ (-32768 : Int) ≤ 32767) ∧ ((-32768 : Int) ≤ 32767 ∧ (32767 : Int) ≤ 32767) ∧
    ((-2147483648 : Int) ≤ -2147483648 ∧ (-2147483648 : Int) ≤ 2147483647) := by decide

/-- A reset followed by a response, by a tick and by nothing. -/
theorem witness_ResetEvent :
    (stopAt [.reset]).events = .reset :: [] ∧ (stopAt [.reset, .tick]).events = .reset :: [.tick] ∧
    (stopAt [.reset, .rsp true []]).cfg.wellFormed = true ∧
    (stopAt [.reset, .rsp true []]).events = .reset :: .rsp true [] :: [] := by decide

theorem witness_StepRunsTheDecodedCommand :
    (idleIn .idle [.cmd 0x00000BB800001007, .tick]).cfg.wellFormed = true ∧
    (idleIn .idle [.cmd 0x00000BB800001007, .tick]).regs.seq = .idle ∧
    (idleIn .idle [.cmd 0x00000BB800001007, .tick]).events = .cmd 0x00000BB800001007 :: [.tick] ∧
    decode 0x00000BB800001007 = .ok (.waitb 0 true 3000) := by decide

theorem witness_FetchedWordRuns :
    (idleIn .opEnabled []).cfg.wellFormed = true ∧ (idleIn .opEnabled []).regs.seq = .idle ∧
    decodeTableWord 64 0x10304 = some (.trig 1 3) := by decide

theorem witness_BusyCommandNotAccepted : (stopAt [.cmd 3]).regs.seq ≠ .idle := by decide

/-- One list of events for each clause. -/
theorem witness_HeldCommandsWait :
    (stopAt []).cfg.wellFormed = true ∧ (stopAt []).regs.seq ≠ .idle ∧
    (stopAt [.cmd 5, .cmd 6]).events = [5, 6].map .cmd ∧
    (stopAt [.cmd 5, .rsp true [], .tick]).events = [5].map .cmd ++ .rsp true [] :: [.tick] ∧
    (stopAt [.tick]).events = ([] : List CmdWord).map .cmd ++ .tick :: [] ∧
    (stopAt [.cmd 5, .reset]).events = [5].map .cmd ++ .reset :: [] := by decide

theorem witness_UnaskedResponseDropped :
    (waitbSleeps 3 1 [.rsp true [1, 0]]).cfg.wellFormed = true ∧
    (waitbSleeps 3 1 [.rsp true [1, 0]]).regs.reqOut = false ∧
    (waitbSleeps 3 1 [.rsp true [1, 0]]).events = .rsp true [1, 0] :: [] := by decide

/-- A state for each clause: no wait, `el` at its limit and just below it, a sleep with 2 ticks and with 1 tick left. -/
theorem witness_TickCounts :
    (cfg.wellFormed = true ∧ (stopAt [.tick]).events = .tick :: []) ∧
    ((stopAt [.tick]).regs.wActive = false ∧ (stopAt [.tick]).regs.seq ≠ .waitSlp ∧
      (stopAt [.tick]).regs.seq ≠ .trigSlp) ∧
    ((waitbReads 0xFFFFFFFF 3 [.tick]).regs.wActive = true ∧
      (waitbReads 0xFFFFFFFF 3 [.tick]).regs.el.toNat = 2 ^ 32 - 1) ∧
    ((waitbReads 0xFFFFFFFE 3 [.tick]).regs.wActive = true ∧
      (waitbReads 0xFFFFFFFE 3 [.tick]).regs.el.toNat < 2 ^ 32 - 1) ∧
    ((waitbSleeps 3 2 [.tick]).regs.seq = .waitSlp ∧ 2 ≤ (waitbSleeps 3 2 [.tick]).regs.dly.toNat) ∧
    ((waitbSleeps 3 1 [.tick]).regs.dly = 1 ∧ (waitbSleeps 3 1 [.tick]).regs.seq = .waitSlp) ∧
    ((trigSleeps 1 [.tick]).regs.dly = 1 ∧ (trigSleeps 1 [.tick]).regs.seq = .trigSlp) := by decide

/-- The clauses of TickCounts on sound states: the deadline test one tick before the deadline, of WAITB and of ENABLE, and
at it, and the end of TRIG's sleep. -/
theorem witness_TickCounts_sound :
    ((waitbSleeps 3 1 [.tick]).Sound ∧ (waitbSleeps 3 1 [.tick]).regs.dly = 1 ∧
      (waitbSleeps 3 1 [.tick]).regs.el.toNat + 1 < (waitbSleeps 3 1 [.tick]).regs.timeout.toNat) ∧
    ((enableSleeps 3 5 [.tick]).Sound ∧ (enableSleeps 3 5 [.tick]).regs.dly = 1 ∧
      (enableSleeps 3 5 [.tick]).regs.el.toNat + 1 < (enableSleeps 3 5 [.tick]).regs.timeout.toNat) ∧
    ((waitbSleeps 0xFFFFFFFE 1 [.tick]).Sound ∧ (waitbSleeps 0xFFFFFFFE 1 [.tick]).regs.op = 0x7 ∧
      (waitbSleeps 0xFFFFFFFE 1 [.tick]).regs.timeout.toNat ≤ (waitbSleeps 0xFFFFFFFE 1 [.tick]).regs.el.toNat + 1) ∧
    ((trigSleeps 1 [.tick]).Sound ∧ (trigSleeps 1 [.tick]).regs.dly = 1 ∧
      (trigSleeps 1 [.tick]).regs.seq = .trigSlp) :=
  ⟨⟨(sound_waitbSleeps _).1, rfl, by decide⟩, ⟨(sound_enableSleeps _).2.2, rfl, by decide⟩,
    ⟨(sound_waitbSleeps _).2, rfl, by decide⟩, ⟨sound_trigSleeps _, rfl, rfl⟩⟩

theorem witness_IllFormedConfigurationRefused :
    ({ idleIn .idle [] with cfg := { cfg with pollTicks := 0 } } : State).cfg.pollTicks = 0 := by decide

/-- A step that answers a next state, of a sound state that keeps the request discipline and the plan of its writes: for
ConfigurationFixed, SoundKept, QuiescentAfterEveryEvent, OneRequestOutstanding, CommandWritesInOrder, OneRequestPerEvent,
RequestsInTable, StopAlarm and ResultStays. -/
theorem witness_step :
    let s := idleIn .idle [.cmd 0x0000000000000005]
    s.Sound ∧ s.regs.Quiescent ∧ s.OneRequestAtATime ∧ s.WritesInPlan ∧ (∃ t, step s = .next t) ∧
      donesOf (match step s with | .next t => t.history | _ => []) = 0 ∧
      nextEvent s.busy s.events ≠ some (.reset, []) := by
  refine ⟨sound_idle _ _, .inl ⟨rfl, rfl⟩, rfl, ?_, ⟨_, rfl⟩, by decide, by decide⟩
  show ([] : List Request) <+: _
  exact List.nil_prefix

/-- SoundNeverStops, in a running command. -/
theorem witness_SoundNeverStops : (enableReads 2 1 .rtso [.rsp true [2, 0]]).Sound := (sound_enableReads _).2.1

/-- Whether a step changes the phase. -/
def phaseMoves (s : State) : Bool :=
  match step s with
  | .next t => t.regs.phase != s.regs.phase
  | .fault _ => false
  | .refused _ => false

theorem phaseMoves_spec {s : State} (h : phaseMoves s = true) :
    ∃ t, step s = .next t ∧ t.regs.phase ≠ s.regs.phase := by
  unfold phaseMoves at h
  split at h
  · rename_i t ht
    exact ⟨t, ht, by simpa using h⟩
  · cases h
  · cases h

/-- PhaseChanges: a reset, the start of ENABLE, the ends of CLAIM (under FailFast too) and DISABLE, the three stages. -/
theorem witness_PhaseChanges :
    phaseMoves (idleIn .opEnabled [.reset]) = true ∧ phaseMoves (idleIn .swon [.cmd 0x0000012C00000002]) = true ∧
    phaseMoves (claimLast false [.rsp false []]) = true ∧ phaseMoves (claimLast true [.rsp true []]) = true ∧
    phaseMoves (enableReads 1 0 .claimed [.rsp true [1, 0]]) = true ∧
    phaseMoves (enableReads 2 1 .rtso [.rsp true [2, 0]]) = true ∧
    phaseMoves (enableReads 3 2 .swon [.rsp true [4, 0]]) = true ∧
    phaseMoves (disableAt 3 [.rsp false []]) = true := by decide

theorem witness_PhaseChanges_sound :
    (∃ t, step (disableAt 3 [.rsp false []]) = .next t ∧ t.regs.phase ≠ (disableAt 3 [.rsp false []]).regs.phase) ∧
    (idleIn .opEnabled [.reset]).Sound ∧ (claimLast true [.rsp true []]).Sound ∧ (disableAt 3 [.rsp false []]).Sound ∧
    (enableReads 3 2 .swon [.rsp true [4, 0]]).Sound :=
  ⟨phaseMoves_spec (by decide), sound_idle _ _, sound_claimLast _ _, (sound_disableAt _).2, (sound_enableReads _).2.2⟩

/-- Both ways a control word is sent: ENABLE's start, and the match of a stage's wait. -/
theorem witness_ControlWordOnlyAfterItsGate :
    (idleIn .claimed [.cmd 0x0000012C00000002]).Sound ∧
    (regsAfter (idleIn .claimed [.cmd 0x0000012C00000002])).map Regs.seq = some .enCw ∧
    requestsAfter (idleIn .claimed [.cmd 0x0000012C00000002]) = some [writeTo cfg .cw [0x06, 0x00]] ∧
    (enableReads 1 0 .claimed [.rsp true [1, 0]]).Sound ∧
    (regsAfter (enableReads 1 0 .claimed [.rsp true [1, 0]])).map Regs.seq = some .enCw ∧
    requestsAfter (enableReads 1 0 .claimed [.rsp true [1, 0]]) = some [writeTo cfg .cw [0x07, 0x00]] ∧
    (enableReads 2 1 .rtso [.rsp true [2, 0]]).Sound ∧
    (regsAfter (enableReads 2 1 .rtso [.rsp true [2, 0]])).map Regs.seq = some .enCw ∧
    requestsAfter (enableReads 2 1 .rtso [.rsp true [2, 0]]) = some [writeTo cfg .cw [0x0F, 0x00]] :=
  ⟨sound_idle _ _, by decide, by decide, (sound_enableReads _).1, by decide, by decide, (sound_enableReads _).2.1,
    by decide, by decide⟩

/-- Each clause: a reset, an answered stop write of STOP and of DISABLE, and the alarm moving. -/
theorem witness_StopAlarm :
    (stopAt [.rsp false []]).Sound ∧ (disableAt 1 [.rsp false []]).Sound ∧
    nextEvent true [.reset] = some (.reset, []) ∧
    nextEvent (stopAt [.rsp false []]).busy [.rsp false []] = some (.rsp false [], []) ∧
    (regsAfter (stopAt [.rsp false []])).map Regs.stopFail = some true ∧
    (regsAfter (disableAt 1 [.rsp false []])).map Regs.stopFail = some true :=
  ⟨sound_stopAt _, (sound_disableAt _).1, by decide, by decide, by decide, by decide⟩

theorem witness_StatusWordFromReadsOnly :
    (rdstatAt [.rsp true [7, 0]]).Sound ∧
    (regsAfter (rdstatAt [.rsp true [7, 0]])).map (fun r => decide (r.lastSw ≠ 0)) = some true ∧
    (waitbReads 0 3 [.rsp true [7, 0]]).Sound ∧
    (regsAfter (waitbReads 0 3 [.rsp true [7, 0]])).map (fun r => decide (r.lastSw ≠ 0)) = some true :=
  ⟨sound_rdstatAt _, by decide, sound_waitbReads _, by decide⟩

/-- Each clause: a read sent with `el` one below the timeout, a `TIMEOUT` with `el` equal to it and with a timeout of 0, and
a wait that goes on. -/
theorem witness_PollsWithinTheDeadline :
    (waitbSleeps 3 1 [.tick]).Sound ∧ (regsAfter (waitbSleeps 3 1 [.tick])).map Regs.seq = some .waitRd ∧
    requestsAfter (waitbSleeps 3 1 [.tick]) = some [readStatus cfg] ∧
    (enableSleeps 4 5 [.tick]).Sound ∧
    (regsAfter (enableSleeps 4 5 [.tick])).map (fun r => (r.resCode, r.el)) = some (.timeout, 5) ∧
    (enableNoTime [.rsp true []]).Sound ∧
    (regsAfter (enableNoTime [.rsp true []])).map (fun r => (r.resCode, r.el)) = some (.timeout, 0) ∧
    (waitbReads 0 3 [.rsp false []]).Sound ∧
    (regsAfter (waitbReads 0 3 [.rsp false []])).map Regs.seq = some .waitSlp :=
  ⟨(sound_waitbSleeps _).1, by decide, by decide, (sound_enableSleeps _).1, by decide, sound_enableNoTime _, by decide,
    sound_waitbReads _, by decide⟩

/-- HostFlagsNeverSteer: two states with different flags and records. -/
theorem witness_HostFlagsNeverSteer :
    let s := idleIn .opEnabled [.cmd 0x0000000000010304]
    let s' : State := { s with
      regs := { s.regs with lastSw := 7, stopFail := true, resCode := .timeout }, history := [⟨3, .tick⟩] }
    s'.cfg = s.cfg ∧ s'.ticks = s.ticks ∧ s'.events = s.events ∧ s'.regs.hidden = s.regs.hidden ∧
      s'.regs ≠ s.regs ∧ (∃ t, step s = .next t) := ⟨rfl, rfl, rfl, by decide, by decide, _, rfl⟩

/-- ClaimStarts, EnableStarts, DisableStarts, TrigStarts, StopStarts, RdstatStarts, WaitbStarts, WaitbZeroTimeout. -/
theorem witness_Starts :
    (∀ p, (idleIn p []).regs.seq = .idle) ∧
    (idleIn .idle []).regs.phase = .idle ∧ (idleIn .released []).regs.phase = .released ∧
    (idleIn .claimed []).regs.phase = .claimed ∧ (idleIn .rtso []).regs.phase = .rtso ∧
    (idleIn .swon []).regs.phase = .swon ∧ (idleIn .opEnabled []).regs.phase = .opEnabled ∧
    (1 : BitVec 16) ≠ 0 ∧ (255 : BitVec 8) ≠ 0 ∧ (1 : Ticks) ≠ 0 := by
  refine ⟨fun _ => rfl, ?_⟩
  decide

/-- Each operand zero, the other not. -/
theorem witness_TrigRefusesZeroOperands :
    (idleIn .opEnabled []).regs.seq = .idle ∧ (idleIn .opEnabled []).regs.phase = .opEnabled ∧
    ((0 : BitVec 16) = 0 ∨ (3 : BitVec 8) = 0) ∧ ((1 : BitVec 16) = 0 ∨ (0 : BitVec 8) = 0) := by decide

/-- A command of each kind in a phase that refuses it. -/
theorem witness_PhaseRefusals :
    (idleIn .claimed []).regs.seq = .idle ∧
    ((idleIn .claimed []).regs.phase ≠ .idle ∧ (idleIn .claimed []).regs.phase ≠ .released) ∧
    ((idleIn .opEnabled []).regs.phase ≠ .claimed ∧ (idleIn .opEnabled []).regs.phase ≠ .rtso ∧
      (idleIn .opEnabled []).regs.phase ≠ .swon) ∧
    (idleIn .swon []).regs.phase ≠ .opEnabled := by decide

theorem witness_IllegalWordFinishes :
    (idleIn .rtso [.cmd 0x13]).Sound ∧ (idleIn .rtso [.cmd 0x13]).regs.seq = .idle ∧
    decode 0x13 = .error .reservedBits ∧ (idleIn .rtso [.cmd 0x13]).events = .cmd 0x13 :: [] :=
  ⟨sound_idle _ _, rfl, by decide, rfl⟩

theorem witness_ClaimBestEffortRun :
    let es : List Event := .cmd (encode (.claim false 0xFFFF 1000)) ::
      (quiet 1 ++ .rsp true [] :: (quiet 0 ++ .rsp false [] :: (quiet 2 ++ .rsp true [] :: [])))
    (idleIn .idle es).Sound ∧ (idleIn .idle es).regs.seq = .idle ∧ (idleIn .idle es).regs.phase = .idle ∧
      (idleIn .idle es).events = es := ⟨sound_idle _ _, rfl, rfl, rfl⟩

/-- One list of events for each clause. -/
theorem witness_ClaimFailFastRun :
    ∀ es ∈ ([.cmd (encode (.claim true 0 0)) :: (quiet 0 ++ .rsp false [] :: []),
      .cmd (encode (.claim true 0 0)) :: (quiet 0 ++ .rsp true [] :: (quiet 1 ++ .rsp false [] :: [])),
      .cmd (encode (.claim true 0 0)) ::
        (quiet 0 ++ .rsp true [] :: (quiet 1 ++ .rsp true [] :: (quiet 0 ++ .rsp false [] :: []))),
      .cmd (encode (.claim true 0 0)) ::
        (quiet 0 ++ .rsp true [] :: (quiet 1 ++ .rsp true [] :: (quiet 0 ++ .rsp true [] :: [])))] : List (List Event)),
    (idleIn .released es).Sound ∧ (idleIn .released es).regs.seq = .idle ∧
      (idleIn .released es).regs.phase = .released ∧ (idleIn .released es).events = es :=
  fun _ _ => ⟨sound_idle _ _, rfl, rfl, rfl⟩

theorem witness_EnableSucceedsRun :
    let es : List Event := .cmd (encode (.enable 1)) ::
      (quiet 0 ++ .rsp true [] :: (quiet 5 ++ .rsp true (0x01 :: 0x00 :: []) ::
        (quiet 0 ++ .rsp true [] :: (quiet 0 ++ .rsp true (0x03 :: 0x00 :: []) ::
          (quiet 1 ++ .rsp true [] :: (quiet 0 ++ .rsp true (0x07 :: 0x00 :: [0xAA]) :: []))))))
    (idleIn .swon es).Sound ∧ (idleIn .swon es).regs.seq = .idle ∧ (idleIn .swon es).regs.phase = .swon ∧
      (1 : Ticks) ≠ 0 ∧ (0x01#8).getLsbD 0 = true ∧ (0x03#8).getLsbD 1 = true ∧ (0x07#8).getLsbD 2 = true ∧
      (idleIn .swon es).events = es := ⟨sound_idle _ _, rfl, rfl, by decide, by decide, by decide, by decide, rfl⟩

/-- A state for each clause: a failed write in stages 1 and 3, a successful one with a timeout of 0 and of more, one byte, a
deadline at the boundary and at the limit of `el`, and a match in stages 2 and 3. -/
theorem witness_EnableFailureOutcomes :
    ((enableAt 1 .claimed [.rsp false []]).Sound ∧ (enableAt 3 .swon [.rsp false []]).Sound ∧
      (enableAt 3 .swon [.rsp false []]).regs.op = 0x2 ∧ (enableAt 3 .swon [.rsp false []]).regs.seq = .enCw) ∧
    ((enableNoTime [.rsp true []]).Sound ∧ (enableNoTime [.rsp true []]).regs.op = 0x2 ∧
      (enableNoTime [.rsp true []]).regs.seq = .enCw ∧ (enableNoTime [.rsp true []]).regs.timeout = 0) ∧
    ((enableAt 2 .rtso [.rsp true []]).Sound ∧ (enableAt 2 .rtso [.rsp true []]).regs.op = 0x2 ∧
      (enableAt 2 .rtso [.rsp true []]).regs.seq = .enCw ∧ (enableAt 2 .rtso [.rsp true []]).regs.timeout ≠ 0) ∧
    ((enableReads 3 2 .swon [.rsp true [7]]).Sound ∧ (enableReads 3 2 .swon [.rsp true [7]]).regs.seq = .waitRd ∧
      (enableReads 3 2 .swon [.rsp true [7]]).regs.op = 0x2) ∧
    ((enableSleeps 4 5 [.tick]).Sound ∧ (enableSleeps 4 5 [.tick]).regs.seq = .waitSlp ∧
      (enableSleeps 4 5 [.tick]).regs.op = 0x2 ∧ (enableSleeps 4 5 [.tick]).regs.dly = 1 ∧
      (enableSleeps 4 5 [.tick]).regs.timeout.toNat ≤ (enableSleeps 4 5 [.tick]).regs.el.toNat + 1) ∧
    ((enableSleeps 0xFFFFFFFF 0xFFFFFFFF [.tick]).Sound ∧
      (enableSleeps 0xFFFFFFFF 0xFFFFFFFF [.tick]).regs.timeout.toNat ≤
        (enableSleeps 0xFFFFFFFF 0xFFFFFFFF [.tick]).regs.el.toNat + 1) ∧
    ((enableReads 2 1 .rtso [.rsp true [2, 0]]).Sound ∧ (enableReads 2 1 .rtso [.rsp true [2, 0]]).regs.op = 0x2 ∧
      (enableReads 2 1 .rtso [.rsp true [2, 0]]).regs.k ≠ 3 ∧
      (0x00#8 ++ 0x02#8).getLsbD ((enableReads 2 1 .rtso [.rsp true [2, 0]]).regs.k.toNat - 1) = true) ∧
    ((enableReads 3 2 .swon [.rsp true [4, 0]]).Sound ∧ (enableReads 3 2 .swon [.rsp true [4, 0]]).regs.k = 3 ∧
      (0x00#8 ++ 0x04#8).getLsbD 2 = true) :=
  ⟨⟨(sound_enableAt _).1, (sound_enableAt _).2.2, rfl, rfl⟩, ⟨sound_enableNoTime _, rfl, rfl, rfl⟩,
    ⟨(sound_enableAt _).2.1, rfl, rfl, by decide⟩, ⟨(sound_enableReads _).2.2, rfl, rfl⟩,
    ⟨(sound_enableSleeps _).1, rfl, rfl, rfl, by decide⟩, ⟨(sound_enableSleeps _).2.1, by decide⟩,
    ⟨(sound_enableReads _).2.1, rfl, by decide, by decide⟩, ⟨(sound_enableReads _).2.2, rfl, by decide⟩⟩

theorem witness_DisableRun :
    let es : List Event := .cmd (encode .disable) ::
      (quiet 1 ++ .rsp false [] :: (quiet 0 ++ .rsp true [] :: (quiet 2 ++ .rsp false [] :: [])))
    (idleIn .opEnabled es).Sound ∧ (idleIn .opEnabled es).regs.seq = .idle ∧ (idleIn .opEnabled es).events = es :=
  ⟨sound_idle _ _, rfl, rfl⟩

/-- Scenario C, two attempts fail and the third succeeds; Scenario D, the third and last fails too; and a success at the
first of three. The latencies differ. -/
theorem witness_TrigRun :
    ∀ a ∈ ([([(0, []), (2, [1])], true), ([(0, []), (2, [1])], false), ([], true)] :
      List (List (Nat × List Byte) × Bool)),
    let es : List Event := .cmd (encode (.trig 1 3)) :: (failedAttempts 3 a.1 ++ (quiet 1 ++ .rsp a.2 [] :: []))
    (idleIn .opEnabled es).Sound ∧ (idleIn .opEnabled es).regs.seq = .idle ∧
      (idleIn .opEnabled es).regs.phase = .opEnabled ∧ (1 : BitVec 16) ≠ 0 ∧
      (a.1.length < (3 : BitVec 8).toNat ∧ (a.2 = true ∨ a.1.length + 1 = (3 : BitVec 8).toNat)) ∧
      (idleIn .opEnabled es).cfg.retryDelayTicks.toNat = 3 ∧ (idleIn .opEnabled es).events = es := by
  intro a ha
  have hlen : ∀ a ∈ ([([(0, []), (2, [1])], true), ([(0, []), (2, [1])], false), ([], true)] :
      List (List (Nat × List Byte) × Bool)),
      a.1.length < (3 : BitVec 8).toNat ∧ (a.2 = true ∨ a.1.length + 1 = (3 : BitVec 8).toNat) := by decide
  exact ⟨sound_idle _ _, rfl, rfl, by decide, hlen a ha, rfl, rfl⟩

/-- R108, Scenario C: attempts at ticks 10, 13 and 18 when they are answered at once, after 2 ticks, and the delay is 3. -/
theorem test_attempt_ticks : attemptTicks 3 10 [(0, []), (2, [1])] = [10, 13, 18] := by decide

/-- A state for each clause of TrigRun's second part: the last attempt, one before it, and one with a delay of 0. -/
theorem witness_TrigRun_step :
    ((trigAt 3 [.rsp false []]).Sound ∧ (trigAt 3 [.rsp true []]).Sound ∧
      (trigAt 3 [.rsp false []]).regs.seq = .trigWr ∧ (trigAt 3 [.rsp false []]).regs.att = (trigAt 3 []).regs.maxAtt) ∧
    ((trigAt 2 [.rsp false []]).Sound ∧ (trigAt 2 [.rsp false []]).regs.att ≠ (trigAt 2 []).regs.maxAtt ∧
      (trigAt 2 [.rsp false []]).cfg.retryDelayTicks ≠ 0) ∧
    ((trigNoDelay [.rsp false []]).Sound ∧ (trigNoDelay [.rsp false []]).regs.seq = .trigWr ∧
      (trigNoDelay [.rsp false []]).regs.att ≠ (trigNoDelay []).regs.maxAtt ∧
      (trigNoDelay [.rsp false []]).cfg.retryDelayTicks = 0) :=
  ⟨⟨(sound_trigAt _).1, (sound_trigAt _).1, rfl, rfl⟩, ⟨(sound_trigAt _).2, by decide, by decide⟩,
    ⟨sound_trigNoDelay _, rfl, by decide, rfl⟩⟩

theorem witness_StopRun :
    let es : List Event := .cmd (encode .stop) :: (quiet 2 ++ .rsp false [] :: [])
    (idleIn .idle es).Sound ∧ (idleIn .idle es).regs.seq = .idle ∧ (idleIn .idle es).events = es :=
  ⟨sound_idle _ _, rfl, rfl⟩

/-- One payload for each clause. -/
theorem witness_RdstatRun :
    ∀ a ∈ ([(false, []), (false, [7, 0]), (true, []), (true, [7]), (true, [7, 0, 9])] : List (Bool × List Byte)),
    let es : List Event := .cmd (encode .rdstat) :: (quiet 1 ++ .rsp a.1 a.2 :: [])
    (idleIn .claimed es).Sound ∧ (idleIn .claimed es).regs.seq = .idle ∧ (idleIn .claimed es).events = es :=
  fun _ _ => ⟨sound_idle _ _, rfl, rfl⟩

theorem witness_WaitbFirstReadMatches :
    let es : List Event := .cmd (encode (.waitb 15 true 1)) :: (quiet 4 ++ .rsp true (0x00 :: 0x80 :: []) :: [])
    (idleIn .idle es).Sound ∧ (idleIn .idle es).regs.seq = .idle ∧ (1 : Ticks) ≠ 0 ∧
      (0x80#8 ++ 0x00#8).getLsbD (15#4).toNat = true ∧ (idleIn .idle es).events = es :=
  ⟨sound_idle _ _, rfl, by decide, by decide, rfl⟩

/-- Three reads for a timeout of 5 ticks, polled every 2: no match, no answer, an empty answer. -/
theorem witness_WaitbTimesOutRun :
    let ms : List (Bool × List Byte) := [(true, [0, 0]), (false, [1, 0]), (true, [])]
    let es : List Event := .cmd (encode (.waitb 0 true 5)) :: (missedReads 2 ms ++ [])
    (idleIn .idle es).Sound ∧ (idleIn .idle es).regs.seq = .idle ∧ (∀ m ∈ ms, misses 0 true m.1 m.2 = true) ∧
      ms.length = ((5 : Ticks).toNat + (idleIn .idle es).cfg.pollTicks.toNat - 1) /
        (idleIn .idle es).cfg.pollTicks.toNat ∧
      (idleIn .idle es).cfg.pollTicks.toNat = 2 ∧ (idleIn .idle es).events = es :=
  ⟨sound_idle _ _, rfl, by decide, by decide, by decide, rfl⟩

/-- Scenario A's shape: the first read misses and the second matches. -/
theorem witness_WaitbMatchesLaterRun :
    let ms : List (Bool × List Byte) := [(true, [0, 0])]
    let es : List Event :=
      .cmd (encode (.waitb 0 true 3)) :: (missedReads 2 ms ++ .rsp true (0x01 :: 0x00 :: []) :: [])
    (idleIn .idle es).Sound ∧ (idleIn .idle es).regs.seq = .idle ∧ (∀ m ∈ ms, misses 0 true m.1 m.2 = true) ∧
      ms.length * (idleIn .idle es).cfg.pollTicks.toNat < (3 : Ticks).toNat ∧
      (0x00#8 ++ 0x01#8).getLsbD (0#4).toNat = true ∧ (idleIn .idle es).cfg.pollTicks.toNat = 2 ∧
      (idleIn .idle es).events = es := ⟨sound_idle _ _, rfl, by decide, by decide, by decide, by decide, rfl⟩

/-- The second part of WaitbMatchesLaterRun: a read that is not the first, answered after the deadline. -/
theorem witness_WaitbMatchesLaterRun_step :
    (waitbLater [.rsp true [1, 0]]).Sound ∧ (waitbLater [.rsp true [1, 0]]).regs.seq = .waitRd ∧
    (waitbLater [.rsp true [1, 0]]).regs.op = 0x7 ∧
    (0x00#8 ++ 0x01#8).getLsbD (waitbLater [.rsp true [1, 0]]).regs.wBit.toNat =
      (waitbLater [.rsp true [1, 0]]).regs.wTarget ∧
    (waitbLater [.rsp true [1, 0]]).regs.timeout.toNat ≤ (waitbLater [.rsp true [1, 0]]).regs.el.toNat :=
  ⟨sound_waitbLater _, rfl, rfl, by decide, by decide⟩

/-- A failed read, an empty payload, and a word whose bit is not the target, of WAITB and of ENABLE. -/
theorem witness_ReadFailureKeepsWaiting :
    (waitbReads 0 3 [.rsp false [1]]).Sound ∧ (waitbReads 0 3 [.rsp true []]).Sound ∧
    (waitbReads 0 3 [.rsp true []]).regs.seq = .waitRd ∧ (enableReads 1 0 .claimed [.rsp true []]).Sound ∧
    (enableReads 1 0 .claimed [.rsp true []]).regs.seq = .waitRd ∧ (waitbReads 0 3 [.rsp true [1, 0]]).Sound ∧
    (0x00#8 ++ 0x01#8).getLsbD (waitbReads 0 3 []).regs.wBit.toNat ≠ (waitbReads 0 3 []).regs.wTarget ∧
    (enableReads 1 0 .claimed [.rsp true [6, 0]]).Sound ∧
    (0x00#8 ++ 0x06#8).getLsbD (enableReads 1 0 .claimed []).regs.wBit.toNat ≠
      (enableReads 1 0 .claimed []).regs.wTarget :=
  ⟨sound_waitbReads _, sound_waitbReads _, rfl, (sound_enableReads _).1, rfl, sound_waitbReads _, by decide,
    (sound_enableReads _).1, by decide⟩

theorem witness_OneBytePayloadEndsWaitb :
    (waitbReads 0 3 [.rsp true [1]]).Sound ∧ (waitbReads 0 3 [.rsp true [1]]).regs.seq = .waitRd ∧
    (waitbReads 0 3 [.rsp true [1]]).regs.op = 0x7 ∧ (waitbReads 0 3 [.rsp true [1]]).events = .rsp true [1] :: [] :=
  ⟨sound_waitbReads _, rfl, rfl, rfl⟩

/-- A timeout of 3 ticks, polled every 2: both orders. -/
theorem witness_ResponseAndTickOrder :
    ∀ es ∈ ([.rsp true [1, 0] :: .tick :: (quiet 2 ++ []), .tick :: .rsp true [1, 0] :: (quiet 2 ++ [])] :
      List (List Event)),
    (waitbReads 0 3 es).Sound ∧ (waitbReads 0 3 es).regs.seq = .waitRd ∧ (waitbReads 0 3 es).regs.op = 0x7 ∧
      misses (waitbReads 0 3 es).regs.wBit (waitbReads 0 3 es).regs.wTarget true [1, 0] = true ∧
      (waitbReads 0 3 es).regs.el.toNat + (waitbReads 0 3 es).cfg.pollTicks.toNat + 1 =
        (waitbReads 0 3 es).regs.timeout.toNat ∧ (waitbReads 0 3 es).events = es :=
  fun es _ => ⟨sound_waitbReads es, rfl, rfl, by simp [waitbReads, at10, misses], rfl, rfl⟩

end Sys2Proof.Tests
end

section
/-! The configuration (R6, R9): no step changes it, and a step refuses for an ill-formed one and for nothing else. -/

namespace Sys2Proof.Machine

variable {s t : State}

/-! ### The configuration is fixed (R6) -/

/-- A procedure stops with the configuration it was started with, wherever it stops. -/
theorem StopsAt.cfg_eq (h : StopsAt s t) : t.cfg = s.cfg := by
  cases h <;> rfl

theorem onCommand_cfg {w : CmdWord} (h : onCommand w s = .next t) : t.cfg = s.cfg := by
  unfold onCommand at h
  split at h
  · obtain ⟨-, rfl⟩ | ⟨-, hstop⟩ := exec_stops h
    · rfl
    · exact hstop.cfg_eq
  · obtain ⟨-, rfl⟩ | ⟨-, rfl⟩ := acceptIllegal_stops h <;> rfl

theorem onResponse_cfg {ok : Bool} {payload : List Byte} (h : onResponse ok payload s = .next t) :
    t.cfg = s.cfg := by
  obtain ⟨-, rfl⟩ | ⟨-, hstop⟩ := onResponse_stops h
  · rfl
  · exact hstop.cfg_eq

/-- Counting a delay down keeps the configuration if the procedure that goes on at its end does. -/
theorem countDelay_cfg {k : State → Result} (hk : ∀ {u v}, k u = .next v → v.cfg = u.cfg)
    (h : countDelay k s = .next t) : t.cfg = s.cfg := by
  obtain ⟨-, ⟨-, hend⟩ | ⟨-, rfl⟩⟩ := countDelay_cases h
  · exact (hk hend).trans (upd_cfg s _)
  · rfl

theorem onTick_cfg (h : onTick s = .next t) : t.cfg = s.cfg := by
  obtain ⟨-, rfl⟩ | ⟨-, hwait⟩ | ⟨-, htrig⟩ := onTick_cases h
  · rfl
  · exact (countDelay_cfg (fun hu => (waitTest_stops hu).cfg_eq) hwait).trans (countTick_cfg s)
  · exact (countDelay_cfg (fun hu => (trigAttempt_stops hu).cfg_eq) htrig).trans (countTick_cfg s)

theorem onReset_cfg (h : onReset s = .next t) : t.cfg = s.cfg := by
  rw [onReset_eq] at h
  cases h
  rfl

theorem step_cfg (h : step s = .next t) : t.cfg = s.cfg := by
  obtain ⟨-, ⟨-, rfl⟩ | ⟨w, es, -, hcmd⟩ | ⟨ok, p, es, -, hrsp⟩ | ⟨es, -, htick⟩ | ⟨es, -, hreset⟩⟩ := step_cases h
  · rfl
  · exact (onCommand_cfg hcmd :)
  · exact (onResponse_cfg hrsp :)
  · exact (onTick_cfg htick :)
  · exact (onReset_cfg hreset :)

/-- Settles O19: of the five things a step can do (`step_cases`), each keeps the configuration. -/
theorem configurationFixed : Obligations.ConfigurationFixed := fun _ _ => step_cfg

/-! ### No operation refuses

Every procedure ends in a next state or in a fault; the operations that go on with a procedure refuse only if it does. -/

/-- The result is a next state or a fault. -/
def Unrefused (r : Result) : Prop := ∀ why, r ≠ .refused why

@[simp] theorem unrefused_next (t : State) : Unrefused (.next t) := nofun
@[simp] theorem unrefused_fault (f : Fault) : Unrefused (.fault f) := nofun

@[simp] theorem finish_unrefused (code : ResCode) (detail : BitVec 8) (s : State) :
    Unrefused (finish code detail s) := unrefused_next _

@[simp] theorem memWrite_unrefused (label : Seq) (reg : DevReg) (v : List Byte) (s : State) :
    Unrefused (memWrite label reg v s) := unrefused_next _

@[simp] theorem memRead_unrefused (label : Seq) (reg : DevReg) (s : State) : Unrefused (memRead label reg s) :=
  unrefused_next _

theorem sleepThen_unrefused {k : State → Result} (hk : ∀ u, Unrefused (k u)) (label : Seq) (d : Ticks) (s : State) :
    Unrefused (sleepThen label d k s) := by
  unfold sleepThen
  split
  · exact hk s
  · exact unrefused_next _

theorem accept_unrefused {proc : State → Result} (hp : ∀ u, Unrefused (proc u)) (i : Instr) (s : State) :
    Unrefused (accept i proc s) := by
  unfold accept
  split
  · exact unrefused_next s
  · dsimp only
    split
    · exact hp _
    · exact finish_unrefused _ _ _

theorem acceptIllegal_unrefused (w : CmdWord) (s : State) : Unrefused (acceptIllegal w s) := by
  unfold acceptIllegal
  split <;> simp

theorem enableIssue_unrefused (s : State) : Unrefused (enableIssue s) := by
  unfold enableIssue
  split <;> simp

theorem enableAfterWait_unrefused (e : WaitEnd) (s : State) : Unrefused (enableAfterWait e s) := by
  unfold enableAfterWait
  split
  · exact unrefused_fault _
  · cases e with
    | encerr => exact finish_unrefused _ _ _
    | expired => exact finish_unrefused _ _ _
    | matched =>
      dsimp only
      split
      · exact finish_unrefused _ _ _
      · exact enableIssue_unrefused _

theorem waitbAfterWait_unrefused (e : WaitEnd) (s : State) : Unrefused (waitbAfterWait e s) := by
  cases e <;> exact finish_unrefused _ _ _

theorem waitReturn_unrefused (e : WaitEnd) (s : State) : Unrefused (waitReturn e s) := by
  unfold waitReturn
  dsimp only
  split
  · exact waitbAfterWait_unrefused e _
  · split
    · exact enableAfterWait_unrefused e _
    · exact unrefused_fault _

theorem waitTest_unrefused (s : State) : Unrefused (waitTest s) := by
  unfold waitTest
  split
  · exact waitReturn_unrefused _ s
  · exact memRead_unrefused _ _ _

theorem waitResume_unrefused (ok : Bool) (payload : List Byte) (s : State) : Unrefused (waitResume ok payload s) := by
  unfold waitResume
  dsimp only
  split
  · exact waitReturn_unrefused _ _
  · split
    · exact waitReturn_unrefused _ _
    · exact sleepThen_unrefused waitTest_unrefused _ _ _
  · exact sleepThen_unrefused waitTest_unrefused _ _ _

theorem rdstatResume_unrefused (ok : Bool) (payload : List Byte) (s : State) :
    Unrefused (rdstatResume ok payload s) := by
  unfold rdstatResume
  dsimp only
  split <;> exact finish_unrefused _ _ _

theorem claimIssue_unrefused (s : State) : Unrefused (claimIssue s) := by
  unfold claimIssue
  split <;> simp

theorem claimResume_unrefused (ok : Bool) (s : State) : Unrefused (claimResume ok s) := by
  unfold claimResume
  dsimp only
  split
  · exact unrefused_fault _
  · split
    · exact finish_unrefused _ _ _
    · split
      · exact finish_unrefused _ _ _
      · exact claimIssue_unrefused _

theorem enableResume_unrefused (ok : Bool) (s : State) : Unrefused (enableResume ok s) := by
  unfold enableResume
  split
  · exact unrefused_fault _
  · split
    · exact waitTest_unrefused _
    · exact finish_unrefused _ _ _

theorem disableIssue_unrefused (s : State) : Unrefused (disableIssue s) := by
  unfold disableIssue
  split <;> simp

theorem disableResume_unrefused (ok : Bool) (s : State) : Unrefused (disableResume ok s) := by
  unfold disableResume
  dsimp only
  split
  · exact unrefused_fault _
  · split
    · exact finish_unrefused _ _ _
    · exact disableIssue_unrefused _

theorem trigAttempt_unrefused (s : State) : Unrefused (trigAttempt s) := memWrite_unrefused _ _ _ _

theorem trigStart_unrefused (s : State) : Unrefused (trigStart s) := by
  unfold trigStart
  split
  · exact finish_unrefused _ _ _
  · split
    · exact finish_unrefused _ _ _
    · exact trigAttempt_unrefused _

theorem trigResume_unrefused (ok : Bool) (s : State) : Unrefused (trigResume ok s) := by
  unfold trigResume
  split
  · exact finish_unrefused _ _ _
  · split
    · exact finish_unrefused _ _ _
    · exact sleepThen_unrefused trigAttempt_unrefused _ _ _

/-- Each command's procedure starts with one of the operations above. -/
theorem exec_unrefused (i : Instr) (s : State) : Unrefused (exec i s) := by
  cases i with
  | claim ff m v => exact accept_unrefused (fun _ => claimIssue_unrefused _) _ s
  | enable d => exact accept_unrefused (fun _ => enableIssue_unrefused _) _ s
  | disable => exact accept_unrefused (fun _ => disableIssue_unrefused _) _ s
  | trig v n => exact accept_unrefused trigStart_unrefused _ s
  | stop => exact accept_unrefused (fun _ => memWrite_unrefused _ _ _ _) _ s
  | rdstat => exact accept_unrefused (fun _ => memRead_unrefused _ _ _) _ s
  | waitb b v d => exact accept_unrefused (fun _ => waitTest_unrefused _) _ s

theorem resume_unrefused (ok : Bool) (payload : List Byte) (s : State) : Unrefused (resume ok payload s) := by
  unfold resume
  split
  · exact claimResume_unrefused ok s
  · exact enableResume_unrefused ok s
  · exact waitResume_unrefused ok payload s
  · exact disableResume_unrefused ok s
  · exact trigResume_unrefused ok s
  · exact finish_unrefused _ _ _
  · exact rdstatResume_unrefused ok payload s
  all_goals exact unrefused_fault _

theorem onCommand_unrefused (w : CmdWord) (s : State) : Unrefused (onCommand w s) := by
  unfold onCommand
  split
  · exact exec_unrefused _ s
  · exact acceptIllegal_unrefused w s

theorem onResponse_unrefused (ok : Bool) (payload : List Byte) (s : State) : Unrefused (onResponse ok payload s) := by
  unfold onResponse
  dsimp only
  split
  · exact resume_unrefused ok payload _
  · exact unrefused_next _

theorem countDelay_unrefused {k : State → Result} (hk : ∀ u, Unrefused (k u)) (s : State) :
    Unrefused (countDelay k s) := by
  unfold countDelay
  split
  · exact unrefused_fault _
  · dsimp only
    split
    · exact hk _
    · exact unrefused_next _

theorem onTick_unrefused (s : State) : Unrefused (onTick s) := by
  unfold onTick
  split
  · exact countDelay_unrefused waitTest_unrefused _
  · exact countDelay_unrefused trigAttempt_unrefused _
  all_goals exact unrefused_next _

/-! ### Only an ill-formed configuration is refused (R9) -/

theorem wellFormed_iff (c : Cfg) : c.wellFormed = true ↔ 1 ≤ c.pollTicks.toNat := by
  unfold Cfg.wellFormed
  exact decide_eq_true_iff

theorem not_wellFormed_iff (c : Cfg) : ¬ c.wellFormed = true ↔ c.pollTicks = 0 := by
  rw [wellFormed_iff, Nat.not_le, Nat.lt_one_iff]
  exact BitVec.toNat_inj (y := 0)

theorem step_of_not_wellFormed (hw : ¬ s.cfg.wellFormed = true) : step s = .refused .illFormedConfig := if_neg hw

theorem step_unrefused (hw : s.cfg.wellFormed = true) : Unrefused (step s) := by
  unfold step
  rw [if_pos hw]
  split
  · exact unrefused_next s
  · exact onCommand_unrefused _ _
  · exact onResponse_unrefused _ _ _
  · exact onTick_unrefused _
  · rw [onReset_eq]
    exact unrefused_next _

theorem step_refuses_iff (s : State) : (∃ why, step s = .refused why) ↔ ¬ s.cfg.wellFormed = true :=
  ⟨fun ⟨why, h⟩ hw => step_unrefused hw why h, fun hw => ⟨_, step_of_not_wellFormed hw⟩⟩

/-- Settles O18: `step` refuses by its own test of the configuration, and no operation it calls refuses
(`step_unrefused`). -/
theorem illFormedConfigurationRefused : Obligations.IllFormedConfigurationRefused :=
  ⟨wellFormed_iff, fun s => (step_refuses_iff s).trans (not_wellFormed_iff s.cfg),
    fun s h => step_of_not_wellFormed ((not_wellFormed_iff s.cfg).mpr h)⟩

end Sys2Proof.Machine
end

section
/-! The state at reset, the host port, and which event a step takes (R22, R35, R38, R39, R43). -/

namespace Sys2Proof.Machine

variable {s : State}

/-! ### Reset and the host port -/

/-- Settles O10: each register's default is R43's value. -/
theorem resetValues : Obligations.ResetValues := ⟨rfl, rfl, rfl, rfl, rfl⟩

/-- Settles O20: at reset the block is idle, with every timer 0, and its record is empty. -/
theorem resetIsSound : Obligations.ResetIsSound := by
  have hquiet : State.reset.regs.Quiescent := .inl ⟨rfl, rfl⟩
  have htimers : State.reset.regs.TimersAgree := ⟨rfl, fun _ => rfl⟩
  exact ⟨⟨by decide, hquiet, trivial, htimers, nofun⟩, rfl, List.nil_prefix⟩

theorem busy_iff (s : State) : s.busy = true ↔ s.regs.seq ≠ .idle := decide_eq_true_iff

theorem busy_of_seq_ne (h : s.regs.seq ≠ .idle) : s.busy = true := (busy_iff s).mpr h

theorem seq_eq_of_not_busy (h : ¬ s.busy = true) : s.regs.seq = .idle := by
  simpa [busy_iff] using h

/-- R15: no two phases have the same number. -/
theorem phase_code_inj (p q : Phase) : p.code = q.code ↔ p = q := by
  cases p <;> cases q <;> decide

/-- R112: no two outcome codes have the same number. -/
theorem resCode_code_inj (c d : ResCode) : c.code = d.code ↔ c = d := by
  cases c <;> cases d <;> decide

theorem phase_code_le (p : Phase) : p.code.toNat ≤ 5 := by
  cases p <;> decide

theorem resCode_code_range (c : ResCode) : c.code.toNat ≤ 6 ∨ c.code = 0xF := by
  cases c <;> decide

/-- Settles O60: the port shows each phase and each outcome code by its own number. -/
theorem hostPortReads : Obligations.HostPortReads := fun s =>
  have code (c : ResCode) : s.regs.resCode = c ↔ s.hostPort.resCode = c.code := (resCode_code_inj _ c).symm
  have phase (p : Phase) : s.regs.phase = p ↔ s.hostPort.phase = p.code := (phase_code_inj _ p).symm
  ⟨busy_iff s, rfl, rfl, phase_code_le _, resCode_code_range _, code .ok, code .timeout, code .transport,
    code .encoding, code .phase, code .illegal, code .arg, code .none, phase .idle, phase .claimed, phase .rtso,
    phase .swon, phase .opEnabled, phase .released⟩

/-! ### Commands -/

theorem onCommand_of_decode {w : CmdWord} {i : Instr} (h : decode w = .ok i) (s : State) :
    onCommand w s = exec i s := by
  simp only [onCommand, h]

/-- Settles O12: the word at the head of the list is taken, and decodes to `i`. -/
theorem stepRunsTheDecodedCommand : Obligations.StepRunsTheDecodedCommand := fun _ _ _ _ hw hidle hevents hdec =>
  (step_command hw hidle hevents).trans (onCommand_of_decode hdec _)

theorem accept_of_busy (h : s.busy = true) (i : Instr) (proc : State → Result) : accept i proc s = .next s := if_pos h

theorem acceptIllegal_of_busy (h : s.busy = true) (w : CmdWord) : acceptIllegal w s = .next s := if_pos h

/-- Every command starts with its acceptance, and so does nothing while the block is busy (R38). -/
theorem exec_of_busy (h : s.busy = true) (i : Instr) : exec i s = .next s := by
  cases i <;> exact accept_of_busy h _ _

/-- Settles O14. -/
theorem busyCommandNotAccepted : Obligations.BusyCommandNotAccepted := fun _ i w hseq =>
  ⟨exec_of_busy (busy_of_seq_ne hseq) i, acceptIllegal_of_busy (busy_of_seq_ne hseq) w⟩

/-! ### Held words -/

/-- Held words alone give a busy block no event. -/
theorem nextEvent_held (ws : List CmdWord) : nextEvent true (ws.map .cmd) = none := by
  induction ws with
  | nil => rfl
  | cons w ws ih => simp [nextEvent, ih]

/-- A busy block takes the event behind the held words, which stay in their order. -/
theorem nextEvent_behind_held (ws : List CmdWord) {e : Event} {es : List Event}
    (he : nextEvent true (e :: es) = some (e, es)) :
    nextEvent true (ws.map .cmd ++ e :: es) = some (e, ws.map .cmd ++ es) := by
  induction ws with
  | nil => exact he
  | cons w ws ih => simp [nextEvent, ih]

/-- Settles O15: a busy block's next event is the first that is no command. -/
theorem heldCommandsWait : Obligations.HeldCommandsWait := by
  intro s ws es hw hseq
  have hbusy := busy_of_seq_ne hseq
  refine ⟨fun h => ?_, fun ok payload h => ?_, fun h => ?_, fun h => ?_⟩
  · simp only [step, if_pos hw, hbusy, h, nextEvent_held]
  · simp only [step, if_pos hw, hbusy, h, nextEvent_behind_held ws (e := .rsp ok payload) rfl]
  · simp only [step, if_pos hw, hbusy, h, nextEvent_behind_held ws (e := .tick) rfl]
  · simp only [step, if_pos hw, hbusy, h, nextEvent_behind_held ws (e := .reset) rfl]

/-! ### Responses -/

theorem onResponse_unasked (h : s.regs.reqOut = false) (ok : Bool) (payload : List Byte) :
    onResponse ok payload s = .next (s.record (.rsp ok payload)) := by
  simp [onResponse, h]

theorem onResponse_asked (h : s.regs.reqOut = true) (ok : Bool) (payload : List Byte) :
    onResponse ok payload s =
      resume ok payload ((s.record (.rsp ok payload)).upd fun r => { r with reqOut := false }) := if_pos h

/-- Settles O16. -/
theorem unaskedResponseDropped : Obligations.UnaskedResponseDropped := fun s ok payload es hw hreq hevents =>
  (step_response hw hevents).trans (onResponse_unasked (s := { s with events := es }) hreq ok payload)

end Sys2Proof.Machine
end

section
/-! Quiescence and the record of one event (R36, R37): a step ends at once, with at most the event's own entry, or runs a
procedure, which stops at a request, a sleep or `finish` (`StopsAt`). -/

namespace Sys2Proof.Machine

variable {s t : State}

/-! ### The waiting conditions -/

theorem sleeps_of_awaits {q : Seq} (h : q.awaitsResponse = true) : q.sleeps = false := by
  revert h
  cases q <;> decide

theorem sleeps_iff (q : Seq) : q.sleeps = true ↔ q = .waitSlp ∨ q = .trigSlp := by
  cases q <;> decide

theorem Regs.Quiescent.reqOut_of_idle {r : Regs} (hq : r.Quiescent) (h : r.seq = .idle) : r.reqOut = false := by
  obtain ⟨-, hreq⟩ | ⟨hawait, -⟩ | ⟨-, hreq, -⟩ := hq
  · exact hreq
  · rw [h] at hawait
    cases hawait
  · exact hreq

theorem Regs.Quiescent.asleep {r : Regs} (hq : r.Quiescent) (h : r.seq.sleeps = true) :
    r.reqOut = false ∧ 1 ≤ r.dly.toNat := by
  obtain ⟨hidle, -⟩ | ⟨hawait, -⟩ | ⟨-, hdue⟩ := hq
  · rw [hidle] at h
    cases h
  · rw [sleeps_of_awaits hawait] at h
    cases h
  · exact hdue

/-- R36: a request is outstanding exactly where `seq` waits for its response. -/
theorem Regs.Quiescent.reqOut_iff {r : Regs} (hq : r.Quiescent) :
    r.reqOut = true ↔ r.seq.awaitsResponse = true := by
  obtain ⟨hidle, hreq⟩ | ⟨hawait, hreq⟩ | ⟨hsleep, hreq, -⟩ := hq
  · simp [hidle, hreq, Seq.awaitsResponse]
  · simp [hawait, hreq]
  · obtain h | h := (sleeps_iff _).mp hsleep <;> simp [h, hreq, Seq.awaitsResponse]

theorem toNat_pos_of_ne_zero {n : Nat} {v : BitVec n} (h : v ≠ 0) : 1 ≤ v.toNat :=
  Nat.pos_of_ne_zero fun h0 => h (BitVec.eq_of_toNat_eq (h0.trans (by simp)))

/-- A procedure stops in a waiting condition. -/
theorem StopsAt.quiescent (h : StopsAt s t) (hreq : s.regs.reqOut = false) : t.regs.Quiescent := by
  cases h with
  | sent label q r hl => exact .inr (.inl ⟨hl, rfl⟩)
  | slept label d r hl hd hr => exact .inr (.inr ⟨hl, hr.trans hreq, toNat_pos_of_ne_zero hd⟩)
  | finished code detail r hr => exact .inl ⟨rfl, hr.trans hreq⟩

theorem Regs.Quiescent.elapse {r : Regs} (hq : r.Quiescent) : (elapse r).Quiescent := by
  unfold Regs.Quiescent at hq ⊢
  simpa using hq

/-- The waiting condition of a quiescent state, written out: `seq` is in one of the three only. -/
theorem Regs.Quiescent.exclusive {r : Regs} (hq : r.Quiescent) :
    (r.seq = .idle ∧ r.reqOut = false ∧ r.seq.awaitsResponse = false ∧ r.seq.sleeps = false) ∨
    (r.seq ≠ .idle ∧ r.reqOut = true ∧ r.seq.awaitsResponse = true ∧ r.seq.sleeps = false) ∨
    (r.seq ≠ .idle ∧ r.reqOut = false ∧ (r.seq = .waitSlp ∨ r.seq = .trigSlp) ∧ 1 ≤ r.dly.toNat) := by
  obtain ⟨hidle, hreq⟩ | ⟨hawait, hreq⟩ | ⟨hsleep, hreq, hdly⟩ := hq
  · exact .inl ⟨hidle, hreq, by rw [hidle]; rfl, by rw [hidle]; rfl⟩
  · have hne : r.seq ≠ .idle := fun hidle => by rw [hidle] at hawait; cases hawait
    exact .inr (.inl ⟨hne, hreq, hawait, sleeps_of_awaits hawait⟩)
  · have hne : r.seq ≠ .idle := fun hidle => by rw [hidle] at hsleep; cases hsleep
    exact .inr (.inr ⟨hne, hreq, (sleeps_iff _).mp hsleep, hdly⟩)

/-! ### How a step ends -/

/-- The entry of an event in the record (R41). -/
def Obs.isEvent : Obs → Bool
  | .cmd _ => true
  | .rsp _ _ => true
  | .tick => true
  | .reset => true
  | .req _ => false
  | .done _ _ _ _ _ => false

/-- How an event ends in the state `t`, with `h` the record before it: with its own entry alone, or with a procedure
that ran from a state `u` with that entry and no request outstanding. -/
inductive EventEnds (h : List Entry) (t : State) : Prop where
  | observed (e : Entry) (he : e.obs.isEvent = true) (hist : t.history = h ++ [e]) (hq : t.regs.Quiescent)
  | ran (e : Entry) (u : State) (he : e.obs.isEvent = true) (hist : u.history = h ++ [e])
      (hreq : u.regs.reqOut = false) (hstop : StopsAt u t)

theorem onCommand_ends {w : CmdWord} (hq : s.regs.Quiescent) (hidle : s.busy = false)
    (h : onCommand w s = .next t) : EventEnds s.history t := by
  have hreq : s.regs.reqOut = false := hq.reqOut_of_idle (seq_eq_of_not_busy (by simp [hidle]))
  unfold onCommand at h
  split at h
  · obtain ⟨hbusy, -⟩ | ⟨-, hstop⟩ := exec_stops h
    · rw [hidle] at hbusy
      cases hbusy
    · exact .ran _ _ rfl rfl (by simpa using hreq) hstop
  · obtain ⟨hbusy, -⟩ | ⟨-, rfl⟩ := acceptIllegal_stops h
    · rw [hidle] at hbusy
      cases hbusy
    · exact .ran _ (s.record (.cmd w)) rfl rfl hreq (.finished .illegal 0 { s.regs with op := fieldOpc w } rfl)

theorem onResponse_ends {ok : Bool} {payload : List Byte} (hq : s.regs.Quiescent)
    (h : onResponse ok payload s = .next t) : EventEnds s.history t := by
  obtain ⟨-, rfl⟩ | ⟨-, hstop⟩ := onResponse_stops h
  · exact .observed _ rfl rfl hq
  · exact .ran _ _ rfl rfl rfl hstop

/-- A tick of a sleep shortens the delay, or ends it and the command goes on. -/
theorem countDelay_ends {k : State → Result} (hk : ∀ {u v}, k u = .next v → StopsAt u v) (hq : s.regs.Quiescent)
    (hsleep : s.regs.seq.sleeps = true) (h : countDelay k (countTick s) = .next t) : EventEnds s.history t := by
  obtain ⟨hreq, -⟩ := hq.asleep hsleep
  obtain ⟨h0, ⟨-, hend⟩ | ⟨h1, rfl⟩⟩ := countDelay_cases h
  · exact .ran _ _ rfl rfl (by simpa using hreq) (hk hend)
  · have hpos : 1 ≤ ((countTick s).regs.dly - 1).toNat := by bv_omega
    exact .observed _ rfl rfl (.inr (.inr ⟨by simpa using hsleep, by simpa using hreq, hpos⟩))

theorem onTick_ends (hq : s.regs.Quiescent) (h : onTick s = .next t) : EventEnds s.history t := by
  obtain ⟨-, rfl⟩ | ⟨hseq, hwait⟩ | ⟨hseq, htrig⟩ := onTick_cases h
  · exact .observed _ rfl rfl hq.elapse
  · exact countDelay_ends waitTest_stops hq ((sleeps_iff _).mpr (.inl hseq)) hwait
  · exact countDelay_ends trigAttempt_stops hq ((sleeps_iff _).mpr (.inr hseq)) htrig

theorem onReset_ends (h : onReset s = .next t) : EventEnds s.history t := by
  rw [onReset_eq] at h
  cases h
  exact .observed _ rfl rfl (.inl ⟨rfl, rfl⟩)

/-- A command word is an event of an idle block only (R38). -/
theorem not_busy_of_nextEvent_cmd {b : Bool} {w : CmdWord} {l es : List Event}
    (h : nextEvent b l = some (.cmd w, es)) : b = false := by
  cases b with
  | false => rfl
  | true => exact absurd h nextEvent_busy

theorem step_ends (hq : s.regs.Quiescent) (h : step s = .next t) : t = s ∨ EventEnds s.history t := by
  obtain ⟨-, ⟨-, rfl⟩ | ⟨w, es, hnext, hcmd⟩ | ⟨ok, p, es, -, hrsp⟩ | ⟨es, -, htick⟩ | ⟨es, -, hreset⟩⟩ :=
    step_cases h
  · exact .inl rfl
  · exact .inr (onCommand_ends (s := { s with events := es }) hq (not_busy_of_nextEvent_cmd hnext) hcmd)
  · exact .inr (onResponse_ends (s := { s with events := es }) hq hrsp)
  · exact .inr (onTick_ends (s := { s with events := es }) hq htick)
  · exact .inr (onReset_ends (s := { s with events := es }) hreset)

theorem step_quiescent (hq : s.regs.Quiescent) (h : step s = .next t) : t.regs.Quiescent := by
  obtain rfl | hends := step_ends hq h
  · exact hq
  · cases hends with
    | observed e he hist hqt => exact hqt
    | ran e u he hist hreq hstop => exact hstop.quiescent hreq

/-- Settles O23: the block is quiescent at reset, and a procedure stops in a waiting condition (`StopsAt.quiescent`). -/
theorem quiescentAfterEveryEvent : Obligations.QuiescentAfterEveryEvent :=
  ⟨.inl ⟨rfl, rfl⟩, fun _ _ hq h => (step_quiescent hq h).exclusive⟩

/-! ### What an event adds to the record -/

/-- The requests and `done` pulses in a piece of the record (R37). -/
def outputCount (h : List Entry) : Nat := (requestsOf h).length + donesOf h

theorem outputCount_event_cons {e : Entry} (he : e.obs.isEvent = true) (h : List Entry) :
    outputCount (e :: h) = outputCount h := by
  obtain ⟨n, o⟩ := e
  cases o with
  | req q => cases he
  | done code op detail sw valid => cases he
  | _ => rfl

/-- What a procedure adds to the record: nothing in a sleep, else its request or its `done`, which is then the last
entry. -/
theorem StopsAt.added (h : StopsAt s t) (hreq : s.regs.reqOut = false) :
    t.history = s.history ∨
    (∃ q, t.history = s.history ++ [⟨t.ticks, .req q⟩] ∧ t.regs.reqOut = true) ∨
    (t.history = s.history ++ [⟨t.ticks, doneObs t.regs⟩] ∧ t.regs.seq = .idle ∧ t.regs.reqOut = false) := by
  cases h with
  | sent label q r hl => exact .inr (.inl ⟨q, rfl, rfl⟩)
  | slept label d r hl hd hr => exact .inl rfl
  | finished code detail r hr => exact .inr (.inr ⟨rfl, rfl, hr.trans hreq⟩)

/-- Settles O26: after the event's own entry, at most the one entry of the procedure it ran (`StopsAt.added`). -/
theorem oneRequestPerEvent : Obligations.OneRequestPerEvent := by
  intro s t hq h
  obtain rfl | hends := step_ends hq h
  · exact ⟨[], by simp, .inl rfl, by decide⟩
  cases hends with
  | observed e he hist hqt =>
    exact ⟨[e], hist, .inr (.inl ⟨e, rfl⟩), (outputCount_event_cons he []).trans_le zero_le_one⟩
  | ran e u he hist hreq hstop =>
    obtain hadd | ⟨q, hadd, hout⟩ | ⟨hadd, hidle, hout⟩ := hstop.added hreq
    · exact ⟨[e], hadd.trans hist, .inr (.inl ⟨e, rfl⟩), (outputCount_event_cons he []).trans_le zero_le_one⟩
    · exact ⟨[e, ⟨t.ticks, .req q⟩], by simp [hadd, hist], .inr (.inr (.inl ⟨e, q, rfl, hout⟩)),
        (outputCount_event_cons he _).le⟩
    · exact ⟨[e, ⟨t.ticks, doneObs t.regs⟩], by simp [hadd, hist], .inr (.inr (.inr ⟨e, rfl, hidle, hout⟩)),
        (outputCount_event_cons he _).le⟩

end Sys2Proof.Machine
end

section
/-! What a tick does (R40, R86, R87, R94, R106). -/

namespace Sys2Proof.Machine

variable {s t : State}

/-! ### The elapsed time of a wait and the end of a delay -/

theorem elapse_of_inactive {r : Regs} (h : r.wActive = false) : elapse r = r := if_neg (by simp [h])

theorem sat32_succ_of_max {v : BitVec 32} (h : v.toNat = 2 ^ 32 - 1) : sat32 (v.toNat + 1) = v := by
  apply BitVec.eq_of_toNat_eq
  rw [sat32_toNat]
  omega

theorem sat32_succ_of_lt {v : BitVec 32} (h : v.toNat < 2 ^ 32 - 1) : sat32 (v.toNat + 1) = v + 1 := by
  apply BitVec.eq_of_toNat_eq
  rw [sat32_toNat]
  bv_omega

theorem elapse_of_active {r : Regs} (h : r.wActive = true) : elapse r = { r with el := sat32 (r.el.toNat + 1) } :=
  if_pos h

/-- R40 (1): a tick moves `el` only, and never back; a wait's by one, saturating. -/
theorem elapse_eq (r : Regs) :
    ∃ e, elapse r = { r with el := e } ∧ r.el.toNat ≤ e.toNat ∧
      (r.wActive = true → e.toNat = min (r.el.toNat + 1) (2 ^ 32 - 1)) := by
  by_cases hw : r.wActive = true
  · have hlt := r.el.isLt
    have hnext := sat32_toNat (r.el.toNat + 1)
    exact ⟨sat32 (r.el.toNat + 1), if_pos hw, by omega, fun _ => hnext⟩
  · exact ⟨r.el, if_neg hw, le_rfl, fun h => absurd h hw⟩

/-- The last tick of a delay: the command goes on. -/
theorem countDelay_last (h : s.regs.dly = 1) (k : State → Result) :
    countDelay k s = k (s.upd fun r => { r with dly := 0 }) := by
  simp [countDelay, State.upd, h]

theorem onTick_waitSlp_last (hseq : s.regs.seq = .waitSlp) (hd : s.regs.dly = 1) :
    onTick s = waitTest ((countTick s).upd fun r => { r with dly := 0 }) := by
  simp only [onTick, hseq]
  exact countDelay_last (by simpa using hd) _

theorem onTick_trigSlp_last (hseq : s.regs.seq = .trigSlp) (hd : s.regs.dly = 1) :
    onTick s = trigAttempt ((countTick s).upd fun r => { r with dly := 0 }) := by
  simp only [onTick, hseq]
  exact countDelay_last (by simpa using hd) _

/-- Soundness is about the registers, not about the events still to come. -/
theorem State.Sound.withEvents (hs : s.Sound) (es : List Event) : ({ s with events := es } : State).Sound := hs

/-! ### What follows the end of a delay -/

theorem waitTest_of_lt (h : s.regs.el.toNat < s.regs.timeout.toNat) :
    waitTest s = .next (send .waitRd (readStatus s.cfg)
      (s.upd fun r => { r with polls := sat32 (r.polls.toNat + 1) })) :=
  if_neg (BitVec.not_le.mpr (BitVec.lt_def.mpr h))

/-- WAITB at its deadline (R94). -/
theorem waitTest_expired_waitb (h : s.regs.timeout.toNat ≤ s.regs.el.toNat) (hop : s.regs.op = 0x7) :
    waitTest s = finish .timeout (sat8 s.regs.polls.toNat) (s.upd fun r => { r with wActive := false }) := by
  have hle : s.regs.timeout ≤ s.regs.el := BitVec.le_def.mpr h
  simp [waitTest, hle, waitReturn, hop, waitbAfterWait]

/-- What soundness says of the last tick of a wait's delay (R29, R93). -/
theorem State.Sound.waitSlp_last (hs : s.Sound) (hseq : s.regs.seq = .waitSlp) (hd : s.regs.dly = 1) :
    s.regs.wActive = true ∧
      (s.regs.polls.toNat * s.cfg.pollTicks.toNat ≤ s.regs.el.toNat + 1 ∨ s.regs.el.toNat = 2 ^ 32 - 1) := by
  obtain ⟨-, -, -, ⟨hw, -⟩, hpolls⟩ := hs
  have hin : s.regs.seq.inWait = true := by rw [hseq]; rfl
  obtain ⟨-, -, -, hdelay⟩ := hpolls hin
  obtain ⟨-, hdue⟩ := hdelay hseq
  rw [hd] at hdue
  exact ⟨hw.trans hin, hdue⟩

/-- The end of a wait's delay before the deadline: the next read, counted without saturating. -/
theorem waitSlp_last_reads (hs : s.Sound) (hseq : s.regs.seq = .waitSlp) (hd : s.regs.dly = 1)
    (hlt : s.regs.el.toNat + 1 < s.regs.timeout.toNat) :
    waitTest ((countTick s).upd fun r => { r with dly := 0 }) =
      .next { s with
        regs := { elapse s.regs with dly := 0, polls := s.regs.polls + 1, reqOut := true, seq := .waitRd }
        ticks := s.ticks + 1
        history := s.history ++ [⟨s.ticks + 1, .tick⟩, ⟨s.ticks + 1, .req (readStatus s.cfg)⟩] } := by
  obtain ⟨hactive, hdue⟩ := hs.waitSlp_last hseq hd
  obtain ⟨hwf, -⟩ := hs
  have hpoll := (wellFormed_iff _).mp hwf
  have htime := s.regs.timeout.isLt
  have hmul := Nat.le_mul_of_pos_right s.regs.polls.toNat hpoll
  have hpolls : sat32 (s.regs.polls.toNat + 1) = s.regs.polls + 1 := sat32_succ_of_lt (by omega)
  have hel : (sat32 (s.regs.el.toNat + 1)).toNat < s.regs.timeout.toNat := by
    rw [sat32_toNat]
    omega
  have helapse := elapse_of_active hactive
  rw [waitTest_of_lt (by simpa [helapse] using hel)]
  simp [send, State.upd, State.record, countTick, helapse, hpolls]

/-- The end of WAITB's last delay. -/
theorem waitSlp_last_expires (hs : s.Sound) (hseq : s.regs.seq = .waitSlp) (hd : s.regs.dly = 1) (hop : s.regs.op = 0x7)
    (hle : s.regs.timeout.toNat ≤ s.regs.el.toNat + 1) :
    waitTest ((countTick s).upd fun r => { r with dly := 0 }) =
      .next { s with
        regs := { elapse s.regs with
          dly := 0, wActive := false, seq := .idle, resCode := .timeout, resOp := 0x7,
          resDetail := BitVec.ofNat 8 (min s.regs.polls.toNat 255), resSw := s.regs.lastSw,
          resSwValid := s.regs.lastSwValid }
        ticks := s.ticks + 1
        history := s.history ++ [⟨s.ticks + 1, .tick⟩,
          ⟨s.ticks + 1, .done .timeout 0x7 (BitVec.ofNat 8 (min s.regs.polls.toNat 255)) s.regs.lastSw
            s.regs.lastSwValid⟩] } := by
  obtain ⟨hactive, -⟩ := hs.waitSlp_last hseq hd
  obtain ⟨e, he, -, hnext⟩ := elapse_eq s.regs
  have hnext := hnext hactive
  have htime := s.regs.timeout.isLt
  have hdeadline : s.regs.timeout.toNat ≤ e.toNat := by omega
  rw [waitTest_expired_waitb (by simpa [he] using hdeadline) (by simpa using hop), finish_eq]
  simp [State.upd, State.record, countTick, finishRegs, doneObs, reportsStatus, he, hop, sat8]

/-- The end of TRIG's delay (R106). -/
theorem trigAttempt_countTick (s : State) :
    trigAttempt ((countTick s).upd fun r => { r with dly := 0 }) =
      .next { s with
        regs := { elapse s.regs with dly := 0, att := s.regs.att + 1, reqOut := true, seq := .trigWr }
        ticks := s.ticks + 1
        history := s.history ++ [⟨s.ticks + 1, .tick⟩,
          ⟨s.ticks + 1, .req (writeTo s.cfg .jog
            [s.regs.jogValue.extractLsb' 0 8, s.regs.jogValue.extractLsb' 8 8])⟩] } := by
  obtain ⟨e, he, -⟩ := elapse_eq s.regs
  simp [trigAttempt, memWrite, send, State.upd, State.record, countTick, writeTo, encU16, he]

/-- Settles O17: the registers of the statement are `elapse`'s. -/
theorem tickCounts : Obligations.TickCounts := by
  intro s es hw hevents
  have hstep := step_tick hw hevents
  have hwaitEnd := onTick_waitSlp_last (s := { s with events := es })
  have htrigEnd := onTick_trigSlp_last (s := { s with events := es })
  refine ⟨elapse s.regs, elapse_of_inactive, fun hactive hmax => ?_, fun hactive hlt => ?_, fun hwait htrig => ?_,
    fun hseq hd => ?_, fun hd hseq => ?_, fun hd hseq => ?_, fun hs hd hseq hlt => ?_, fun hs hd hseq hop hle => ?_,
    fun _ hd hseq => ?_⟩
  · rw [elapse_of_active hactive, sat32_succ_of_max hmax]
  · rw [elapse_of_active hactive, sat32_succ_of_lt hlt]
  · have hawake : s.regs.seq.sleeps = false := by simp [← Bool.not_eq_true, sleeps_iff, hwait, htrig]
    exact hstep.trans (onTick_awake hawake)
  · refine (hstep.trans (onTick_asleep ((sleeps_iff _).mpr hseq) hd)).trans ?_
    simp [State.upd, countTick]
  · exact hstep.trans (hwaitEnd hseq hd)
  · exact hstep.trans (htrigEnd hseq hd)
  · exact hstep.trans ((hwaitEnd hseq hd).trans (waitSlp_last_reads (hs.withEvents es) hseq hd hlt))
  · exact hstep.trans ((hwaitEnd hseq hd).trans (waitSlp_last_expires (hs.withEvents es) hseq hd hop hle))
  · exact hstep.trans ((htrigEnd hseq hd).trans (trigAttempt_countTick _))

end Sys2Proof.Machine
end

section
/-! Soundness (R28, R29, R36, R93): each procedure, started in a state that its callers leave, answers a sound state. -/

namespace Sys2Proof.Machine

variable {s t : State}

/-! ### The conditions between two wait points -/

/-- A procedure runs outside a wait (R37): no request is outstanding, no wait and no delay is running. -/
structure State.Running (s : State) : Prop where
  wf : s.cfg.wellFormed = true
  reqOut : s.regs.reqOut = false
  wActive : s.regs.wActive = false
  dly : s.regs.dly = 0

/-- A procedure runs inside a wait (R86): it holds the operands of its caller. -/
structure State.Polling (s : State) : Prop where
  wf : s.cfg.wellFormed = true
  reqOut : s.regs.reqOut = false
  wActive : s.regs.wActive = true
  dly : s.regs.dly = 0
  inWait : s.regs.InWait

/-- R93: the next read of the wait is due, a delay after each read before it: `el >= polls * POLL_TICKS`, unless `el` is
saturated. -/
def State.ReadDue (s : State) : Prop :=
  s.regs.polls.toNat * s.cfg.pollTicks.toNat ≤ s.regs.el.toNat ∨ s.regs.el.toNat = 2 ^ 32 - 1

/-- The status word, its validity and the alarm (R19, R20). -/
def Regs.marks (r : Regs) : Word16 × Bool × Bool := (r.lastSw, r.lastSwValid, r.stopFail)

theorem marks_eq_iff {r r' : Regs} :
    r.marks = r'.marks ↔ r.lastSw = r'.lastSw ∧ r.lastSwValid = r'.lastSwValid ∧ r.stopFail = r'.stopFail := by
  simp [Regs.marks]

/-- A procedure answers a sound state, with the status word and the alarm of the registers `r`. -/
def EndsSound (res : Result) (r : Regs) : Prop := ∃ t, res = .next t ∧ t.Sound ∧ t.regs.marks = r.marks

theorem EndsSound.congr {res : Result} {r r' : Regs} (h : EndsSound res r) (hr : r.marks = r'.marks) :
    EndsSound res r' := by
  obtain ⟨t, ht, hsound, hm⟩ := h
  exact ⟨t, ht, hsound, hm.trans hr⟩

theorem EndsSound.exists_next {res : Result} {r : Regs} (h : EndsSound res r) : ∃ t, res = .next t ∧ t.Sound := by
  obtain ⟨t, ht, hsound, -⟩ := h
  exact ⟨t, ht, hsound⟩

/-! ### The ways a procedure stops -/

theorem finish_sound (hs : s.Running) (code : ResCode) (detail : BitVec 8) :
    EndsSound (finish code detail s) s.regs :=
  ⟨_, rfl, ⟨hs.wf, .inl ⟨rfl, hs.reqOut⟩, trivial, ⟨rfl, fun _ => rfl⟩, nofun⟩, rfl⟩

/-- A request outside a wait. -/
theorem send_sound {label : Seq} (q : Request) (hs : s.Running) (hl : label.awaitsResponse = true)
    (hw : label.inWait = false) (hc : ({ s.regs with reqOut := true, seq := label } : Regs).InCommand) :
    EndsSound (.next (send label q s)) s.regs :=
  ⟨_, rfl, ⟨hs.wf, .inr (.inl ⟨hl, rfl⟩), hc, ⟨hs.wActive.trans hw.symm, fun _ => hs.dly⟩,
    fun h => absurd (hw.symm.trans h) nofun⟩, rfl⟩

/-! ### ENABLE's stages and the wait (R86 to R91, R97) -/

/-- The indices of the stages and of the writes (R29). -/
theorem index_cases {k : BitVec 2} (h : k ≠ 0) : k = 1 ∨ k = 2 ∨ k = 3 := by
  revert k
  decide

theorem add_one_ne_zero_of_ne_three {k : BitVec 2} (h : k ≠ 3) : k + 1 ≠ 0 := by
  revert k
  decide

/-- R97's table, for the three stages: the wait tests bit k-1, and the phase is the one the next stage starts from. -/
theorem stage_cases {k : BitVec 2} (h : k ≠ 0) :
    ∃ st, stage k = some st ∧ st.bit.toNat + 1 = k.toNat ∧
      (k ≠ 3 → st.nextPhase = phaseBefore (k + 1)) := by
  obtain rfl | rfl | rfl := index_cases h <;> exact ⟨_, rfl, by decide, by decide⟩

theorem enableIssue_sound (hs : s.Running) (hst : s.regs.InStage) : EndsSound (enableIssue s) s.regs := by
  obtain ⟨-, hk, -⟩ := id hst
  obtain ⟨st, hstage, -⟩ := stage_cases hk
  simp only [enableIssue, hstage]
  exact send_sound _ hs rfl rfl hst

theorem enableAfterWait_sound (e : WaitEnd) (hs : s.Running) (hst : s.regs.InStage) :
    EndsSound (enableAfterWait e s) s.regs := by
  obtain ⟨hop, hk, -⟩ := hst
  obtain ⟨st, hstage, -, hnext⟩ := stage_cases hk
  simp only [enableAfterWait, hstage]
  cases e with
  | encerr => exact finish_sound hs _ _
  | expired => exact finish_sound hs _ _
  | matched =>
    dsimp only
    split
    · have hrun : (s.upd fun r => { r with phase := st.nextPhase }).Running :=
        ⟨hs.wf, hs.reqOut, hs.wActive, hs.dly⟩
      exact finish_sound hrun _ _
    · rename_i h3
      exact enableIssue_sound ⟨hs.wf, hs.reqOut, hs.wActive, hs.dly⟩
        ⟨hop, add_one_ne_zero_of_ne_three h3, hnext h3⟩

theorem waitbAfterWait_sound (e : WaitEnd) (hs : s.Running) : EndsSound (waitbAfterWait e s) s.regs := by
  cases e <;> exact finish_sound hs _ _

/-- A wait returns to the command that called it (R86), and one did. -/
theorem waitReturn_sound (e : WaitEnd) (hs : s.Polling) : EndsSound (waitReturn e s) s.regs := by
  have hrun : (s.upd fun r => { r with wActive := false }).Running := ⟨hs.wf, hs.reqOut, rfl, hs.dly⟩
  obtain hop | ⟨⟨hop, hk, hphase⟩, -⟩ := hs.inWait
  · simp only [waitReturn, hop, if_true]
    exact waitbAfterWait_sound e hrun
  · simp only [waitReturn, hop]
    exact enableAfterWait_sound e hrun ⟨hop, hk, hphase⟩

/-- R93: a read that is due before the deadline is neither too early nor one too many. -/
theorem waitTest_sound (hs : s.Polling) (hdue : s.ReadDue) : EndsSound (waitTest s) s.regs := by
  have hpoll : 1 ≤ s.cfg.pollTicks.toNat := (wellFormed_iff _).mp hs.wf
  unfold waitTest
  split
  · exact waitReturn_sound .expired hs
  · rename_i hle
    have hel : s.regs.el.toNat < s.regs.timeout.toNat := BitVec.lt_def.mp (BitVec.not_le.mp hle)
    have htime := s.regs.timeout.isLt
    have hreads : s.regs.polls.toNat * s.cfg.pollTicks.toNat ≤ s.regs.el.toNat :=
      hdue.resolve_right (by omega)
    have hpolls : s.regs.polls.toNat ≤ s.regs.el.toNat := (Nat.le_mul_of_pos_right _ hpoll).trans hreads
    have hcount : (sat32 (s.regs.polls.toNat + 1)).toNat = s.regs.polls.toNat + 1 := by
      rw [sat32_toNat]
      omega
    refine ⟨_, rfl, ⟨hs.wf, .inr (.inl ⟨rfl, rfl⟩), hs.inWait, ⟨hs.wActive, fun _ => hs.dly⟩, fun _ => ?_⟩, rfl⟩
    simp only [send_regs, send_cfg, upd_regs, upd_cfg, hcount, Nat.add_sub_cancel]
    exact ⟨by omega, hreads, by omega, nofun⟩

/-- A wait's start (R86): its counters are 0, so its first read is due. -/
theorem waitStart_sound (hs : s.Running) (hwait : s.regs.InWait) :
    EndsSound (waitStart s) { s.regs with lastSwValid := false } :=
  waitTest_sound ⟨hs.wf, hs.reqOut, rfl, hs.dly, hwait⟩ (.inl (by simp))

theorem State.Polling.noted (hs : s.Polling) (c : ReadClass) : (s.upd (noteStatus c)).Polling := by
  cases c <;> exact ⟨hs.wf, hs.reqOut, hs.wActive, hs.dly, hs.inWait⟩

/-- R93: the reads sent so far, each no earlier than its delays allow and before the deadline. -/
def ReadsTimely (c : Cfg) (r : Regs) : Prop :=
  1 ≤ r.polls.toNat ∧ (r.polls.toNat - 1) * c.pollTicks.toNat ≤ r.el.toNat ∧
    (r.polls.toNat - 1) * c.pollTicks.toNat < r.timeout.toNat

/-- R89: the inter-poll delay, after which the next read will be due. -/
theorem waitSleep_sound (hs : s.Polling) (hreads : ReadsTimely s.cfg s.regs) :
    EndsSound (sleepThen .waitSlp s.cfg.pollTicks waitTest s) s.regs := by
  have hpoll : 1 ≤ s.cfg.pollTicks.toNat := (wellFormed_iff _).mp hs.wf
  have hne : s.cfg.pollTicks ≠ 0 := fun h0 => by simp [h0] at hpoll
  obtain ⟨hpos, hel, htime⟩ := hreads
  have hnext : s.regs.polls.toNat * s.cfg.pollTicks.toNat ≤ s.regs.el.toNat + s.cfg.pollTicks.toNat := by
    obtain ⟨n, hn⟩ := Nat.exists_eq_add_of_le' hpos
    rw [hn, Nat.add_sub_cancel] at hel
    rw [hn, Nat.succ_mul]
    omega
  unfold sleepThen
  rw [if_neg hne]
  exact ⟨_, rfl, ⟨hs.wf, .inr (.inr ⟨rfl, hs.reqOut, hpoll⟩), hs.inWait, ⟨hs.wActive, nofun⟩,
    fun _ => ⟨hpos, hel, htime, fun _ => ⟨le_rfl, .inl hnext⟩⟩⟩, rfl⟩

/-- R88 to R91: a read ends the wait or is followed by the delay. -/
theorem waitResume_sound (ok : Bool) (payload : List Byte) (hs : s.Polling) (hreads : ReadsTimely s.cfg s.regs) :
    EndsSound (waitResume ok payload s) (noteStatus (readClass ok payload) s.regs) := by
  unfold waitResume
  have hnoted := hs.noted (readClass ok payload)
  cases hc : readClass ok payload with
  | encerr => exact waitReturn_sound .encerr (hc ▸ hnoted)
  | readfail => exact waitSleep_sound (s := s.upd (noteStatus .readfail)) (hc ▸ hnoted) hreads
  | sw v =>
    dsimp only
    split
    · exact waitReturn_sound .matched (hc ▸ hnoted)
    · exact waitSleep_sound (s := s.upd (noteStatus (.sw v))) (hc ▸ hnoted) hreads

theorem enableStart_sound (hs : s.Running) (hop : s.regs.op = 0x2) :
    EndsSound (enableStart s) { s.regs with lastSwValid := false } :=
  enableIssue_sound (s := s.upd fun r => { r with phase := .claimed, lastSwValid := false, k := 1 })
    ⟨hs.wf, hs.reqOut, hs.wActive, hs.dly⟩ ⟨hop, by simp, rfl⟩

/-- ENABLE's wait for a stage has the operands of R97. -/
theorem enableResume_sound (ok : Bool) (hs : s.Running) (hst : s.regs.InStage) :
    EndsSound (enableResume ok s) { s.regs with lastSwValid := !ok && s.regs.lastSwValid } := by
  obtain ⟨hop, hk, hphase⟩ := hst
  obtain ⟨st, hstage, hbit, -⟩ := stage_cases hk
  simp only [enableResume, hstage]
  cases ok with
  | false => exact finish_sound hs _ _
  | true =>
    have hrun : (s.upd fun r => { r with wBit := st.bit, wTarget := true }).Running :=
      ⟨hs.wf, hs.reqOut, hs.wActive, hs.dly⟩
    exact waitStart_sound hrun (.inr ⟨⟨hop, hk, hphase⟩, hbit, rfl⟩)

/-! ### CLAIM and DISABLE (R96, R102) -/

/-- `mask` has a bit for each write so far only. -/
theorem maskAfter_lt (ok : Bool) {r : Regs} (hk : r.k ≠ 0) (hk3 : r.k ≠ 3)
    (hm : r.mask.toNat < 2 ^ (r.k.toNat - 1)) : (maskAfter ok r).toNat < 2 ^ ((r.k + 1).toNat - 1) := by
  have hbits : ∀ (k : BitVec 2) (m : BitVec 3), k ≠ 0 → k ≠ 3 → m.toNat < 2 ^ (k.toNat - 1) →
      m.toNat < 2 ^ ((k + 1).toNat - 1) ∧ (setMaskBit m k).toNat < 2 ^ ((k + 1).toNat - 1) := by decide
  obtain ⟨hsame, hset⟩ := hbits r.k r.mask hk hk3 hm
  cases ok with
  | true => exact hsame
  | false => exact hset

theorem claimWrite_isSome {r : Regs} (hk : r.k ≠ 0) : ∃ p, claimWrite r = some p := by
  obtain h | h | h := index_cases hk <;> simp [claimWrite, h]

theorem disableWrite_isSome {k : BitVec 2} (hk : k ≠ 0) : ∃ p, disableWrite k = some p := by
  obtain h | h | h := index_cases hk <;> simp [disableWrite, h]

/-- CLAIM is at setup write `k`, in a phase CLAIM is allowed in (R95, R96). -/
def Regs.InClaim (r : Regs) : Prop :=
  r.op = 0x1 ∧ r.k ≠ 0 ∧ (r.phase = .idle ∨ r.phase = .released) ∧ r.mask.toNat < 2 ^ (r.k.toNat - 1)

/-- DISABLE is at cleanup write `k` (R102). -/
def Regs.InDisable (r : Regs) : Prop := r.op = 0x3 ∧ r.k ≠ 0 ∧ r.mask.toNat < 2 ^ (r.k.toNat - 1)

theorem claimIssue_sound (hs : s.Running) (hc : s.regs.InClaim) : EndsSound (claimIssue s) s.regs := by
  obtain ⟨-, hk, -⟩ := id hc
  obtain ⟨⟨reg, v⟩, hw⟩ := claimWrite_isSome hk
  simp only [claimIssue, hw]
  exact send_sound _ hs rfl rfl hc

theorem claimStart_sound (hs : s.Running) (hop : s.regs.op = 0x1)
    (hphase : s.regs.phase = .idle ∨ s.regs.phase = .released) : EndsSound (claimStart s) s.regs :=
  claimIssue_sound (s := s.upd fun r => { r with mask := 0, k := 1 }) ⟨hs.wf, hs.reqOut, hs.wActive, hs.dly⟩
    ⟨hop, by simp, hphase, by simp⟩

theorem claimResume_sound (ok : Bool) (hs : s.Running) (hc : s.regs.InClaim) :
    EndsSound (claimResume ok s) s.regs := by
  obtain ⟨hop, hk, hphase, hmask⟩ := hc
  unfold claimResume
  dsimp only
  rw [if_neg hk]
  split
  · have hrun : (s.upd fun r => { r with mask := maskAfter ok s.regs }).Running :=
      ⟨hs.wf, hs.reqOut, hs.wActive, hs.dly⟩
    exact finish_sound hrun _ _
  · split
    · have hrun : (s.upd fun r => { r with mask := maskAfter ok s.regs, phase := .claimed }).Running :=
        ⟨hs.wf, hs.reqOut, hs.wActive, hs.dly⟩
      exact finish_sound hrun _ _
    · rename_i hk3
      exact claimIssue_sound ⟨hs.wf, hs.reqOut, hs.wActive, hs.dly⟩
        ⟨hop, add_one_ne_zero_of_ne_three hk3, hphase, maskAfter_lt ok hk hk3 hmask⟩

theorem disableIssue_sound (hs : s.Running) (hc : s.regs.InDisable) : EndsSound (disableIssue s) s.regs := by
  obtain ⟨-, hk, -⟩ := id hc
  obtain ⟨⟨reg, v⟩, hw⟩ := disableWrite_isSome hk
  simp only [disableIssue, hw]
  exact send_sound _ hs rfl rfl hc

theorem disableStart_sound (hs : s.Running) (hop : s.regs.op = 0x3) : EndsSound (disableStart s) s.regs :=
  disableIssue_sound (s := s.upd fun r => { r with mask := 0, k := 1 }) ⟨hs.wf, hs.reqOut, hs.wActive, hs.dly⟩
    ⟨hop, by simp, by simp⟩

theorem disableResume_sound (ok : Bool) (hs : s.Running) (hc : s.regs.InDisable) :
    EndsSound (disableResume ok s) { s.regs with stopFail := alarmAfter ok s.regs } := by
  obtain ⟨hop, hk, hmask⟩ := hc
  unfold disableResume
  dsimp only
  rw [if_neg hk]
  split
  · have hrun : (s.upd fun r =>
        { r with mask := maskAfter ok s.regs, stopFail := alarmAfter ok r, phase := .released }).Running :=
      ⟨hs.wf, hs.reqOut, hs.wActive, hs.dly⟩
    exact finish_sound hrun _ _
  · rename_i hk3
    exact disableIssue_sound ⟨hs.wf, hs.reqOut, hs.wActive, hs.dly⟩
      ⟨hop, add_one_ne_zero_of_ne_three hk3, maskAfter_lt ok hk hk3 hmask⟩

/-! ### TRIG and STOP (R106, R110) -/

/-- TRIG may make one more attempt (R106). -/
structure Regs.TrigDue (r : Regs) : Prop where
  op : r.op = 0x4
  phase : r.phase = .opEnabled
  jogValue : r.jogValue ≠ 0
  att : r.att.toNat < r.maxAtt.toNat

theorem trigAttempt_sound (hs : s.Running) (hd : s.regs.TrigDue) : EndsSound (trigAttempt s) s.regs := by
  have hmax := s.regs.maxAtt.isLt
  have hatt := hd.att
  have hcount : (s.regs.att + 1).toNat = s.regs.att.toNat + 1 := by bv_omega
  have hrun : (s.upd fun r => { r with att := r.att + 1 }).Running := ⟨hs.wf, hs.reqOut, hs.wActive, hs.dly⟩
  have hone : 1 ≤ (s.regs.att + 1).toNat := by omega
  have hle : (s.regs.att + 1).toNat ≤ s.regs.maxAtt.toNat := by omega
  exact send_sound _ hrun rfl rfl ⟨hd.op, hd.phase, hd.jogValue, hone, hle⟩

theorem trigStart_sound (hs : s.Running) (hop : s.regs.op = 0x4) (hphase : s.regs.phase = .opEnabled) :
    EndsSound (trigStart s) s.regs := by
  unfold trigStart
  split
  · exact finish_sound hs _ _
  · rename_i hvalue
    split
    · exact finish_sound hs _ _
    · rename_i hmax
      exact trigAttempt_sound ⟨hs.wf, hs.reqOut, hs.wActive, hs.dly⟩
        ⟨hop, hphase, hvalue, toNat_pos_of_ne_zero hmax⟩

theorem trigResume_sound (ok : Bool) (hs : s.Running) (ht : s.regs.InTrig) :
    EndsSound (trigResume ok s) s.regs := by
  obtain ⟨hop, hphase, hvalue, hatt, hle⟩ := ht
  unfold trigResume
  split
  · exact finish_sound hs _ _
  · split
    · exact finish_sound hs _ _
    · rename_i hne
      have hlt : s.regs.att.toNat < s.regs.maxAtt.toNat :=
        lt_of_le_of_ne hle fun h => hne (BitVec.eq_of_toNat_eq h)
      unfold sleepThen
      split
      · exact trigAttempt_sound hs ⟨hop, hphase, hvalue, hlt⟩
      · rename_i hdelay
        exact ⟨_, rfl, ⟨hs.wf, .inr (.inr ⟨rfl, hs.reqOut, toNat_pos_of_ne_zero hdelay⟩),
          ⟨⟨hop, hphase, hvalue, hatt, hle⟩, hlt⟩, ⟨hs.wActive, nofun⟩, nofun⟩, rfl⟩

theorem stopStart_sound (hs : s.Running) (hop : s.regs.op = 0x5) : EndsSound (stopStart s) s.regs :=
  send_sound (label := .stopWr) _ hs rfl rfl hop

theorem stopResume_sound (ok : Bool) (hs : s.Running) :
    EndsSound (stopResume ok s) { s.regs with stopFail := !ok } := by
  have hrun : (s.upd fun r => { r with stopFail := !ok }).Running := ⟨hs.wf, hs.reqOut, hs.wActive, hs.dly⟩
  exact finish_sound hrun _ _

/-! ### RDSTAT (R85) -/

theorem rdstatStart_sound (hs : s.Running) (hop : s.regs.op = 0x6) :
    EndsSound (rdstatStart s) { s.regs with lastSwValid := false } := by
  have hrun : (s.upd fun r => { r with lastSwValid := false }).Running := ⟨hs.wf, hs.reqOut, hs.wActive, hs.dly⟩
  exact send_sound _ hrun rfl rfl hop

theorem State.Running.noted (hs : s.Running) (c : ReadClass) : (s.upd (noteStatus c)).Running := by
  cases c <;> exact ⟨hs.wf, hs.reqOut, hs.wActive, hs.dly⟩

theorem rdstatResume_sound (ok : Bool) (payload : List Byte) (hs : s.Running) :
    EndsSound (rdstatResume ok payload s) (noteStatus (readClass ok payload) s.regs) := by
  unfold rdstatResume
  dsimp only
  split <;> exact finish_sound (hs.noted (readClass ok payload)) _ _

end Sys2Proof.Machine
end

section
/-! Soundness of every step (R35): each event starts its procedure where the procedure needs it, and so the block never
stops. -/

namespace Sys2Proof.Machine

variable {s t : State}

/-! ### Accepting a command (R38, R95, R116) -/

/-- What a sound idle block is before a command. -/
theorem State.Sound.running_of_idle (hs : s.Sound) (hidle : s.regs.seq = .idle) : s.Running := by
  obtain ⟨hwf, hq, -, ⟨hw, hdly⟩, -⟩ := hs
  rw [hidle] at hw hdly
  exact ⟨hwf, hq.reqOut_of_idle hidle, hw, hdly rfl⟩

theorem State.Running.accepted (hs : s.Running) (i : Instr) :
    ((s.record (.cmd (encode i))).upd (latch i)).Running :=
  ⟨hs.wf, by simpa using hs.reqOut, by simpa using hs.wActive, by simpa using hs.dly⟩

theorem latch_marks (i : Instr) (r : Regs) : (latch i r).marks = r.marks := by
  simp [Regs.marks]

/-- A command word answers a sound state, with the status word and the alarm as they were; the word may be marked
invalid (R19). -/
def StartsSound (res : Result) (r : Regs) : Prop := ∃ v, EndsSound res { r with lastSwValid := v }

theorem EndsSound.starts {res : Result} {r : Regs} (h : EndsSound res r) : StartsSound res r := ⟨r.lastSwValid, h⟩

theorem EndsSound.starts_invalid {res : Result} {r : Regs} (h : EndsSound res { r with lastSwValid := false }) :
    StartsSound res r := ⟨false, h⟩

theorem StartsSound.exists_next {res : Result} {r : Regs} (h : StartsSound res r) : ∃ t, res = .next t ∧ t.Sound := by
  obtain ⟨_, hend⟩ := h
  exact hend.exists_next

/-- The registers enter only by their marks. -/
theorem StartsSound.congr {res : Result} {r r' : Regs} (h : StartsSound res r) (hr : r.marks = r'.marks) :
    StartsSound res r' := by
  obtain ⟨v, hend⟩ := h
  obtain ⟨hsw, -, hfail⟩ := marks_eq_iff.mp hr
  exact ⟨v, hend.congr (marks_eq_iff.mpr ⟨hsw, rfl, hfail⟩)⟩

theorem accept_sound {i : Instr} {proc : State → Result} (hs : s.Sound)
    (hp : ∀ u : State, u.Running → u.regs.op = i.opc → phaseAllowed i u.regs.phase = true →
      StartsSound (proc u) u.regs) : StartsSound (accept i proc s) s.regs := by
  by_cases hbusy : s.busy = true
  · rw [accept_of_busy hbusy]
    exact EndsSound.starts ⟨s, rfl, hs, rfl⟩
  · have hidle := seq_eq_of_not_busy hbusy
    have hrun := (hs.running_of_idle hidle).accepted i
    unfold accept
    rw [if_neg hbusy]
    dsimp only
    split
    · rename_i hphase
      exact (hp _ hrun (latch_op i _) hphase).congr (latch_marks i _)
    · exact (finish_sound hrun _ _).starts.congr (latch_marks i _)

theorem acceptIllegal_sound (w : CmdWord) (hs : s.Sound) : StartsSound (acceptIllegal w s) s.regs := by
  by_cases hbusy : s.busy = true
  · rw [acceptIllegal_of_busy hbusy]
    exact EndsSound.starts ⟨s, rfl, hs, rfl⟩
  · have hidle := seq_eq_of_not_busy hbusy
    obtain ⟨hwf, hreq, hw, hdly⟩ := hs.running_of_idle hidle
    have hrun : ((s.record (.cmd w)).upd fun r => { r with op := fieldOpc w }).Running := ⟨hwf, hreq, hw, hdly⟩
    unfold acceptIllegal
    rw [if_neg hbusy]
    exact (finish_sound hrun _ _).starts

/-- Each command starts where its phase check lets it (R95). -/
theorem exec_sound (i : Instr) (hs : s.Sound) : StartsSound (exec i s) s.regs := by
  cases i with
  | claim ff m v =>
    refine accept_sound hs fun u hu hop hphase => (claimStart_sound hu hop ?_).starts
    simpa [phaseAllowed] using hphase
  | enable d => exact accept_sound hs fun u hu hop _ => (enableStart_sound hu hop).starts_invalid
  | disable => exact accept_sound hs fun u hu hop _ => (disableStart_sound hu hop).starts
  | trig v n =>
    refine accept_sound hs fun u hu hop hphase => (trigStart_sound hu hop ?_).starts
    simpa [phaseAllowed] using hphase
  | stop => exact accept_sound hs fun u hu hop _ => (stopStart_sound hu hop).starts
  | rdstat => exact accept_sound hs fun u hu hop _ => (rdstatStart_sound hu hop).starts_invalid
  | waitb b v d => exact accept_sound hs fun u hu hop _ => (waitStart_sound hu (.inl hop)).starts_invalid

theorem onCommand_sound (w : CmdWord) (hs : s.Sound) : StartsSound (onCommand w s) s.regs := by
  unfold onCommand
  split
  · exact exec_sound _ hs
  · exact acceptIllegal_sound w hs

/-! ### Responses (R39) -/

/-- What a response to the outstanding request does to the status word (R84, R86) and to the alarm (R20). -/
def Regs.answered (ok : Bool) (payload : List Byte) (r : Regs) : Regs :=
  match r.seq with
  | .waitRd => noteStatus (readClass ok payload) r
  | .rd => noteStatus (readClass ok payload) r
  | .enCw => { r with lastSwValid := !ok && r.lastSwValid }
  | .disWr => { r with stopFail := alarmAfter ok r }
  | .stopWr => { r with stopFail := !ok }
  | .claimWr => r
  | .trigWr => r
  | .idle => r
  | .waitSlp => r
  | .trigSlp => r

theorem noteStatus_marks_congr (c : ReadClass) {r r' : Regs} (h : r.marks = r'.marks) :
    (noteStatus c r).marks = (noteStatus c r').marks := by
  obtain ⟨hsw, hvalid, hfail⟩ := marks_eq_iff.mp h
  cases c with
  | sw v => exact marks_eq_iff.mpr ⟨rfl, rfl, hfail⟩
  | readfail => exact h
  | encerr => exact h

/-- A sound block takes the response to the request it waits for. -/
theorem resume_sound (ok : Bool) (payload : List Byte) (hs : s.Sound) (hout : s.regs.reqOut = true) :
    EndsSound (resume ok payload ((s.record (.rsp ok payload)).upd fun r => { r with reqOut := false }))
      (s.regs.answered ok payload) := by
  obtain ⟨hwf, hq, hc, ⟨hw, hdly⟩, hpolls⟩ := hs
  have hawait := hq.reqOut_iff.mp hout
  have hdly := hdly (sleeps_of_awaits hawait)
  have hrun (h : s.regs.seq.inWait = false) :
      ((s.record (.rsp ok payload)).upd fun r => { r with reqOut := false }).Running := ⟨hwf, rfl, hw.trans h, hdly⟩
  have hpoll (h : s.regs.seq.inWait = true) (hwait : s.regs.InWait) :
      ((s.record (.rsp ok payload)).upd fun r => { r with reqOut := false }).Polling :=
    ⟨hwf, rfl, hw.trans h, hdly, hwait⟩
  unfold Regs.InCommand at hc
  unfold resume Regs.answered
  simp only [upd_regs, record_regs]
  cases hseq : s.regs.seq <;> rw [hseq] at hc hrun hpoll hawait
  case claimWr => exact claimResume_sound ok (hrun rfl) hc
  case enCw => exact enableResume_sound ok (hrun rfl) hc
  case waitRd =>
    obtain ⟨hpos, hel, htime, -⟩ := hpolls (by rw [hseq]; rfl)
    exact (waitResume_sound ok payload (hpoll rfl hc) ⟨hpos, hel, htime⟩).congr (noteStatus_marks_congr _ rfl)
  case disWr => exact disableResume_sound ok (hrun rfl) hc
  case trigWr => exact trigResume_sound ok (hrun rfl) hc
  case stopWr => exact stopResume_sound ok (hrun rfl)
  case rd => exact (rdstatResume_sound ok payload (hrun rfl)).congr (noteStatus_marks_congr _ rfl)
  all_goals cases hawait

theorem onResponse_sound (ok : Bool) (payload : List Byte) (hs : s.Sound) :
    EndsSound (onResponse ok payload s) (if s.regs.reqOut then s.regs.answered ok payload else s.regs) := by
  cases hout : s.regs.reqOut with
  | false =>
    rw [onResponse_unasked hout]
    exact ⟨_, rfl, hs, rfl⟩
  | true =>
    rw [onResponse_asked hout]
    exact resume_sound ok payload hs hout

/-! ### Ticks (R40) -/

theorem countTick_sound (hs : s.Sound) (hawake : s.regs.seq.sleeps = false) : (countTick s).Sound := by
  obtain ⟨hwf, hq, hc, htimers, hpolls⟩ := hs
  obtain ⟨e, he, hle, -⟩ := elapse_eq s.regs
  unfold State.Sound
  rw [countTick_regs, countTick_cfg, he]
  refine ⟨hwf, hq, hc, htimers, fun hin => ?_⟩
  obtain ⟨hpos, hel, htime, -⟩ := hpolls hin
  refine ⟨hpos, hel.trans hle, htime, fun hseq => ?_⟩
  have hseq : s.regs.seq = .waitSlp := hseq
  rw [hseq] at hawake
  cases hawake

/-- A tick of a sleep but its last: what the delay loses the wait's elapsed time gains. -/
theorem shortenDelay_sound (hs : s.Sound) (hsleep : s.regs.seq.sleeps = true) (hd : 2 ≤ s.regs.dly.toNat) :
    ((countTick s).upd fun r => { r with dly := r.dly - 1 }).Sound := by
  obtain ⟨hwf, hq, hc, ⟨hw, -⟩, hpolls⟩ := hs
  obtain ⟨e, he, hle, hnext⟩ := elapse_eq s.regs
  obtain ⟨hreq, -⟩ := hq.asleep hsleep
  have hshort : (s.regs.dly - 1).toNat + 1 = s.regs.dly.toNat := by bv_omega
  have hpos' : 1 ≤ (s.regs.dly - 1).toNat := by omega
  unfold State.Sound
  rw [upd_regs, upd_cfg, countTick_regs, countTick_cfg, he]
  have htimers : s.regs.seq.sleeps = false → s.regs.dly - 1 = 0 := fun h => absurd (hsleep.symm.trans h) nofun
  refine ⟨hwf, .inr (.inr ⟨hsleep, hreq, hpos'⟩), hc, ⟨hw, htimers⟩, fun hin => ?_⟩
  obtain ⟨hpos, hel, htime, hdelay⟩ := hpolls hin
  have hnext := hnext (hw.trans hin)
  refine ⟨hpos, hel.trans hle, htime, fun hseq => ?_⟩
  obtain ⟨hlong, hdue⟩ := hdelay hseq
  dsimp only
  exact ⟨by omega, by omega⟩

/-- The registers with which a command goes on after its delay. -/
theorem countTick_end_regs {e : Ticks} (he : elapse s.regs = { s.regs with el := e }) :
    ((countTick s).upd fun r => { r with dly := 0 }).regs = { s.regs with el := e, dly := 0 } := by
  rw [upd_regs, countTick_regs, he]

/-- The end of a wait's delay: the next read is due (R93). -/
theorem waitSlp_last_sound (hs : s.Sound) (hseq : s.regs.seq = .waitSlp) (hd : s.regs.dly = 1) :
    EndsSound (waitTest ((countTick s).upd fun r => { r with dly := 0 })) s.regs := by
  obtain ⟨hactive, hdue⟩ := hs.waitSlp_last hseq hd
  obtain ⟨hwf, hq, hc, -, -⟩ := hs
  obtain ⟨e, he, -, hnext⟩ := elapse_eq s.regs
  obtain ⟨hreq, -⟩ := hq.asleep ((sleeps_iff _).mpr (.inl hseq))
  have hwait : s.regs.InWait := by rwa [Regs.InCommand, hseq] at hc
  have hel := hnext hactive
  have hdue' : s.regs.polls.toNat * s.cfg.pollTicks.toNat ≤ e.toNat ∨ e.toNat = 2 ^ 32 - 1 := by omega
  have hregs := countTick_end_regs he
  have hend := waitTest_sound (s := (countTick s).upd fun r => { r with dly := 0 })
    ⟨hwf, by rw [hregs]; exact hreq, by rw [hregs]; exact hactive, rfl, by rw [hregs]; exact hwait⟩
    (by unfold State.ReadDue; rw [hregs]; exact hdue')
  exact hend.congr (by rw [hregs]; rfl)

/-- The end of TRIG's delay: an attempt is left (R106). -/
theorem trigSlp_last_sound (hs : s.Sound) (hseq : s.regs.seq = .trigSlp) :
    EndsSound (trigAttempt ((countTick s).upd fun r => { r with dly := 0 })) s.regs := by
  obtain ⟨hwf, hq, hc, ⟨hw, -⟩, -⟩ := hs
  obtain ⟨e, he, -, -⟩ := elapse_eq s.regs
  obtain ⟨hreq, -⟩ := hq.asleep ((sleeps_iff _).mpr (.inr hseq))
  rw [Regs.InCommand, hseq] at hc
  obtain ⟨⟨hop, hphase, hvalue, -⟩, hlt⟩ := hc
  rw [hseq] at hw
  have hregs := countTick_end_regs he
  have hend := trigAttempt_sound (s := (countTick s).upd fun r => { r with dly := 0 })
    ⟨hwf, by rw [hregs]; exact hreq, by rw [hregs]; exact hw, rfl⟩ (by rw [hregs]; exact ⟨hop, hphase, hvalue, hlt⟩)
  exact hend.congr (by rw [hregs]; rfl)

theorem elapse_marks (r : Regs) : (elapse r).marks = r.marks := by
  obtain ⟨e, he, -⟩ := elapse_eq r
  rw [he]
  rfl

theorem onTick_sound (hs : s.Sound) : EndsSound (onTick s) s.regs := by
  cases hsleep : s.regs.seq.sleeps with
  | false => exact ⟨_, onTick_awake hsleep, countTick_sound hs hsleep, elapse_marks _⟩
  | true =>
    obtain ⟨-, hq, -⟩ := id hs
    obtain ⟨-, hpos⟩ := hq.asleep hsleep
    by_cases hd : s.regs.dly = 1
    · obtain hseq | hseq := (sleeps_iff _).mp hsleep
      · rw [onTick_waitSlp_last hseq hd]
        exact waitSlp_last_sound hs hseq hd
      · rw [onTick_trigSlp_last hseq hd]
        exact trigSlp_last_sound hs hseq
    · have hlong : 2 ≤ s.regs.dly.toNat := by bv_omega
      exact ⟨_, onTick_asleep hsleep hlong, shortenDelay_sound hs hsleep hlong, elapse_marks s.regs⟩

/-! ### Every step -/

theorem onReset_sound (hs : s.Sound) : ∃ t, onReset s = .next t ∧ t.Sound := by
  obtain ⟨hwf, -⟩ := hs
  obtain ⟨⟨-, hq, hc, ht, -⟩, -⟩ := resetIsSound
  exact ⟨_, rfl, ⟨hwf, hq, hc, ht, nofun⟩⟩

/-- From a sound state every event has a next state, and it is sound. -/
theorem step_sound (hs : s.Sound) : ∃ t, step s = .next t ∧ t.Sound := by
  obtain ⟨hwf, -⟩ := id hs
  unfold step
  rw [if_pos hwf]
  split
  · exact ⟨s, rfl, hs⟩
  · exact (onCommand_sound _ (hs.withEvents _)).exists_next
  · exact (onResponse_sound _ _ (hs.withEvents _)).exists_next
  · exact (onTick_sound (hs.withEvents _)).exists_next
  · exact onReset_sound (hs.withEvents _)

/-- Settles O22: each procedure is started with the registers it needs (`step_sound`). -/
theorem soundNeverStops : Obligations.SoundNeverStops := fun _ hs =>
  let ⟨t, ht, _⟩ := step_sound hs
  ⟨t, ht⟩

/-- Settles O21: the next state of `step_sound` is the only one. -/
theorem soundKept : Obligations.SoundKept := by
  intro s t hs h
  obtain ⟨u, hu, hsound⟩ := step_sound hs
  rw [h] at hu
  cases hu
  exact hsound

end Sys2Proof.Machine
end

section
/-! The status word and the alarm (R17, R19, R20): what moves them in a step from a sound state. -/

namespace Sys2Proof.Machine

variable {s t : State}

theorem EndsSound.keeps {r : Regs} (h : EndsSound (.next t) r) : t.regs.marks = r.marks := by
  obtain ⟨u, hu, -, hm⟩ := h
  cases hu
  exact hm

theorem StartsSound.keeps {r : Regs} (h : StartsSound (.next t) r) :
    t.regs.lastSw = r.lastSw ∧ t.regs.stopFail = r.stopFail := by
  obtain ⟨v, hend⟩ := h
  obtain ⟨hsw, -, hfail⟩ := marks_eq_iff.mp hend.keeps
  exact ⟨hsw, hfail⟩

/-- What a sound step can do to the status word and the alarm: a reset clears them, the response to the outstanding
request moves them as `Regs.answered` says, and everything else leaves them. -/
theorem step_marks (hs : s.Sound) (h : step s = .next t) :
    (∃ es, nextEvent s.busy s.events = some (.reset, es) ∧ t.regs = Regs.reset) ∨
    (∃ ok p es, nextEvent s.busy s.events = some (.rsp ok p, es) ∧ s.regs.reqOut = true ∧
      t.regs.marks = (s.regs.answered ok p).marks) ∨
    ((∀ es, nextEvent s.busy s.events ≠ some (.reset, es)) ∧
      (s.regs.reqOut = true → ∀ ok p es, nextEvent s.busy s.events ≠ some (.rsp ok p, es)) ∧
      t.regs.lastSw = s.regs.lastSw ∧ t.regs.stopFail = s.regs.stopFail) := by
  obtain ⟨-, hcases⟩ := step_cases h
  obtain ⟨hnext, rfl⟩ | ⟨w, es, hnext, hcmd⟩ | ⟨ok, p, es, hnext, hrsp⟩ | ⟨es, hnext, htick⟩ | ⟨es, hnext, hreset⟩ :=
    hcases
  · exact .inr (.inr ⟨by simp [hnext], by simp [hnext], rfl, rfl⟩)
  · have hend := onCommand_sound w (hs.withEvents es)
    rw [hcmd] at hend
    exact .inr (.inr ⟨by simp [hnext], by simp [hnext], hend.keeps⟩)
  · have hend := onResponse_sound ok p (hs.withEvents es)
    rw [hrsp] at hend
    cases hout : s.regs.reqOut with
    | true => exact .inr (.inl ⟨ok, p, es, hnext, rfl, by simpa [hout] using hend.keeps⟩)
    | false =>
      simp only [hout] at hend
      exact .inr (.inr ⟨by simp [hnext], nofun, hend.starts.keeps⟩)
  · have hend := onTick_sound (hs.withEvents es)
    rw [htick] at hend
    exact .inr (.inr ⟨by simp [hnext], by simp [hnext], hend.starts.keeps⟩)
  · rw [onReset_eq] at hreset
    cases hreset
    exact .inl ⟨es, hnext, rfl⟩

theorem readClass_eq_sw {ok : Bool} {payload : List Byte} {v : Word16} (h : readClass ok payload = .sw v) :
    ok = true ∧ ∃ b0 b1 rest, payload = b0 :: b1 :: rest ∧ v = b1 ++ b0 := by
  cases ok with
  | false => cases h
  | true =>
    match payload, h with
    | b0 :: b1 :: rest, h =>
      cases h
      exact ⟨rfl, b0, b1, rest, rfl, rfl⟩

/-- The status word enters only from a status read's word (R84). -/
theorem answered_lastSw {ok : Bool} {payload : List Byte} {r : Regs}
    (h : (r.answered ok payload).lastSw ≠ r.lastSw) :
    (r.seq = .rd ∨ r.seq = .waitRd) ∧ ∃ v, readClass ok payload = .sw v ∧
      (r.answered ok payload).lastSw = v ∧ (r.answered ok payload).lastSwValid = true := by
  have hread (h : (noteStatus (readClass ok payload) r).lastSw ≠ r.lastSw) :
      ∃ v, readClass ok payload = .sw v ∧ (noteStatus (readClass ok payload) r).lastSw = v ∧
        (noteStatus (readClass ok payload) r).lastSwValid = true := by
    cases hc : readClass ok payload with
    | sw v => exact ⟨v, rfl, rfl, rfl⟩
    | readfail => simp [hc, noteStatus] at h
    | encerr => simp [hc, noteStatus] at h
  unfold Regs.answered at h ⊢
  cases hseq : r.seq <;> rw [hseq] at h
  case rd => exact ⟨.inl rfl, hread h⟩
  case waitRd => exact ⟨.inr rfl, hread h⟩
  all_goals exact absurd rfl h

/-- Settles O31: only the response to a status read moves the status word (`step_marks`, `answered_lastSw`). -/
theorem statusWordFromReadsOnly : Obligations.StatusWordFromReadsOnly := by
  intro s t hs h hne
  obtain ⟨es, hnext, hregs⟩ | ⟨ok, p, es, hnext, -, hm⟩ | ⟨-, -, hsame, -⟩ := step_marks hs h
  · exact .inl ⟨es, hnext, by rw [hregs]; rfl⟩
  · obtain ⟨hsw, hvalid, -⟩ := marks_eq_iff.mp hm
    obtain ⟨hseq, v, hread, hv, hv'⟩ := answered_lastSw (hsw ▸ hne)
    obtain ⟨rfl, b0, b1, rest, rfl, rfl⟩ := readClass_eq_sw hread
    exact .inr ⟨b0, b1, rest, es, hnext, hseq, hsw.trans hv, hvalid.trans hv'⟩
  · exact absurd hsame hne

/-- R20: the response is that to a write of 0 to jog-activate. -/
def Regs.AwaitsStopWrite (r : Regs) : Prop := r.seq = .stopWr ∨ (r.seq = .disWr ∧ r.k = 1)

theorem answered_stopFail_of_stopWrite {r : Regs} (h : r.AwaitsStopWrite) (ok : Bool) (payload : List Byte) :
    (r.answered ok payload).stopFail = !ok := by
  obtain hseq | ⟨hseq, hk⟩ := h
  · simp [Regs.answered, hseq]
  · simp [Regs.answered, hseq, alarmAfter, hk]

@[simp] theorem noteStatus_stopFail (c : ReadClass) (r : Regs) : (noteStatus c r).stopFail = r.stopFail := by
  cases c <;> rfl

theorem answered_stopFail_of_not_stopWrite {r : Regs} (h : ¬ r.AwaitsStopWrite) (ok : Bool) (payload : List Byte) :
    (r.answered ok payload).stopFail = r.stopFail := by
  simp only [Regs.AwaitsStopWrite, not_or, not_and] at h
  obtain ⟨hstop, hdis⟩ := h
  unfold Regs.answered
  cases hseq : r.seq
  case waitRd => exact noteStatus_stopFail _ r
  case rd => exact noteStatus_stopFail _ r
  case disWr => exact if_neg (hdis hseq)
  case stopWr => exact absurd hseq hstop
  all_goals rfl

theorem Regs.AwaitsStopWrite.awaits {r : Regs} (h : r.AwaitsStopWrite) : r.seq.awaitsResponse = true := by
  obtain hseq | ⟨hseq, -⟩ := h <;> rw [hseq] <;> rfl

/-- Settles O30: of the responses, only one to a stop write moves the alarm (`step_marks`). -/
theorem stopAlarm : Obligations.StopAlarm := by
  intro s t hs h
  obtain ⟨-, hq, -⟩ := id hs
  obtain ⟨es, hnext, hregs⟩ | ⟨ok, p, es, hnext, -, hm⟩ | ⟨hreset, hrsp, -, hsame⟩ := step_marks hs h
  · refine ⟨fun _ _ => ?_, fun ok p es' h' => ?_, fun _ => .inl ⟨es, hnext⟩⟩
    · simp only [State.alarmStopFail, hregs]
      rfl
    · simp [hnext] at h'
  · obtain ⟨-, -, hm⟩ := marks_eq_iff.mp hm
    refine ⟨fun es' h' => ?_, fun ok' p' es' h' hstop => ?_, fun hne => .inr ⟨ok, p, es, hnext, ?_⟩⟩
    · simp [hnext] at h'
    · rw [hnext] at h'
      cases h'
      exact hm.trans (answered_stopFail_of_stopWrite hstop ok p)
    · by_contra hstop
      exact hne (hm.trans (answered_stopFail_of_not_stopWrite hstop ok p))
  · exact ⟨fun es h' => absurd h' (hreset es),
      fun ok p es h' hstop => absurd h' (hrsp (hq.reqOut_iff.mpr (Regs.AwaitsStopWrite.awaits hstop)) ok p es),
      fun hne => absurd hsame hne⟩

end Sys2Proof.Machine
end

section
/-! What a host can test never steers the block (R23, R60): two states that agree on everything else are taken by every
procedure to two states that agree so again, with the same requests. -/

namespace Sys2Proof.Machine

variable {s s' : State} {a a' : List Entry}

/-! ### States that agree but for the host's flags and the record -/

/-- `s` and `s'` agree on all that a host cannot test, and the requests that their records added to `a` and `a'` are the
same. -/
structure Alike (a a' : List Entry) (s s' : State) : Prop where
  cfg : s'.cfg = s.cfg
  ticks : s'.ticks = s.ticks
  events : s'.events = s.events
  hidden : s'.regs.hidden = s.regs.hidden
  requests : ∃ d d', s.history = a ++ d ∧ s'.history = a' ++ d' ∧ requestsOf d' = requestsOf d

/-- Both procedures answer alike states, or both stop for the same reason. -/
inductive AlikeResult (a a' : List Entry) : Result → Result → Prop where
  | next {s s' : State} (h : Alike a a' s s') : AlikeResult a a' (.next s) (.next s')
  | fault (why : Fault) : AlikeResult a a' (.fault why) (.fault why)
  | refused (why : Refusal) : AlikeResult a a' (.refused why) (.refused why)

namespace Alike

variable (h : Alike a a' s s')
include h

/-- A function of the registers that the host's flags do not enter. -/
theorem field_eq {α : Type} (f : Regs → α) (hf : ∀ r, f r = f r.hidden) : f s'.regs = f s.regs := by
  rw [hf s'.regs, hf s.regs, h.hidden]

theorem phase_eq : s'.regs.phase = s.regs.phase := h.field_eq Regs.phase fun _ => rfl
theorem seq_eq : s'.regs.seq = s.regs.seq := h.field_eq Regs.seq fun _ => rfl
theorem reqOut_eq : s'.regs.reqOut = s.regs.reqOut := h.field_eq Regs.reqOut fun _ => rfl
theorem k_eq : s'.regs.k = s.regs.k := h.field_eq Regs.k fun _ => rfl
theorem mask_eq : s'.regs.mask = s.regs.mask := h.field_eq Regs.mask fun _ => rfl
theorem att_eq : s'.regs.att = s.regs.att := h.field_eq Regs.att fun _ => rfl
theorem el_eq : s'.regs.el = s.regs.el := h.field_eq Regs.el fun _ => rfl
theorem polls_eq : s'.regs.polls = s.regs.polls := h.field_eq Regs.polls fun _ => rfl
theorem dly_eq : s'.regs.dly = s.regs.dly := h.field_eq Regs.dly fun _ => rfl
theorem op_eq : s'.regs.op = s.regs.op := h.field_eq Regs.op fun _ => rfl
theorem ff_eq : s'.regs.ff = s.regs.ff := h.field_eq Regs.ff fun _ => rfl
theorem timeout_eq : s'.regs.timeout = s.regs.timeout := h.field_eq Regs.timeout fun _ => rfl
theorem jogValue_eq : s'.regs.jogValue = s.regs.jogValue := h.field_eq Regs.jogValue fun _ => rfl
theorem maxAtt_eq : s'.regs.maxAtt = s.regs.maxAtt := h.field_eq Regs.maxAtt fun _ => rfl
theorem wBit_eq : s'.regs.wBit = s.regs.wBit := h.field_eq Regs.wBit fun _ => rfl
theorem wTarget_eq : s'.regs.wTarget = s.regs.wTarget := h.field_eq Regs.wTarget fun _ => rfl

theorem busy_eq : s'.busy = s.busy := by
  simp only [State.busy, h.seq_eq]

/-- Two entries that are the same request, or no request, keep alike records alike. -/
theorem record {o o' : Obs} (ho : requestsOf [⟨s'.ticks, o'⟩] = requestsOf [⟨s.ticks, o⟩]) :
    Alike a a' (s.record o) (s'.record o') := by
  obtain ⟨d, d', hd, hd', hreq⟩ := h.requests
  exact ⟨h.cfg, h.ticks, h.events, h.hidden, d ++ [⟨s.ticks, o⟩], d' ++ [⟨s'.ticks, o'⟩], by simp [hd],
    by simp [hd'], by rw [requestsOf_append, requestsOf_append, hreq, ho]⟩

theorem upd {f f' : Regs → Regs} (hf : (f' s'.regs).hidden = (f s.regs).hidden) :
    Alike a a' (s.upd f) (s'.upd f') :=
  ⟨h.cfg, h.ticks, h.events, hf, h.requests⟩

/-- The same update on both sides, one whose effect the host's flags do not enter. -/
theorem upd_same {f : Regs → Regs} (hf : ∀ r, (f r).hidden = (f r.hidden).hidden) :
    Alike a a' (s.upd f) (s'.upd f) :=
  h.upd (h.field_eq (fun r => (f r).hidden) hf)

theorem withEvents (es : List Event) : Alike a a' { s with events := es } { s' with events := es } :=
  ⟨h.cfg, h.ticks, rfl, h.hidden, h.requests⟩

end Alike

/-! ### The shared operations -/

theorem send_alike (label : Seq) (q : Request) (h : Alike a a' s s') :
    AlikeResult a a' (.next (send label q s)) (.next (send label q s')) :=
  .next ((h.record (o := .req q) (o' := .req q) rfl).upd_same fun _ => rfl)

theorem memWrite_alike (label : Seq) (reg : DevReg) (v : List Byte) (h : Alike a a' s s') :
    AlikeResult a a' (memWrite label reg v s) (memWrite label reg v s') := by
  unfold memWrite
  rw [h.cfg]
  exact send_alike _ _ h

theorem memRead_alike (label : Seq) (reg : DevReg) (h : Alike a a' s s') :
    AlikeResult a a' (memRead label reg s) (memRead label reg s') := by
  unfold memRead
  rw [h.cfg]
  exact send_alike _ _ h

theorem sleepThen_alike (label : Seq) (d : Ticks) {k : State → Result} (hk : AlikeResult a a' (k s) (k s'))
    (h : Alike a a' s s') : AlikeResult a a' (sleepThen label d k s) (sleepThen label d k s') := by
  unfold sleepThen
  split
  · exact hk
  · exact .next (h.upd_same fun _ => rfl)

theorem finish_alike (code : ResCode) (detail : BitVec 8) (h : Alike a a' s s') :
    AlikeResult a a' (finish code detail s) (finish code detail s') := by
  rw [finish_eq, finish_eq]
  exact .next ((h.upd_same fun _ => rfl).record rfl)

/-! ### ENABLE's stages and the wait -/

theorem enableIssue_alike (h : Alike a a' s s') : AlikeResult a a' (enableIssue s) (enableIssue s') := by
  unfold enableIssue
  rw [h.k_eq]
  cases stage s.regs.k with
  | none => exact .fault _
  | some st => exact memWrite_alike _ _ _ h

theorem enableAfterWait_alike (e : WaitEnd) (h : Alike a a' s s') :
    AlikeResult a a' (enableAfterWait e s) (enableAfterWait e s') := by
  unfold enableAfterWait
  rw [h.k_eq]
  cases stage s.regs.k with
  | none => exact .fault _
  | some st =>
    cases e with
    | encerr => exact finish_alike _ _ h
    | expired => exact finish_alike _ _ h
    | matched =>
      dsimp only
      split
      · exact finish_alike _ _ (h.upd_same fun _ => rfl)
      · exact enableIssue_alike (h.upd_same fun _ => rfl)

theorem waitbAfterWait_alike (e : WaitEnd) (h : Alike a a' s s') :
    AlikeResult a a' (waitbAfterWait e s) (waitbAfterWait e s') := by
  unfold waitbAfterWait
  rw [h.polls_eq]
  cases e <;> exact finish_alike _ _ h

theorem waitReturn_alike (e : WaitEnd) (h : Alike a a' s s') :
    AlikeResult a a' (waitReturn e s) (waitReturn e s') := by
  have hdone := h.upd_same (f := fun r => { r with wActive := false }) fun _ => rfl
  unfold waitReturn
  rw [h.op_eq]
  dsimp only
  split
  · exact waitbAfterWait_alike e hdone
  · split
    · exact enableAfterWait_alike e hdone
    · exact .fault _

theorem waitTest_alike (h : Alike a a' s s') : AlikeResult a a' (waitTest s) (waitTest s') := by
  unfold waitTest
  rw [h.timeout_eq, h.el_eq]
  split
  · exact waitReturn_alike _ h
  · exact memRead_alike _ _ (h.upd_same fun _ => rfl)

theorem waitStart_alike (h : Alike a a' s s') : AlikeResult a a' (waitStart s) (waitStart s') :=
  waitTest_alike (h.upd_same fun _ => rfl)

/-- The status word is one of the host's flags. -/
theorem noteStatus_alike (c : ReadClass) (h : Alike a a' s s') :
    Alike a a' (s.upd (noteStatus c)) (s'.upd (noteStatus c)) := by
  refine h.upd_same fun r => ?_
  cases c <;> rfl

theorem waitResume_alike (ok : Bool) (payload : List Byte) (h : Alike a a' s s') :
    AlikeResult a a' (waitResume ok payload s) (waitResume ok payload s') := by
  have hnoted := noteStatus_alike (readClass ok payload) h
  have hsleep : AlikeResult a a'
      (sleepThen .waitSlp s.cfg.pollTicks waitTest (s.upd (noteStatus (readClass ok payload))))
      (sleepThen .waitSlp s.cfg.pollTicks waitTest (s'.upd (noteStatus (readClass ok payload)))) :=
    sleepThen_alike _ _ (waitTest_alike hnoted) hnoted
  unfold waitResume
  rw [h.wBit_eq, h.wTarget_eq, h.cfg]
  cases hc : readClass ok payload with
  | encerr =>
    rw [hc] at hnoted
    exact waitReturn_alike _ hnoted
  | readfail =>
    rw [hc] at hsleep
    exact hsleep
  | sw v =>
    rw [hc] at hnoted hsleep
    dsimp only
    split
    · exact waitReturn_alike _ hnoted
    · exact hsleep

theorem rdstatStart_alike (h : Alike a a' s s') : AlikeResult a a' (rdstatStart s) (rdstatStart s') :=
  memRead_alike _ _ (h.upd_same fun _ => rfl)

theorem rdstatResume_alike (ok : Bool) (payload : List Byte) (h : Alike a a' s s') :
    AlikeResult a a' (rdstatResume ok payload s) (rdstatResume ok payload s') := by
  have hnoted := noteStatus_alike (readClass ok payload) h
  unfold rdstatResume
  cases hc : readClass ok payload <;> rw [hc] at hnoted <;> exact finish_alike _ _ hnoted

/-! ### CLAIM, ENABLE and DISABLE -/

theorem claimIssue_alike (h : Alike a a' s s') : AlikeResult a a' (claimIssue s) (claimIssue s') := by
  have hwrite : claimWrite s'.regs = claimWrite s.regs := h.field_eq claimWrite fun _ => rfl
  unfold claimIssue
  rw [hwrite]
  cases claimWrite s.regs with
  | none => exact .fault _
  | some w => exact memWrite_alike _ _ _ h

theorem claimStart_alike (h : Alike a a' s s') : AlikeResult a a' (claimStart s) (claimStart s') :=
  claimIssue_alike (h.upd_same fun _ => rfl)

theorem maskAfter_alike (ok : Bool) (h : Alike a a' s s') : maskAfter ok s'.regs = maskAfter ok s.regs := by
  simp only [maskAfter, h.mask_eq, h.k_eq]

theorem claimResume_alike (ok : Bool) (h : Alike a a' s s') :
    AlikeResult a a' (claimResume ok s) (claimResume ok s') := by
  unfold claimResume
  dsimp only
  rw [maskAfter_alike ok h, h.k_eq, h.ff_eq]
  split
  · exact .fault _
  · split
    · exact finish_alike _ _ (h.upd_same fun _ => rfl)
    · split
      · exact finish_alike _ _ (h.upd_same fun _ => rfl)
      · exact claimIssue_alike (h.upd_same fun _ => rfl)

theorem enableStart_alike (h : Alike a a' s s') : AlikeResult a a' (enableStart s) (enableStart s') :=
  enableIssue_alike (h.upd_same fun _ => rfl)

theorem enableResume_alike (ok : Bool) (h : Alike a a' s s') :
    AlikeResult a a' (enableResume ok s) (enableResume ok s') := by
  unfold enableResume
  rw [h.k_eq]
  cases stage s.regs.k with
  | none => exact .fault _
  | some st =>
    dsimp only
    split
    · exact waitStart_alike (h.upd_same fun _ => rfl)
    · exact finish_alike _ _ h

theorem disableIssue_alike (h : Alike a a' s s') : AlikeResult a a' (disableIssue s) (disableIssue s') := by
  unfold disableIssue
  rw [h.k_eq]
  cases disableWrite s.regs.k with
  | none => exact .fault _
  | some w => exact memWrite_alike _ _ _ h

theorem disableStart_alike (h : Alike a a' s s') : AlikeResult a a' (disableStart s) (disableStart s') :=
  disableIssue_alike (h.upd_same fun _ => rfl)

theorem disableResume_alike (ok : Bool) (h : Alike a a' s s') :
    AlikeResult a a' (disableResume ok s) (disableResume ok s') := by
  unfold disableResume
  dsimp only
  rw [maskAfter_alike ok h, h.k_eq]
  split
  · exact .fault _
  · split
    · exact finish_alike _ _ (h.upd_same fun _ => rfl)
    · exact disableIssue_alike (h.upd_same fun _ => rfl)

/-! ### TRIG and STOP -/

theorem trigAttempt_alike (h : Alike a a' s s') : AlikeResult a a' (trigAttempt s) (trigAttempt s') := by
  unfold trigAttempt
  rw [h.jogValue_eq]
  exact memWrite_alike _ _ _ (h.upd_same fun _ => rfl)

theorem trigStart_alike (h : Alike a a' s s') : AlikeResult a a' (trigStart s) (trigStart s') := by
  unfold trigStart
  rw [h.jogValue_eq, h.maxAtt_eq]
  split
  · exact finish_alike _ _ h
  · split
    · exact finish_alike _ _ h
    · exact trigAttempt_alike (h.upd_same fun _ => rfl)

theorem trigResume_alike (ok : Bool) (h : Alike a a' s s') :
    AlikeResult a a' (trigResume ok s) (trigResume ok s') := by
  unfold trigResume
  rw [h.att_eq, h.maxAtt_eq, h.cfg]
  split
  · exact finish_alike _ _ h
  · split
    · exact finish_alike _ _ h
    · exact sleepThen_alike _ _ (trigAttempt_alike h) h

theorem stopResume_alike (ok : Bool) (h : Alike a a' s s') :
    AlikeResult a a' (stopResume ok s) (stopResume ok s') :=
  finish_alike _ _ (h.upd_same fun _ => rfl)

/-! ### The events -/

theorem accept_alike (i : Instr) {proc : State → Result}
    (hp : ∀ {u u'}, Alike a a' u u' → AlikeResult a a' (proc u) (proc u')) (h : Alike a a' s s') :
    AlikeResult a a' (accept i proc s) (accept i proc s') := by
  have hlatch := (h.record (o := .cmd (encode i)) (o' := .cmd (encode i)) rfl).upd_same (f := latch i)
    fun r => by cases i <;> rfl
  unfold accept
  dsimp only
  rw [h.busy_eq, hlatch.phase_eq]
  split
  · exact .next h
  · split
    · exact hp hlatch
    · exact finish_alike _ _ hlatch

theorem acceptIllegal_alike (w : CmdWord) (h : Alike a a' s s') :
    AlikeResult a a' (acceptIllegal w s) (acceptIllegal w s') := by
  unfold acceptIllegal
  rw [h.busy_eq]
  split
  · exact .next h
  · exact finish_alike _ _ ((h.record (o := .cmd w) (o' := .cmd w) rfl).upd_same fun _ => rfl)

theorem exec_alike (i : Instr) (h : Alike a a' s s') : AlikeResult a a' (exec i s) (exec i s') := by
  cases i with
  | claim ff m v => exact accept_alike _ claimStart_alike h
  | enable d => exact accept_alike _ enableStart_alike h
  | disable => exact accept_alike _ disableStart_alike h
  | trig v n => exact accept_alike _ trigStart_alike h
  | stop => exact accept_alike _ (memWrite_alike _ _ _) h
  | rdstat => exact accept_alike _ rdstatStart_alike h
  | waitb b v d => exact accept_alike _ waitStart_alike h

theorem onCommand_alike (w : CmdWord) (h : Alike a a' s s') :
    AlikeResult a a' (onCommand w s) (onCommand w s') := by
  unfold onCommand
  cases decode w with
  | ok i => exact exec_alike i h
  | error e => exact acceptIllegal_alike w h

/-- `seq`, which a host cannot test, decides where the command goes on. -/
theorem resume_alike (ok : Bool) (payload : List Byte) (h : Alike a a' s s') :
    AlikeResult a a' (resume ok payload s) (resume ok payload s') := by
  unfold resume
  rw [h.seq_eq]
  cases s.regs.seq
  case claimWr => exact claimResume_alike ok h
  case enCw => exact enableResume_alike ok h
  case waitRd => exact waitResume_alike ok payload h
  case disWr => exact disableResume_alike ok h
  case trigWr => exact trigResume_alike ok h
  case stopWr => exact stopResume_alike ok h
  case rd => exact rdstatResume_alike ok payload h
  all_goals exact .fault _

theorem onResponse_alike (ok : Bool) (payload : List Byte) (h : Alike a a' s s') :
    AlikeResult a a' (onResponse ok payload s) (onResponse ok payload s') := by
  have hrec := h.record (o := .rsp ok payload) (o' := .rsp ok payload) rfl
  unfold onResponse
  dsimp only
  rw [h.reqOut_eq]
  split
  · exact resume_alike ok payload (hrec.upd_same fun _ => rfl)
  · exact .next hrec

theorem elapse_hidden (r : Regs) : (elapse r).hidden = (elapse r.hidden).hidden := by
  by_cases hw : r.wActive = true <;> simp [elapse, Regs.hidden, hw]

theorem countTick_alike (h : Alike a a' s s') : Alike a a' (countTick s) (countTick s') := by
  obtain ⟨d, d', hd, hd', hreq⟩ := h.requests
  have hregs := (h.upd_same elapse_hidden).hidden
  exact ⟨h.cfg, by simp [h.ticks], h.events, hregs, d ++ [⟨s.ticks + 1, .tick⟩], d' ++ [⟨s'.ticks + 1, .tick⟩],
    by simp [hd], by simp [hd'], by rw [requestsOf_append, requestsOf_append, hreq]; rfl⟩

theorem countDelay_alike {k : State → Result} (hk : ∀ {u u'}, Alike a a' u u' → AlikeResult a a' (k u) (k u'))
    (h : Alike a a' s s') : AlikeResult a a' (countDelay k s) (countDelay k s') := by
  have hshort := h.upd_same (f := fun r => { r with dly := r.dly - 1 }) fun _ => rfl
  unfold countDelay
  dsimp only
  rw [h.dly_eq, hshort.dly_eq]
  split
  · exact .fault _
  · split
    · exact hk hshort
    · exact .next hshort

theorem onTick_alike (h : Alike a a' s s') : AlikeResult a a' (onTick s) (onTick s') := by
  have htick := countTick_alike h
  unfold onTick
  rw [h.seq_eq]
  cases s.regs.seq
  case waitSlp => exact countDelay_alike waitTest_alike htick
  case trigSlp => exact countDelay_alike trigAttempt_alike htick
  all_goals exact .next htick

theorem onReset_alike (h : Alike a a' s s') : AlikeResult a a' (onReset s) (onReset s') := by
  rw [onReset_eq, onReset_eq]
  exact .next ((h.record (o := .reset) (o' := .reset) rfl).upd_same fun _ => rfl)

theorem step_alike (h : Alike a a' s s') : AlikeResult a a' (step s) (step s') := by
  have hwf : s'.cfg.wellFormed = s.cfg.wellFormed := by rw [h.cfg]
  unfold step
  rw [hwf, h.busy_eq, h.events]
  split
  · match nextEvent s.busy s.events with
    | none => exact .next h
    | some (.cmd w, es) => exact onCommand_alike w (h.withEvents es)
    | some (.rsp ok p, es) => exact onResponse_alike ok p (h.withEvents es)
    | some (.tick, es) => exact onTick_alike (h.withEvents es)
    | some (.reset, es) => exact onReset_alike (h.withEvents es)
  · exact .refused _

/-- Settles O34: the two states are alike, with nothing added to their records yet, and a step keeps them so. -/
theorem hostFlagsNeverSteer : Obligations.HostFlagsNeverSteer := by
  intro s s' t hcfg hticks hevents hhidden hstep
  have halike : Alike s.history s'.history s s' :=
    ⟨hcfg, hticks, hevents, hhidden, [], [], by simp, by simp, rfl⟩
  have hres := step_alike halike
  rw [hstep] at hres
  generalize hr : step s' = r at hres
  cases hres with
  | @next _ t' h =>
    obtain ⟨d, d', hd, hd', hreq⟩ := h.requests
    exact ⟨t', rfl, h.cfg, h.ticks, h.events, h.hidden, by rw [hd, hd', List.drop_left, List.drop_left, hreq]⟩

end Sys2Proof.Machine
end

section
/-! The request discipline (R55): no request is sent while one is outstanding, and `req_out` says whether one is. -/

namespace Sys2Proof.Machine

variable {s t : State}

/-! ### What an entry of the record says of the outstanding request -/

@[simp] theorem trackRequests_cmd (b : Bool) (n : Nat) (w : CmdWord) :
    trackRequests (some b) ⟨n, .cmd w⟩ = some b := by cases b <;> rfl

@[simp] theorem trackRequests_rsp (b : Bool) (n : Nat) (ok : Bool) (payload : List Byte) :
    trackRequests (some b) ⟨n, .rsp ok payload⟩ = some false := by cases b <;> rfl

@[simp] theorem trackRequests_tick (b : Bool) (n : Nat) : trackRequests (some b) ⟨n, .tick⟩ = some b := by
  cases b <;> rfl

@[simp] theorem trackRequests_reset (b : Bool) (n : Nat) : trackRequests (some b) ⟨n, .reset⟩ = some false := by
  cases b <;> rfl

@[simp] theorem trackRequests_doneObs (b : Bool) (n : Nat) (r : Regs) :
    trackRequests (some b) ⟨n, doneObs r⟩ = some b := by cases b <;> rfl

/-- A request is in order only where none is outstanding. -/
@[simp] theorem trackRequests_req (n : Nat) (q : Request) : trackRequests (some false) ⟨n, .req q⟩ = some true := rfl

namespace State.OneRequestAtATime

/-- One more entry keeps the discipline if `req_out` becomes what the entry makes of it. -/
theorem observed {e : Entry} (hs : s.OneRequestAtATime) (hist : t.history = s.history ++ [e])
    (hreq : trackRequests (some s.regs.reqOut) e = some t.regs.reqOut) : t.OneRequestAtATime := by
  unfold State.OneRequestAtATime at hs ⊢
  rw [hist, List.foldl_append, hs]
  exact hreq

theorem of_eq (hs : s.OneRequestAtATime) (hist : t.history = s.history) (hreq : t.regs.reqOut = s.regs.reqOut) :
    t.OneRequestAtATime := by
  unfold State.OneRequestAtATime
  rw [hist, hreq]
  exact hs

/-- A procedure that starts with no request outstanding sends at most one (R37). -/
theorem stopsAt (hs : s.OneRequestAtATime) (hreq : s.regs.reqOut = false) (h : StopsAt s t) :
    t.OneRequestAtATime := by
  cases h with
  | sent label q r hl => exact hs.observed rfl (by simp [hreq])
  | slept label d r hl hd hr => exact hs.of_eq rfl hr
  | finished code detail r hr => exact hs.observed rfl (by simp [hr])

end State.OneRequestAtATime

/-! ### The events (R38 to R40, R130) -/

theorem onCommand_oneRequest {w : CmdWord} (hs : s.OneRequestAtATime) (hq : s.regs.Quiescent)
    (h : onCommand w s = .next t) : t.OneRequestAtATime := by
  have hidle (hbusy : s.busy = false) : s.regs.reqOut = false :=
    hq.reqOut_of_idle (seq_eq_of_not_busy (by simp [hbusy]))
  unfold onCommand at h
  split at h
  · obtain ⟨-, rfl⟩ | ⟨hbusy, hstop⟩ := exec_stops h
    · exact hs
    · exact (hs.observed rfl (by simp)).stopsAt (by simpa using hidle hbusy) hstop
  · obtain ⟨-, rfl⟩ | ⟨-, rfl⟩ := acceptIllegal_stops h
    · exact hs
    · have hcmd : (s.record (.cmd w)).OneRequestAtATime := hs.observed rfl (by simp)
      exact hcmd.observed rfl (by simp)

/-- A response ends the outstanding request before the command goes on (R39). -/
theorem onResponse_oneRequest {ok : Bool} {payload : List Byte} (hs : s.OneRequestAtATime)
    (h : onResponse ok payload s = .next t) : t.OneRequestAtATime := by
  obtain ⟨hreq, rfl⟩ | ⟨-, hstop⟩ := onResponse_stops h
  · exact hs.observed rfl (by simp [hreq])
  · exact (hs.observed rfl (by simp)).stopsAt rfl hstop

theorem countTick_oneRequest (hs : s.OneRequestAtATime) : (countTick s).OneRequestAtATime :=
  hs.observed rfl (by simp)

theorem countDelay_oneRequest {k : State → Result} (hk : ∀ {u v}, k u = .next v → StopsAt u v)
    (hs : s.OneRequestAtATime) (hreq : s.regs.reqOut = false) (h : countDelay k s = .next t) :
    t.OneRequestAtATime := by
  obtain ⟨-, ⟨-, hend⟩ | ⟨-, rfl⟩⟩ := countDelay_cases h
  · exact hs.stopsAt hreq (.of_upd rfl (hk hend))
  · exact hs.of_eq rfl rfl

/-- In a sleep no request is outstanding (R36), so the command may send one when the delay is over. -/
theorem onTick_oneRequest (hs : s.OneRequestAtATime) (hq : s.regs.Quiescent) (h : onTick s = .next t) :
    t.OneRequestAtATime := by
  have hasleep (hsleep : s.regs.seq.sleeps = true) : (countTick s).regs.reqOut = false := by
    obtain ⟨hreq, -⟩ := hq.asleep hsleep
    simpa using hreq
  have htick := countTick_oneRequest hs
  obtain ⟨-, rfl⟩ | ⟨hseq, hwait⟩ | ⟨hseq, htrig⟩ := onTick_cases h
  · exact htick
  · exact countDelay_oneRequest waitTest_stops htick (hasleep ((sleeps_iff _).mpr (.inl hseq))) hwait
  · exact countDelay_oneRequest trigAttempt_stops htick (hasleep ((sleeps_iff _).mpr (.inr hseq))) htrig

theorem onReset_oneRequest (hs : s.OneRequestAtATime) (h : onReset s = .next t) : t.OneRequestAtATime := by
  rw [onReset_eq] at h
  cases h
  exact hs.observed rfl (by simp [Regs.reset])

/-- Settles O24: a procedure starts where no request is outstanding: after a command to an idle block, after the
response, after a sleep. -/
theorem oneRequestOutstanding : Obligations.OneRequestOutstanding := by
  intro s t hq hs h
  have hevents (es : List Event) : ({ s with events := es } : State).OneRequestAtATime := hs
  obtain ⟨-, ⟨-, rfl⟩ | ⟨w, es, -, hcmd⟩ | ⟨ok, p, es, -, hrsp⟩ | ⟨es, -, htick⟩ | ⟨es, -, hreset⟩⟩ := step_cases h
  · exact hs
  · exact onCommand_oneRequest (hevents es) hq hcmd
  · exact onResponse_oneRequest (hevents es) hrsp
  · exact onTick_oneRequest (hevents es) hq htick
  · exact onReset_oneRequest (hevents es) hreset

end Sys2Proof.Machine
end

section
/-! The register table (R45): every procedure sends only requests that are rows of it, from whatever state it runs. -/

namespace Sys2Proof.Machine

variable {s t : State} {c : Cfg} {a : List Entry}

/-! ### Records that grow by rows of the table -/

/-- `s` has the configuration `c`, and its record is `a` followed by entries whose requests are rows of R45. -/
structure Tabled (c : Cfg) (a : List Entry) (s : State) : Prop where
  cfg : s.cfg = c
  requests : ∃ d, s.history = a ++ d ∧ ∀ q ∈ requestsOf d, q.InTable c

/-- If the result is a next state, that state is tabled. -/
def TabledResult (c : Cfg) (a : List Entry) (res : Result) : Prop := ∀ t, res = .next t → Tabled c a t

theorem tabledResult_fault (why : Fault) : TabledResult c a (.fault why) := by
  intro t ht
  cases ht

namespace Tabled

theorem refl (s : State) : Tabled s.cfg s.history s := ⟨rfl, [], by simp, nofun⟩

theorem next (h : Tabled c a s) : TabledResult c a (.next s) := by
  intro t ht
  cases ht
  exact h

/-- What is written to the registers does not matter. -/
theorem upd (h : Tabled c a s) (f : Regs → Regs) : Tabled c a (s.upd f) := ⟨h.cfg, h.requests⟩

/-- One more entry, whose request, if it is one, is a row of the table. -/
theorem entry {e : Entry} (h : Tabled c a s) (hcfg : t.cfg = s.cfg) (hist : t.history = s.history ++ [e])
    (he : ∀ q ∈ requestsOf [e], q.InTable c) : Tabled c a t := by
  obtain ⟨d, hd, hrows⟩ := h.requests
  refine ⟨hcfg.trans h.cfg, d ++ [e], by simp [hist, hd], fun q hq => ?_⟩
  rw [requestsOf_append, List.mem_append] at hq
  exact hq.elim (hrows q) (he q)

theorem send {q : Request} (h : Tabled c a s) (label : Seq) (hq : q.InTable c) : Tabled c a (send label q s) :=
  h.entry rfl rfl fun p hp => by
    obtain rfl : p = q := by simpa [requestsOf] using hp
    exact hq

theorem countTick (h : Tabled c a s) : Tabled c a (countTick s) := h.entry rfl rfl nofun

/-! ### The shared operations -/

theorem finish (h : Tabled c a s) (code : ResCode) (detail : BitVec 8) : TabledResult c a (finish code detail s) := by
  have hdone : Tabled c a ((s.upd (finishRegs code detail)).record (doneObs (finishRegs code detail s.regs))) :=
    (h.upd _).entry rfl rfl nofun
  exact hdone.next

end Tabled

theorem memWrite_tabled (label : Seq) {reg : DevReg} {v : List Byte} (hrow : (writeTo c reg v).InTable c)
    (h : Tabled c a s) : TabledResult c a (memWrite label reg v s) := by
  obtain rfl := h.cfg
  exact (h.send label hrow).next

/-- The block reads the status word only. -/
theorem memRead_tabled (label : Seq) (h : Tabled c a s) : TabledResult c a (memRead label .sw s) := by
  obtain rfl := h.cfg
  exact (h.send label (.inl rfl)).next

theorem sleepThen_tabled (label : Seq) (d : Ticks) {k : State → Result} (hk : TabledResult c a (k s))
    (h : Tabled c a s) : TabledResult c a (sleepThen label d k s) := by
  unfold sleepThen
  split
  · exact hk
  · exact (h.upd _).next

/-! ### The rows of the writes (R96, R97, R102, R106) -/

theorem writeTo_cw_inTable {w : Word16} (hw : w ∈ controlWords) : (writeTo c .cw (encU16 w)).InTable c :=
  .inr (.inr (.inr (.inr (.inr (.inl ⟨w, hw, rfl⟩)))))

theorem writeTo_jog_inTable (v : BitVec 16) : (writeTo c .jog (encU16 v)).InTable c :=
  .inr (.inr (.inr (.inr (.inr (.inr ⟨v, rfl⟩)))))

theorem stage_cw_mem {k : BitVec 2} {st : Stage} (h : stage k = some st) : st.cw ∈ controlWords := by
  unfold stage at h
  split_ifs at h <;> cases h <;> decide

theorem claimWrite_inTable {r : Regs} {reg : DevReg} {v : List Byte} (h : claimWrite r = some (reg, v)) :
    (writeTo c reg v).InTable c := by
  unfold claimWrite at h
  split_ifs at h <;> cases h
  · exact .inr (.inl rfl)
  · exact .inr (.inr (.inr (.inl ⟨_, rfl⟩)))
  · exact .inr (.inr (.inr (.inr (.inl ⟨_, rfl⟩))))

theorem disableWrite_inTable {k : BitVec 2} {reg : DevReg} {v : List Byte} (h : disableWrite k = some (reg, v)) :
    (writeTo c reg v).InTable c := by
  unfold disableWrite at h
  split_ifs at h <;> cases h
  · exact writeTo_jog_inTable 0
  · exact writeTo_cw_inTable (by decide)
  · exact .inr (.inr (.inl rfl))

/-! ### ENABLE's stages and the wait -/

theorem enableIssue_tabled (h : Tabled c a s) : TabledResult c a (enableIssue s) := by
  unfold enableIssue
  split
  · exact tabledResult_fault _
  · rename_i st hst
    exact memWrite_tabled _ (writeTo_cw_inTable (stage_cw_mem hst)) h

theorem enableAfterWait_tabled (e : WaitEnd) (h : Tabled c a s) : TabledResult c a (enableAfterWait e s) := by
  unfold enableAfterWait
  split
  · exact tabledResult_fault _
  · cases e with
    | encerr => exact h.finish _ _
    | expired => exact h.finish _ _
    | matched =>
      dsimp only
      split
      · exact (h.upd _).finish _ _
      · exact enableIssue_tabled (h.upd _)

theorem waitbAfterWait_tabled (e : WaitEnd) (h : Tabled c a s) : TabledResult c a (waitbAfterWait e s) := by
  cases e <;> exact h.finish _ _

theorem waitReturn_tabled (e : WaitEnd) (h : Tabled c a s) : TabledResult c a (waitReturn e s) := by
  unfold waitReturn
  dsimp only
  split
  · exact waitbAfterWait_tabled e (h.upd _)
  · split
    · exact enableAfterWait_tabled e (h.upd _)
    · exact tabledResult_fault _

theorem waitTest_tabled (h : Tabled c a s) : TabledResult c a (waitTest s) := by
  unfold waitTest
  split
  · exact waitReturn_tabled _ h
  · exact memRead_tabled _ (h.upd _)

theorem waitStart_tabled (h : Tabled c a s) : TabledResult c a (waitStart s) := waitTest_tabled (h.upd _)

theorem waitResume_tabled (ok : Bool) (payload : List Byte) (h : Tabled c a s) :
    TabledResult c a (waitResume ok payload s) := by
  have hnoted := h.upd (noteStatus (readClass ok payload))
  have hsleep := sleepThen_tabled .waitSlp s.cfg.pollTicks (waitTest_tabled hnoted) hnoted
  unfold waitResume
  dsimp only
  split
  · exact waitReturn_tabled _ hnoted
  · split
    · exact waitReturn_tabled _ hnoted
    · exact hsleep
  · exact hsleep

theorem rdstatStart_tabled (h : Tabled c a s) : TabledResult c a (rdstatStart s) := memRead_tabled _ (h.upd _)

theorem rdstatResume_tabled (ok : Bool) (payload : List Byte) (h : Tabled c a s) :
    TabledResult c a (rdstatResume ok payload s) := by
  unfold rdstatResume
  dsimp only
  split <;> exact (h.upd _).finish _ _

/-! ### CLAIM, ENABLE and DISABLE -/

theorem claimIssue_tabled (h : Tabled c a s) : TabledResult c a (claimIssue s) := by
  unfold claimIssue
  split
  · exact tabledResult_fault _
  · rename_i reg v hw
    exact memWrite_tabled _ (claimWrite_inTable hw) h

theorem claimStart_tabled (h : Tabled c a s) : TabledResult c a (claimStart s) := claimIssue_tabled (h.upd _)

theorem claimResume_tabled (ok : Bool) (h : Tabled c a s) : TabledResult c a (claimResume ok s) := by
  unfold claimResume
  dsimp only
  split
  · exact tabledResult_fault _
  · split
    · exact (h.upd _).finish _ _
    · split
      · exact (h.upd _).finish _ _
      · exact claimIssue_tabled (h.upd _)

theorem enableStart_tabled (h : Tabled c a s) : TabledResult c a (enableStart s) := enableIssue_tabled (h.upd _)

theorem enableResume_tabled (ok : Bool) (h : Tabled c a s) : TabledResult c a (enableResume ok s) := by
  unfold enableResume
  split
  · exact tabledResult_fault _
  · split
    · exact waitStart_tabled (h.upd _)
    · exact h.finish _ _

theorem disableIssue_tabled (h : Tabled c a s) : TabledResult c a (disableIssue s) := by
  unfold disableIssue
  split
  · exact tabledResult_fault _
  · rename_i reg v hw
    exact memWrite_tabled _ (disableWrite_inTable hw) h

theorem disableStart_tabled (h : Tabled c a s) : TabledResult c a (disableStart s) := disableIssue_tabled (h.upd _)

theorem disableResume_tabled (ok : Bool) (h : Tabled c a s) : TabledResult c a (disableResume ok s) := by
  unfold disableResume
  dsimp only
  split
  · exact tabledResult_fault _
  · split
    · exact (h.upd _).finish _ _
    · exact disableIssue_tabled (h.upd _)

/-! ### TRIG and STOP -/

theorem trigAttempt_tabled (h : Tabled c a s) : TabledResult c a (trigAttempt s) :=
  memWrite_tabled _ (writeTo_jog_inTable _) (h.upd _)

theorem trigStart_tabled (h : Tabled c a s) : TabledResult c a (trigStart s) := by
  unfold trigStart
  split
  · exact h.finish _ _
  · split
    · exact h.finish _ _
    · exact trigAttempt_tabled (h.upd _)

theorem trigResume_tabled (ok : Bool) (h : Tabled c a s) : TabledResult c a (trigResume ok s) := by
  unfold trigResume
  split
  · exact h.finish _ _
  · split
    · exact h.finish _ _
    · exact sleepThen_tabled _ _ (trigAttempt_tabled h) h

theorem stopStart_tabled (h : Tabled c a s) : TabledResult c a (stopStart s) :=
  memWrite_tabled _ (writeTo_jog_inTable 0) h

theorem stopResume_tabled (ok : Bool) (h : Tabled c a s) : TabledResult c a (stopResume ok s) :=
  (h.upd _).finish _ _

/-! ### The events (R38 to R40, R130) -/

theorem accept_tabled {i : Instr} {proc : State → Result} (hp : ∀ {u}, Tabled c a u → TabledResult c a (proc u))
    (h : Tabled c a s) : TabledResult c a (accept i proc s) := by
  have hcmd : Tabled c a (s.record (.cmd (encode i))) := h.entry rfl rfl nofun
  unfold accept
  dsimp only
  split
  · exact h.next
  · split
    · exact hp (hcmd.upd _)
    · exact (hcmd.upd _).finish _ _

theorem acceptIllegal_tabled (w : CmdWord) (h : Tabled c a s) : TabledResult c a (acceptIllegal w s) := by
  have hcmd : Tabled c a (s.record (.cmd w)) := h.entry rfl rfl nofun
  unfold acceptIllegal
  split
  · exact h.next
  · exact (hcmd.upd _).finish _ _

theorem exec_tabled (i : Instr) (h : Tabled c a s) : TabledResult c a (exec i s) := by
  cases i with
  | claim ff m v => exact accept_tabled claimStart_tabled h
  | enable d => exact accept_tabled enableStart_tabled h
  | disable => exact accept_tabled disableStart_tabled h
  | trig v n => exact accept_tabled trigStart_tabled h
  | stop => exact accept_tabled stopStart_tabled h
  | rdstat => exact accept_tabled rdstatStart_tabled h
  | waitb b v d => exact accept_tabled waitStart_tabled h

theorem onCommand_tabled (w : CmdWord) (h : Tabled c a s) : TabledResult c a (onCommand w s) := by
  unfold onCommand
  split
  · exact exec_tabled _ h
  · exact acceptIllegal_tabled w h

theorem resume_tabled (ok : Bool) (payload : List Byte) (h : Tabled c a s) :
    TabledResult c a (resume ok payload s) := by
  unfold resume
  cases s.regs.seq with
  | claimWr => exact claimResume_tabled ok h
  | enCw => exact enableResume_tabled ok h
  | waitRd => exact waitResume_tabled ok payload h
  | disWr => exact disableResume_tabled ok h
  | trigWr => exact trigResume_tabled ok h
  | stopWr => exact stopResume_tabled ok h
  | rd => exact rdstatResume_tabled ok payload h
  | idle => exact tabledResult_fault _
  | waitSlp => exact tabledResult_fault _
  | trigSlp => exact tabledResult_fault _

theorem onResponse_tabled (ok : Bool) (payload : List Byte) (h : Tabled c a s) :
    TabledResult c a (onResponse ok payload s) := by
  have hrsp : Tabled c a (s.record (.rsp ok payload)) := h.entry rfl rfl nofun
  unfold onResponse
  dsimp only
  split
  · exact resume_tabled ok payload (hrsp.upd _)
  · exact hrsp.next

theorem countDelay_tabled {k : State → Result} (hk : ∀ {u}, Tabled c a u → TabledResult c a (k u))
    (h : Tabled c a s) : TabledResult c a (countDelay k s) := by
  unfold countDelay
  dsimp only
  split
  · exact tabledResult_fault _
  · split
    · exact hk (h.upd _)
    · exact (h.upd _).next

theorem onTick_tabled (h : Tabled c a s) : TabledResult c a (onTick s) := by
  unfold onTick
  cases s.regs.seq
  case waitSlp => exact countDelay_tabled waitTest_tabled h.countTick
  case trigSlp => exact countDelay_tabled trigAttempt_tabled h.countTick
  all_goals exact h.countTick.next

theorem onReset_tabled (h : Tabled c a s) : TabledResult c a (onReset s) := by
  have hreset : Tabled c a (s.record .reset) := h.entry rfl rfl nofun
  rw [onReset_eq]
  exact (hreset.upd _).next

theorem step_tabled (h : step s = .next t) : Tabled s.cfg s.history t := by
  have hstart (es : List Event) : Tabled s.cfg s.history { s with events := es } := .refl { s with events := es }
  obtain ⟨-, ⟨-, rfl⟩ | ⟨w, es, -, hcmd⟩ | ⟨ok, p, es, -, hrsp⟩ | ⟨es, -, htick⟩ | ⟨es, -, hreset⟩⟩ := step_cases h
  · exact .refl t
  · exact onCommand_tabled w (hstart es) t hcmd
  · exact onResponse_tabled ok p (hstart es) t hrsp
  · exact onTick_tabled (hstart es) t htick
  · exact onReset_tabled (hstart es) t hreset

/-- Settles O27: what a step adds to the record stands after the record it starts from (`step_tabled`). -/
theorem requestsInTable : Obligations.RequestsInTable := by
  intro s t h
  obtain ⟨-, d, hd, hrows⟩ := step_tabled h
  rw [hd, List.drop_left]
  exact hrows

end Sys2Proof.Machine
end

section
/-! Decoding and encoding (R61 to R71, R74): each row's match and mask read by fields, and the decoder as the inverse of
the encoder. -/

namespace Sys2Proof

variable {w : CmdWord} {i j : Instr}

/-! ### Words and their fields (R61) -/

/-- R61: a word is its five fields put together. -/
theorem append_fields (w : CmdWord) :
    fieldW w ++ fieldH w ++ fieldB w ++ w.extractLsb' 4 4 ++ fieldOpc w = w := by
  have join (a m n : Nat) : w.extractLsb' (a + m) n ++ w.extractLsb' a m = w.extractLsb' a (n + m) :=
    BitVec.extractLsb'_append_extractLsb'_eq_extractLsb' rfl
  calc
    _ = w.extractLsb' 0 64 := by
      unfold fieldW fieldH fieldB fieldOpc
      rw [join 16 16 32, join 8 8 48, join 4 4 56, join 0 4 60]
    _ = w := BitVec.extractLsb'_eq_self

/-- R61: two words are equal exactly when each of their fields is. -/
theorem eq_iff_fields (v w : CmdWord) :
    v = w ↔ fieldOpc v = fieldOpc w ∧ v.extractLsb' 4 4 = w.extractLsb' 4 4 ∧ fieldB v = fieldB w ∧
      fieldH v = fieldH w ∧ fieldW v = fieldW w := by
  constructor
  · rintro rfl
    exact ⟨rfl, rfl, rfl, rfl, rfl⟩
  · rintro ⟨hopc, hz, hb, hh, hw⟩
    rw [← append_fields v, hopc, hz, hb, hh, hw, append_fields]

/-- Bits cut from a cut are bits cut from the word. -/
theorem extractLsb'_extractLsb' {n a k b l : Nat} (x : BitVec n) (h : b + l ≤ k) :
    (x.extractLsb' a k).extractLsb' b l = x.extractLsb' (a + b) l := by
  apply BitVec.eq_of_getLsbD_eq
  intro j hj
  simp [hj, show b + j < k by omega, Nat.add_assoc]

/-- The bits of `B` as bits of the word. -/
theorem extractLsb'_fieldB {a n : Nat} (w : CmdWord) (h : a + n ≤ 8) :
    (fieldB w).extractLsb' a n = w.extractLsb' (8 + a) n :=
  extractLsb'_extractLsb' w h

theorem getLsbD_fieldB {k : Nat} (w : CmdWord) (h : k < 8) : (fieldB w).getLsbD k = w.getLsbD (8 + k) := by
  simp [fieldB, h]

theorem fieldH_append_fieldB (w : CmdWord) : fieldH w ++ fieldB w = w.extractLsb' 8 24 :=
  BitVec.extractLsb'_append_extractLsb'_eq_extractLsb' rfl

theorem fieldW_append_fieldH_append_fieldB (w : CmdWord) :
    fieldW w ++ (fieldH w ++ fieldB w) = w.extractLsb' 8 56 := by
  rw [fieldH_append_fieldB]
  exact BitVec.extractLsb'_append_extractLsb'_eq_extractLsb' rfl

theorem encode_fields (i : Instr) : Laws.EncodedFields.Statement i := fields_of_parts _ _ _ _

/-- R61, R64: the word of a command, by its fields. -/
theorem encode_eq_iff :
    encode i = w ↔ fieldOpc w = i.opc ∧ w.extractLsb' 4 4 = 0 ∧ fieldB w = i.byteField ∧
      fieldH w = i.halfField ∧ fieldW w = i.wordField := by
  obtain ⟨hopc, hz, hb, hh, hw⟩ := encode_fields i
  rw [eq_comm, eq_iff_fields, hopc, hz, hb, hh, hw]

/-- R64: `w AND mask = match`, by fields. -/
theorem OpRow.hits_iff (r : OpRow) (w : CmdWord) :
    r.hits w = true ↔ fieldOpc w &&& fieldOpc r.mask = fieldOpc r.pattern ∧
      w.extractLsb' 4 4 &&& r.mask.extractLsb' 4 4 = r.pattern.extractLsb' 4 4 ∧
      fieldB w &&& fieldB r.mask = fieldB r.pattern ∧ fieldH w &&& fieldH r.mask = fieldH r.pattern ∧
      fieldW w &&& fieldW r.mask = fieldW r.pattern := by
  simp only [OpRow.hits, decide_eq_true_iff, eq_iff_fields, fieldOpc, fieldB, fieldH, fieldW, BitVec.extractLsb'_and]

/-! ### The rows of the table (R64) -/

/-- The seven commands without their operands (R63). -/
inductive Mnemonic where
  | claim
  | enable
  | disable
  | trig
  | stop
  | rdstat
  | waitb

/-- The command's row of the table (R64). -/
def Mnemonic.row : Mnemonic → OpRow
  | .claim => rowClaim
  | .enable => rowEnable
  | .disable => rowDisable
  | .trig => rowTrig
  | .stop => rowStop
  | .rdstat => rowRdstat
  | .waitb => rowWaitb

/-- The command with its operands cut from a word (R65 to R68). -/
def Mnemonic.read (w : CmdWord) : Mnemonic → Instr
  | .claim => .claim (w.getLsbD 8) (fieldH w) (fieldW w)
  | .enable => .enable (fieldW w)
  | .disable => .disable
  | .trig => .trig (fieldH w) (fieldB w)
  | .stop => .stop
  | .rdstat => .rdstat
  | .waitb => .waitb (w.extractLsb' 8 4) (w.getLsbD 12) (fieldW w)

/-- A command without its operands. -/
def Instr.mnemonic : Instr → Mnemonic
  | .claim _ _ _ => .claim
  | .enable _ => .enable
  | .disable => .disable
  | .trig _ _ => .trig
  | .stop => .stop
  | .rdstat => .rdstat
  | .waitb _ _ _ => .waitb

theorem mnemonic_eq_of_opc_eq (h : i.opc = j.opc) : i.mnemonic = j.mnemonic := by
  cases i <;> cases j <;> simp [Instr.opc] at h <;> rfl

/-- A mask that covers the whole of a field leaves it unchanged. -/
theorem and_full {n k : Nat} (x : BitVec n) (hk : k = 2 ^ n - 1) : x &&& BitVec.ofNat n k = x := by
  apply BitVec.eq_of_toNat_eq
  simp [hk, Nat.and_two_pow_sub_one_eq_mod, Nat.mod_eq_of_lt x.isLt]

/-- R65: the mask of CLAIM covers `B[7:1]`. -/
theorem and_claimMask_iff (b : BitVec 8) : b &&& 0xFE#8 = 0#8 ↔ b = 0#7 ++ BitVec.ofBool (b.getLsbD 0) := by
  revert b
  decide

/-- R68: the mask of WAITB covers `B[7:5]`. -/
theorem and_waitbMask_iff (b : BitVec 8) :
    b &&& 0xE0#8 = 0#8 ↔ b = 0#3 ++ BitVec.ofBool (b.getLsbD 4) ++ b.extractLsb' 0 4 := by
  revert b
  decide

/-- R64 to R68: a row matches exactly the words that its command, read from the word, is encoded by: the mask covers the
whole of a field that holds no operand, and nothing of one that holds nothing else. -/
theorem row_hits_iff (m : Mnemonic) (w : CmdWord) : m.row.hits w = true ↔ encode (m.read w) = w := by
  rw [OpRow.hits_iff, encode_eq_iff]
  cases m <;>
    simp [Mnemonic.row, rowClaim, rowEnable, rowDisable, rowTrig, rowStop, rowRdstat, rowWaitb, Mnemonic.read, Instr.opc,
      Instr.byteField, Instr.halfField, Instr.wordField, fieldOpc, fieldB, fieldH, fieldW, and_full, and_claimMask_iff,
      and_waitbMask_iff, extractLsb'_extractLsb']

/-- R65 to R68: a command is read back from its own word. -/
theorem read_encode (i : Instr) : i.mnemonic.read (encode i) = i := by
  obtain ⟨-, -, hb, hh, hw⟩ := encode_fields i
  cases i with
  | claim ff m v =>
    have hff : (encode (.claim ff m v)).getLsbD 8 = ff := by
      rw [← getLsbD_fieldB _ (k := 0) (by decide), hb, Instr.byteField, BitVec.getLsbD_append]
      simp
    simp only [Instr.mnemonic, Mnemonic.read, hff, hh, hw, Instr.halfField, Instr.wordField]
  | enable t => rw [Instr.mnemonic, Mnemonic.read, hw, Instr.wordField]
  | trig v n => rw [Instr.mnemonic, Mnemonic.read, hh, hb, Instr.halfField, Instr.byteField]
  | waitb b t d =>
    have hbit : (encode (.waitb b t d)).extractLsb' 8 4 = b := by
      rw [← extractLsb'_fieldB _ (a := 0) (by decide), hb]
      exact BitVec.extractLsb'_append_eq_right
    have htarget : (encode (.waitb b t d)).getLsbD 12 = t := by
      rw [← getLsbD_fieldB _ (k := 4) (by decide), hb, Instr.byteField, BitVec.getLsbD_append, BitVec.getLsbD_append]
      simp
    simp only [Instr.mnemonic, Mnemonic.read, hbit, htarget, hw, Instr.wordField]
  | disable | stop | rdstat => rfl

/-- No two commands have one word. -/
theorem encode_injective (h : encode i = encode j) : i = j := by
  have hopc : i.opc = j.opc := by
    obtain ⟨hi, -⟩ := encode_fields i
    obtain ⟨hj, -⟩ := encode_fields j
    rw [← hi, h, hj]
  calc
    i = i.mnemonic.read (encode i) := (read_encode i).symm
    _ = j.mnemonic.read (encode j) := by rw [h, mnemonic_eq_of_opc_eq hopc]
    _ = j := read_encode j

/-! ### The decoder (R70, R71) -/

/-- R70, R71: a word has a row that matches and decodes to that row's command, or no row matches and it is illegal. -/
theorem decode_cases (w : CmdWord) :
    (∃ m : Mnemonic, m.row.hits w = true ∧ decode w = .ok (m.read w)) ∨
    ((∀ m : Mnemonic, m.row.hits w ≠ true) ∧
      decode w = .error (if 1 ≤ (fieldOpc w).toNat ∧ (fieldOpc w).toNat ≤ 7 then .reservedBits else .reservedOpcode)) := by
  unfold decode
  simp only [Bool.and_eq_true, decide_eq_true_iff]
  split_ifs with hclaim henable hdisable htrig hstop hrdstat hwaitb
  · exact .inl ⟨.claim, hclaim, rfl⟩
  · exact .inl ⟨.enable, henable, rfl⟩
  · exact .inl ⟨.disable, hdisable, rfl⟩
  · exact .inl ⟨.trig, htrig, rfl⟩
  · exact .inl ⟨.stop, hstop, rfl⟩
  · exact .inl ⟨.rdstat, hrdstat, rfl⟩
  · exact .inl ⟨.waitb, hwaitb, rfl⟩
  all_goals exact .inr ⟨fun m => by cases m <;> assumption, rfl⟩

theorem encode_of_decode (h : decode w = .ok i) : encode i = w := by
  obtain ⟨m, hhits, hm⟩ | ⟨-, herr⟩ := decode_cases w
  · obtain rfl : m.read w = i := Except.ok.inj (hm.symm.trans h)
    exact (row_hits_iff m w).mp hhits
  · rw [herr] at h
    cases h

theorem decode_encode (i : Instr) : decode (encode i) = .ok i := by
  obtain ⟨m, hhits, hm⟩ | ⟨hnone, -⟩ := decode_cases (encode i)
  · rw [hm, encode_injective ((row_hits_iff m _).mp hhits)]
  · have hhits : i.mnemonic.row.hits (encode i) = true := by rw [row_hits_iff, read_encode]
    exact absurd hhits (hnone _)

theorem decode_eq_ok_iff : decode w = .ok i ↔ encode i = w :=
  ⟨encode_of_decode, fun h => h ▸ decode_encode i⟩

theorem decode_eq_read_iff (m : Mnemonic) (w : CmdWord) : decode w = .ok (m.read w) ↔ m.row.hits w = true := by
  rw [decode_eq_ok_iff, row_hits_iff]

theorem decode_eq_error_iff (w : CmdWord) : (∃ e, decode w = .error e) ↔ ∀ m : Mnemonic, m.row.hits w ≠ true := by
  obtain ⟨m, hhits, hm⟩ | ⟨hnone, herr⟩ := decode_cases w
  · simp only [hm, reduceCtorEq, exists_false, false_iff]
    exact fun hnone => hnone m hhits
  · exact ⟨fun _ => hnone, fun _ => ⟨_, herr⟩⟩

/-- Settles O1: the word of a command is its own row's (`row_hits_iff`), and no two commands have one word. -/
theorem decodeOfEncode : Obligations.DecodeOfEncode := decode_encode

/-- Settles O2: a row matches no other words than those of its command (`row_hits_iff`). -/
theorem encodeOfDecode : Obligations.EncodeOfDecode := fun _ _ => encode_of_decode

/-- Settles O3: a row's command is decoded exactly where the row matches (`decode_eq_read_iff`). -/
theorem decodeFollowsTheTable : Obligations.DecodeFollowsTheTable := by
  intro w
  have row (m : Mnemonic) : decode w = .ok (m.read w) ↔ w &&& m.row.mask = m.row.pattern :=
    (decode_eq_read_iff m w).trans decide_eq_true_iff
  refine ⟨row .claim, row .enable, row .disable, row .trig, row .stop, row .rdstat, row .waitb, ?_⟩
  rw [decode_eq_error_iff]
  constructor
  · intro hnone
    have hrow (m : Mnemonic) : w &&& m.row.mask ≠ m.row.pattern := fun h => hnone m (decide_eq_true h)
    exact ⟨hrow .claim, hrow .enable, hrow .disable, hrow .trig, hrow .stop, hrow .rdstat, hrow .waitb⟩
  · rintro ⟨hclaim, henable, hdisable, htrig, hstop, hrdstat, hwaitb⟩ m hhits
    have hmask := of_decide_eq_true hhits
    cases m <;> contradiction

/-! ### Reserved patterns (R71) -/

theorem opc_range (i : Instr) : 1 ≤ i.opc.toNat ∧ i.opc.toNat ≤ 7 := by
  cases i <;> simp [Instr.opc]

/-- R64: what a command's fields hold where its opcode has no operand. -/
theorem reservedFields_eq_zero (i : Instr) :
    (i.opc = 1 → i.byteField.extractLsb' 1 7 = 0) ∧ (i.opc = 2 → i.halfField ++ i.byteField = 0) ∧
    (i.opc = 3 ∨ i.opc = 5 ∨ i.opc = 6 → i.wordField ++ (i.halfField ++ i.byteField) = 0) ∧
    (i.opc = 4 → i.wordField = 0) ∧ (i.opc = 7 → i.byteField.extractLsb' 5 3 = 0 ∧ i.halfField = 0) := by
  cases i with
  | claim ff m v =>
    have hhigh : (0#7 ++ BitVec.ofBool ff).extractLsb' 1 7 = 0 := BitVec.extractLsb'_append_eq_left
    simp [Instr.opc, Instr.byteField, hhigh]
  | waitb b t d =>
    have hhigh : (0#3 ++ BitVec.ofBool t ++ b).extractLsb' 5 3 = 0 := by
      rw [BitVec.extractLsb'_append_eq_of_le (by decide)]
      exact BitVec.extractLsb'_append_eq_left
    simp [Instr.opc, Instr.byteField, Instr.halfField, hhigh]
  | enable | disable | trig | stop | rdstat => simp [Instr.opc, Instr.byteField, Instr.halfField, Instr.wordField]

/-- R64 to R69: the bits of a word that its opcode leaves no meaning are 0. -/
structure ReservedBitsClear (w : CmdWord) : Prop where
  z : w.extractLsb' 4 4 = 0
  claim : fieldOpc w = 1 → w.extractLsb' 9 7 = 0
  enable : fieldOpc w = 2 → w.extractLsb' 8 24 = 0
  bare : fieldOpc w = 3 ∨ fieldOpc w = 5 ∨ fieldOpc w = 6 → w.extractLsb' 8 56 = 0
  trig : fieldOpc w = 4 → fieldW w = 0
  waitb : fieldOpc w = 7 → w.extractLsb' 13 3 = 0 ∧ fieldH w = 0

theorem reservedBitsClear_of_encode (h : encode i = w) : ReservedBitsClear w := by
  obtain ⟨hopc, hz, hb, hh, hw⟩ := encode_eq_iff.mp h
  have hi := reservedFields_eq_zero i
  rw [← hopc, ← hb, ← hh, ← hw, fieldW_append_fieldH_append_fieldB, fieldH_append_fieldB,
    extractLsb'_fieldB w (by decide), extractLsb'_fieldB w (by decide)] at hi
  obtain ⟨hclaim, henable, hbare, htrig, hwaitb⟩ := hi
  exact ⟨hz, hclaim, henable, hbare, htrig, hwaitb⟩

theorem decode_of_not_encode (h : ∀ i, encode i ≠ w) :
    decode w =
      .error (if 1 ≤ (fieldOpc w).toNat ∧ (fieldOpc w).toNat ≤ 7 then .reservedBits else .reservedOpcode) := by
  obtain ⟨m, hhits, -⟩ | ⟨-, herr⟩ := decode_cases w
  · exact absurd ((row_hits_iff m w).mp hhits) (h _)
  · exact herr

theorem decode_reservedOpcode (h : ¬(1 ≤ (fieldOpc w).toNat ∧ (fieldOpc w).toNat ≤ 7)) :
    decode w = .error .reservedOpcode := by
  rw [decode_of_not_encode, if_neg h]
  intro i hi
  rw [(encode_eq_iff.mp hi).1] at h
  exact h (opc_range i)

theorem decode_reservedBits (hopc : 1 ≤ (fieldOpc w).toNat ∧ (fieldOpc w).toNat ≤ 7) (h : ¬ReservedBitsClear w) :
    decode w = .error .reservedBits := by
  rw [decode_of_not_encode fun _ hi => h (reservedBitsClear_of_encode hi), if_pos hopc]

/-- Settles O4: a word of a command has an opcode of 1 to 7 and its reserved bits are 0
(`reservedBitsClear_of_encode`). -/
theorem reservedPatternsAreIllegal : Obligations.ReservedPatternsAreIllegal := by
  intro w
  have range {k : BitVec 4} (h : fieldOpc w = k) (hk : 1 ≤ k.toNat ∧ k.toNat ≤ 7) :
      1 ≤ (fieldOpc w).toNat ∧ (fieldOpc w).toNat ≤ 7 := h ▸ hk
  refine ⟨fun hopc => decode_reservedOpcode ?_, fun hopc => decode_reservedOpcode ?_,
    fun hlo hhi hz => decode_reservedBits ⟨hlo, hhi⟩ fun hclear => hz hclear.z,
    fun hopc hne => decode_reservedBits (range hopc (by decide)) fun hclear => hne (hclear.claim hopc),
    fun hopc hne => decode_reservedBits (range hopc (by decide)) fun hclear => hne (hclear.enable hopc),
    fun hopc hne => decode_reservedBits ?_ fun hclear => hne (hclear.bare hopc),
    fun hopc hne => decode_reservedBits (range hopc (by decide)) fun hclear => hne (hclear.trig hopc),
    fun hopc hne => decode_reservedBits (range hopc (by decide)) fun hclear => ?_⟩
  · have hzero : fieldOpc w = 0 := hopc
    simp [hzero]
  · have hhigh : 8 ≤ (fieldOpc w).toNat := hopc
    omega
  · obtain h | h | h := hopc <;> exact range h (by decide)
  · obtain ⟨hb, hh⟩ := hclear.waitb hopc
    exact hne.elim (· hb) (· hh)

/-! ### The table of encodings (R74) -/

/-- Settles O5: each word is the encoding of its source line's command, and the last has a bit of `Z` set. -/
theorem tableWordsDecode : Obligations.TableWordsDecode := by
  have hillegal : ¬ReservedBitsClear 0x13 := fun hclear => absurd hclear.z (by decide)
  refine ⟨?_, ?_, ?_, ?_, ?_, ?_, ?_, ?_, ?_, ?_, ?_, ?_, decode_reservedBits (by decide) hillegal⟩ <;>
    exact decode_eq_ok_iff.mpr rfl

end Sys2Proof
end

section
/-! The assembler (R72, R73): which operands are in range, and the word of a line whose operands are. -/

namespace Sys2Proof.Machine

variable {c : Cfg}

/-! ### Ranges (R11, R72) -/

theorem inUnsigned_iff (n : Nat) (v : Int) : inUnsigned n v = true ↔ 0 ≤ v ∧ v < 2 ^ n := by
  simp [inUnsigned]

theorem inSigned_iff (n : Nat) (v : Int) : inSigned n v = true ↔ -(2 ^ (n - 1)) ≤ v ∧ v < 2 ^ (n - 1) := by
  simp [inSigned]

theorem inUnsigned_toNat {n : Nat} (v : BitVec n) : inUnsigned n v.toNat = true := by
  rw [inUnsigned_iff]
  exact ⟨Int.natCast_nonneg _, by exact_mod_cast v.isLt⟩

/-! ### Lines -/

theorem assemble_of_wellFormed (line : AsmLine) (h : line.wellFormed = true) :
    assemble c line = .ok (lineWord (expandLine c line)) :=
  if_pos h

theorem assemble_eq_outOfRange_iff (line : AsmLine) :
    assemble c line = .error .outOfRange ↔ ¬line.wellFormed = true := by
  refine ⟨fun h hwf => ?_, fun h => if_neg h⟩
  rw [assemble_of_wellFormed line hwf] at h
  cases h

theorem assemble_claim {m v : Int} (hm : -32768 ≤ m) (hm' : m ≤ 32767) (hv : -2147483648 ≤ v) (hv' : v ≤ 2147483647) :
    assemble c (.claim m v) = .ok (some (encode (.claim false (BitVec.ofInt 16 m) (BitVec.ofInt 32 v)))) ∧
    assemble c (.claimFf m v) = .ok (some (encode (.claim true (BitVec.ofInt 16 m) (BitVec.ofInt 32 v)))) ∧
    assemble c (.jogmode v) = .ok (some (encode (.claim false 0xFFFF (BitVec.ofInt 32 v)))) := by
  have hmode : inSigned 16 m = true := by
    rw [inSigned_iff]
    omega
  have hvel : inSigned 32 v = true := by
    rw [inSigned_iff]
    omega
  have hboth : (inSigned 16 m && inSigned 32 v) = true := by rw [hmode, hvel, Bool.and_self]
  exact ⟨assemble_of_wellFormed _ hboth, assemble_of_wellFormed _ hboth, assemble_of_wellFormed _ hvel⟩

theorem assemble_timeout (t : Ticks) :
    assemble c (.enable t.toNat) = .ok (some (encode (.enable t))) ∧
    assemble c (.waitrtso t.toNat) = .ok (some (encode (.waitb 0 true t))) ∧
    assemble c (.waitswon t.toNat) = .ok (some (encode (.waitb 1 true t))) ∧
    assemble c (.waitopen t.toNat) = .ok (some (encode (.waitb 2 true t))) := by
  have hin := inUnsigned_toNat t
  rw [assemble_of_wellFormed (.enable t.toNat) hin, assemble_of_wellFormed (.waitrtso t.toNat) hin,
    assemble_of_wellFormed (.waitswon t.toNat) hin, assemble_of_wellFormed (.waitopen t.toNat) hin]
  simp [expandLine, lineWord]

theorem assemble_trig (v : BitVec 16) (n : BitVec 8) :
    assemble c (.trig v.toNat n.toNat) = .ok (some (encode (.trig v n))) ∧
    assemble c (.trigDefault v.toNat) = .ok (some (encode (.trig v c.defRetries))) := by
  have hin := inUnsigned_toNat v
  have hboth : (AsmLine.trig v.toNat n.toNat).wellFormed = true := by
    rw [AsmLine.wellFormed, hin, inUnsigned_toNat, Bool.and_self]
  rw [assemble_of_wellFormed _ hboth, assemble_of_wellFormed (.trigDefault v.toNat) hin]
  simp [expandLine, lineWord]

theorem assemble_waitb (b : BitVec 4) (t : Ticks) :
    assemble c (.waitb b.toNat 0 t.toNat) = .ok (some (encode (.waitb b false t))) ∧
    assemble c (.waitb b.toNat 1 t.toNat) = .ok (some (encode (.waitb b true t))) := by
  have hin {v : Int} (hv : inUnsigned 1 v = true) : (AsmLine.waitb b.toNat v t.toNat).wellFormed = true := by
    rw [AsmLine.wellFormed, inUnsigned_toNat, inUnsigned_toNat, hv, Bool.and_self, Bool.and_self]
  rw [assemble_of_wellFormed _ (hin (v := 0) rfl), assemble_of_wellFormed _ (hin (v := 1) rfl)]
  simp [expandLine, lineWord]

theorem assemble_word (w : CmdWord) : assemble c (.word w.toNat) = .ok (some w) := by
  rw [assemble_of_wellFormed (.word w.toNat) (inUnsigned_toNat w)]
  simp [expandLine, lineWord]

theorem assemble_enableDefault : assemble c .enableDefault = .ok (some (encode (.enable c.defTimeoutTicks))) := by
  rw [assemble_of_wellFormed _ rfl]
  simp [expandLine, lineWord]

theorem assemble_hwait (n : Nat) : assemble c (.hwait n) = .ok none :=
  assemble_of_wellFormed _ (decide_eq_true (Int.natCast_nonneg n))

/-- Settles O6: a line is refused exactly when it is not well formed (`assemble_eq_outOfRange_iff`), and otherwise gives
the word of the line it expands to. -/
theorem assembledLines : Obligations.AssembledLines := by
  intro c
  refine ⟨?_, ?_, ?_, ?_, ?_, ?_, ?_, ?_, fun _ _ => assemble_claim, assemble_timeout, assemble_trig, assemble_waitb,
    assemble_word, assemble_enableDefault, rfl, rfl, rfl, assemble_hwait⟩
  all_goals
    intros
    simp only [assemble_eq_outOfRange_iff, AsmLine.wellFormed, Bool.and_eq_true, decide_eq_true_iff, inUnsigned_iff,
      inSigned_iff]
    omega

end Sys2Proof.Machine
end

section
/-! The payload codec (R75 to R81, R83): a pattern is its bytes put together, highest first, so each decoder gives back
the pattern its encoder took apart. -/

namespace Sys2Proof.Machine

/-! ### Patterns and their bytes (R47) -/

theorem append_bytes16 (u : BitVec 16) : u.extractLsb' 8 8 ++ u.extractLsb' 0 8 = u :=
  calc
    _ = u.extractLsb' 0 16 := BitVec.extractLsb'_append_extractLsb'_eq_extractLsb' rfl
    _ = u := BitVec.extractLsb'_eq_self

theorem append_bytes32 (u : BitVec 32) :
    u.extractLsb' 24 8 ++ u.extractLsb' 16 8 ++ u.extractLsb' 8 8 ++ u.extractLsb' 0 8 = u := by
  have join (a m n : Nat) : u.extractLsb' (a + m) n ++ u.extractLsb' a m = u.extractLsb' a (n + m) :=
    BitVec.extractLsb'_append_extractLsb'_eq_extractLsb' rfl
  calc
    _ = u.extractLsb' 0 32 := by rw [join 16 8 8, join 8 8 16, join 0 8 24]
    _ = u := BitVec.extractLsb'_eq_self

theorem toNat_append_byte (b1 b0 : Byte) : (b1 ++ b0).toNat = b0.toNat + 256 * b1.toNat := by
  rw [BitVec.toNat_append, ← Nat.shiftLeft_add_eq_or_of_lt b0.isLt, Nat.shiftLeft_eq]
  omega

/-! ### Decoding what was encoded (R81) -/

theorem decU16_encU16 (v : BitVec 16) : decU16 (encU16 v) = some v.toNat := by
  rw [encU16, decU16, append_bytes16]

theorem decSw_encU16 (v : BitVec 16) : decSw (encU16 v) = .word v := by
  rw [encU16, decSw, append_bytes16]

theorem decS16_encS16 (v : Int) : decS16 (encS16 v) = some (BitVec.ofInt 16 v).toInt := by
  rw [encS16, encU16, decS16, append_bytes16]

theorem decS32_encS32 (v : Int) : decS32 (encS32 v) = some (BitVec.ofInt 32 v).toInt := by
  rw [encS32, decS32, append_bytes32]

/-- Settles O7: the pattern comes back whole, and a signed value in range is the value of its pattern. -/
theorem codecRoundTrip : Obligations.CodecRoundTrip := by
  refine ⟨decU16_encU16, fun v hlo hhi => ?_, fun v hlo hhi => ?_, decSw_encU16⟩
  · rw [decS16_encS16, BitVec.toInt_ofInt_eq_self (by decide) hlo (by omega)]
  · rw [decS32_encS32, BitVec.toInt_ofInt_eq_self (by decide) hlo (by omega)]

/-! ### The status word (R79) -/

/-- Settles O8: the decoder's three cases, the third by the value of two bytes put together (`toNat_append_byte`). -/
theorem statusWordDecoding : Obligations.StatusWordDecoding :=
  ⟨rfl, fun _ => rfl, fun b0 b1 _ => ⟨b1 ++ b0, rfl, toNat_append_byte b1 b0⟩⟩

/-! ### Signed patterns (R83) -/

theorem encS16_toInt (m : BitVec 16) : encS16 m.toInt = [m.extractLsb' 0 8, m.extractLsb' 8 8] := by
  rw [encS16, BitVec.ofInt_toInt, encU16]

theorem encS32_toInt (v : BitVec 32) :
    encS32 v.toInt = [v.extractLsb' 0 8, v.extractLsb' 8 8, v.extractLsb' 16 8, v.extractLsb' 24 8] := by
  rw [encS32, BitVec.ofInt_toInt]

/-- Settles O9: the pattern of a pattern's value is that pattern. -/
theorem signedPatternsOnTheWire : Obligations.SignedPatternsOnTheWire :=
  ⟨encS16_toInt, encS32_toInt⟩

end Sys2Proof.Machine
end

section
/-! The start of RDSTAT and WAITB, and one response to a status read (R84 to R94). -/

namespace Sys2Proof.Machine

variable {s t : State}

/-! ### Acceptance (R38, R95) -/

/-- An idle block takes a command: the word is recorded and latched, and the phase decides. -/
theorem accept_of_idle (hidle : s.regs.seq = .idle) (i : Instr) (proc : State → Result) :
    accept i proc s =
      if phaseAllowed i s.regs.phase then proc ((s.record (.cmd (encode i))).upd (latch i))
      else finish .phase 0 ((s.record (.cmd (encode i))).upd (latch i)) := by
  have hbusy : ¬ s.busy = true := by simp [busy_iff, hidle]
  unfold accept
  rw [if_neg hbusy]
  simp

theorem exec_rdstat (hidle : s.regs.seq = .idle) :
    exec .rdstat s = rdstatStart ((s.record (.cmd (encode .rdstat))).upd (latch .rdstat)) :=
  accept_of_idle hidle .rdstat rdstatStart

/-- WAITB at the head of its wait's loop, before the first deadline test (R86, R94). -/
def waitbHead (b : BitVec 4) (v : Bool) (d : Ticks) (s : State) : State where
  cfg := s.cfg
  regs := { s.regs with
    op := 0x7, wBit := b, wTarget := v, timeout := d, wActive := true, el := 0, polls := 0, lastSwValid := false }
  ticks := s.ticks
  history := s.history ++ [⟨s.ticks, .cmd (encode (.waitb b v d))⟩]
  events := s.events

theorem exec_waitb (hidle : s.regs.seq = .idle) (b : BitVec 4) (v : Bool) (d : Ticks) :
    exec (.waitb b v d) s = waitTest (waitbHead b v d s) :=
  accept_of_idle hidle (.waitb b v d) waitStart

/-- Settles O41: RDSTAT is allowed in every phase, and its start is the read. -/
theorem rdstatStarts : Obligations.RdstatStarts := by
  intro s hidle
  rw [exec_rdstat hidle]
  simp [rdstatStart, memRead, send, State.upd, State.record, latch, Instr.opc, devAddr]

/-- Settles O42: the wait's elapsed time is 0, so its deadline test lets the first read through. -/
theorem waitbStarts : Obligations.WaitbStarts := by
  intro s b v d hidle hd
  have hopen : (waitbHead b v d s).regs.el.toNat < (waitbHead b v d s).regs.timeout.toNat := toNat_pos_of_ne_zero hd
  rw [exec_waitb hidle, waitTest_of_lt hopen]
  simp [waitbHead, send, State.upd, State.record, readStatus, devAddr, sat32]

/-- Settles O43: with timeout 0 the deadline test ends the wait before its first read. -/
theorem waitbZeroTimeout : Obligations.WaitbZeroTimeout := by
  intro s b v hidle
  have hexpired := waitTest_expired_waitb (s := waitbHead b v 0 s) (Nat.zero_le _) rfl
  rw [exec_waitb hidle, hexpired, finish_eq]
  simp [waitbHead, State.upd, State.record, finishRegs, doneObs, reportsStatus, sat8, hidle]

/-! ### The classes of a response (R84) -/

theorem readClass_failed {ok : Bool} {p : List Byte} (h : ok = false ∨ p = []) : readClass ok p = .readfail := by
  obtain rfl | rfl := h
  · rfl
  · cases ok <;> rfl

/-- R89: the classes that do not end a wait. -/
theorem misses_cases {b : BitVec 4} {v ok : Bool} {p : List Byte} (h : misses b v ok p = true) :
    readClass ok p = .readfail ∨ ∃ w, readClass ok p = .sw w ∧ bitMatches w b v = false := by
  match ok, p, h with
  | false, _, _ => exact .inl rfl
  | true, [], _ => exact .inl rfl
  | true, b0 :: b1 :: _, h => exact .inr ⟨b1 ++ b0, rfl, by simpa [misses, bitMatches] using h⟩

theorem misses_of_failed {ok : Bool} {p : List Byte} (h : ok = false ∨ p = []) (b : BitVec 4) (v : Bool) :
    misses b v ok p = true := by
  obtain rfl | rfl := h
  · rfl
  · cases ok <;> rfl

/-- R79: the class reads the word of the first two bytes. -/
theorem misses_word {b : BitVec 4} {v : Bool} {x y : Byte} {q : List Byte} (h : (y ++ x).getLsbD b.toNat ≠ v) :
    misses b v true (x :: y :: q) = true := bne_iff_ne.mpr h

/-! ### What a wait does with a response (R88 to R91) -/

/-- A sleep of at least one tick is a wait point (R37 (ii)). -/
theorem sleepThen_of_ne {d : Ticks} (hd : d ≠ 0) (label : Seq) (k : State → Result) (s : State) :
    sleepThen label d k s = .next (s.upd fun r => { r with dly := d, seq := label }) := if_neg hd

theorem pollTicks_ne_zero (hwf : s.cfg.wellFormed = true) : s.cfg.pollTicks ≠ 0 :=
  fun h0 => (not_wellFormed_iff s.cfg).mpr h0 hwf

/-- R89, R90: a read that does not match is followed by the inter-poll delay. -/
theorem waitResume_missed {ok : Bool} {p : List Byte} (hwf : s.cfg.wellFormed = true)
    (h : misses s.regs.wBit s.regs.wTarget ok p = true) :
    waitResume ok p s =
      .next ((s.upd (noteStatus (readClass ok p))).upd fun r =>
        { r with dly := s.cfg.pollTicks, seq := .waitSlp }) := by
  have hsleep := sleepThen_of_ne (pollTicks_ne_zero hwf) .waitSlp waitTest (s.upd (noteStatus (readClass ok p)))
  obtain hc | ⟨w, hc, hbit⟩ := misses_cases h
  · simpa [waitResume, hc] using hsleep
  · simpa [waitResume, hc, hbit] using hsleep

/-- R94: the outcome of WAITB for the way its wait ended. -/
def WaitEnd.code : WaitEnd → ResCode
  | .matched => .ok
  | .expired => .timeout
  | .encerr => .encoding

theorem waitReturn_waitb (e : WaitEnd) (hop : s.regs.op = 0x7) :
    waitReturn e s = finish e.code (sat8 s.regs.polls.toNat) (s.upd fun r => { r with wActive := false }) := by
  cases e <;> simp [waitReturn, hop, waitbAfterWait, WaitEnd.code]

/-- R88, R94. -/
theorem waitResume_matched_waitb {x y : Byte} {q : List Byte} (hop : s.regs.op = 0x7)
    (h : (y ++ x).getLsbD s.regs.wBit.toNat = s.regs.wTarget) :
    waitResume true (x :: y :: q) s = finish .ok (sat8 s.regs.polls.toNat)
      (s.upd fun r => { r with lastSw := y ++ x, lastSwValid := true, wActive := false }) := by
  have hbit : bitMatches (y ++ x) s.regs.wBit s.regs.wTarget = true := beq_iff_eq.mpr h
  have hend := waitReturn_waitb (s := s.upd (noteStatus (.sw (y ++ x)))) .matched hop
  simp only [waitResume, readClass, decSw, hbit, if_true]
  exact hend

/-- R91, R94. -/
theorem waitResume_encerr_waitb {x : Byte} (hop : s.regs.op = 0x7) :
    waitResume true [x] s =
      finish .encoding (sat8 s.regs.polls.toNat) (s.upd fun r => { r with wActive := false }) :=
  waitReturn_waitb .encerr hop

/-! ### One response to a waiting block -/

/-- The block waits at a status read of a wait, with the registers that `seq` implies (R28, R29, R36). -/
structure State.AwaitsRead (s : State) : Prop where
  wf : s.cfg.wellFormed = true
  seq : s.regs.seq = .waitRd
  reqOut : s.regs.reqOut = true
  dly : s.regs.dly = 0

theorem State.Sound.awaitsRead (hs : s.Sound) (hseq : s.regs.seq = .waitRd) : s.AwaitsRead := by
  obtain ⟨hwf, hq, -, ⟨-, hdly⟩, -⟩ := hs
  rw [hseq] at hdly
  exact ⟨hwf, hseq, hq.reqOut_iff.mpr (by rw [hseq]; rfl), hdly rfl⟩

/-- The response to a status read of a wait goes to the wait (R39). -/
theorem onResponse_waitRd (hreq : s.regs.reqOut = true) (hseq : s.regs.seq = .waitRd) (ok : Bool) (p : List Byte) :
    onResponse ok p s = waitResume ok p ((s.record (.rsp ok p)).upd fun r => { r with reqOut := false }) := by
  rw [onResponse_asked hreq]
  simp [resume, hseq]

theorem step_waitRd {ok : Bool} {p : List Byte} {es : List Event} (hs : s.AwaitsRead)
    (hev : s.events = .rsp ok p :: es) :
    step s = waitResume ok p
      ((State.record (.rsp ok p) { s with events := es }).upd fun r => { r with reqOut := false }) :=
  (step_response hs.wf hev).trans (onResponse_waitRd (s := { s with events := es }) hs.reqOut hs.seq ok p)

/-- R89, R90: the step of a read that does not match. -/
theorem step_waitRd_missed {ok : Bool} {p : List Byte} {es : List Event} (hs : s.AwaitsRead)
    (hmiss : misses s.regs.wBit s.regs.wTarget ok p = true) (hev : s.events = .rsp ok p :: es) :
    step s = .next { s with
      regs := { noteStatus (readClass ok p) { s.regs with reqOut := false } with
        dly := s.cfg.pollTicks, seq := .waitSlp }
      events := es
      history := s.history ++ [⟨s.ticks, .rsp ok p⟩] } :=
  (step_waitRd hs hev).trans (waitResume_missed hs.wf hmiss)

/-- Settles O57: the two kinds of response that do not match. -/
theorem readFailureKeepsWaiting : Obligations.ReadFailureKeepsWaiting := by
  intro s es hs hseq
  have hread := hs.awaitsRead hseq
  refine ⟨fun ok p hfail hev => ?_, fun x y q hbit hev => step_waitRd_missed hread (misses_word hbit) hev⟩
  rw [step_waitRd_missed hread (misses_of_failed hfail _ _) hev, readClass_failed hfail, noteStatus]

/-- Settles O58. -/
theorem oneBytePayloadEndsWaitb : Obligations.OneBytePayloadEndsWaitb := by
  intro s x es hs hseq hop hev
  have hread := hs.awaitsRead hseq
  rw [step_waitRd hread hev, waitResume_encerr_waitb (by simpa using hop), finish_eq]
  simp [State.upd, State.record, finishRegs, doneObs, reportsStatus, hop, hread.dly, sat8]

/-- R88: the step of a read that matches, in WAITB. -/
theorem step_waitRd_matched {x y : Byte} {q : List Byte} {es : List Event} (hs : s.AwaitsRead)
    (hop : s.regs.op = 0x7) (hbit : (y ++ x).getLsbD s.regs.wBit.toNat = s.regs.wTarget)
    (hev : s.events = .rsp true (x :: y :: q) :: es) :
    step s = .next { s with
      regs := { s.regs with
        reqOut := false, wActive := false, seq := .idle, lastSw := y ++ x, lastSwValid := true, resCode := .ok,
        resOp := 0x7, resDetail := BitVec.ofNat 8 (min s.regs.polls.toNat 255), resSw := y ++ x, resSwValid := true }
      events := es
      history := s.history ++ [⟨s.ticks, .rsp true (x :: y :: q)⟩,
        ⟨s.ticks, .done .ok 0x7 (BitVec.ofNat 8 (min s.regs.polls.toNat 255)) (y ++ x) true⟩] } := by
  rw [step_waitRd hs hev, waitResume_matched_waitb (by simpa using hop) (by simpa using hbit), finish_eq]
  simp [State.upd, State.record, finishRegs, doneObs, reportsStatus, hop, hs.dly, sat8]

end Sys2Proof.Machine
end

section
/-! The runs of RDSTAT and WAITB, from the word to the outcome (R84 to R94). -/

namespace Sys2Proof.Machine

variable {s t u : State}

/-! ### Requests in the record -/

@[simp] theorem requestsOf_cons_cmd (n : Nat) (w : CmdWord) (h : List Entry) :
    requestsOf (⟨n, .cmd w⟩ :: h) = requestsOf h := rfl

@[simp] theorem requestsOf_cons_req (n : Nat) (q : Request) (h : List Entry) :
    requestsOf (⟨n, .req q⟩ :: h) = q :: requestsOf h := rfl

@[simp] theorem requestsOf_cons_rsp (n : Nat) (ok : Bool) (p : List Byte) (h : List Entry) :
    requestsOf (⟨n, .rsp ok p⟩ :: h) = requestsOf h := rfl

@[simp] theorem requestsOf_cons_done (n : Nat) (code : ResCode) (op : BitVec 4) (detail : BitVec 8) (sw : Word16)
    (valid : Bool) (h : List Entry) : requestsOf (⟨n, .done code op detail sw valid⟩ :: h) = requestsOf h := rfl

@[simp] theorem requestsOf_cons_doneObs (n : Nat) (r : Regs) (h : List Entry) :
    requestsOf (⟨n, doneObs r⟩ :: h) = requestsOf h := rfl

/-! ### Steps and ticks of a run -/

theorem run_one (m : Host.Core) (s : m.State) : m.run 1 s = m.step s := by
  simp only [Host.Core.run]
  cases m.step s <;> rfl

theorem runFor_one (s : State) : runFor 1 s = step s := run_one Sys2Proof.core s

/-- The word of a command reaches an idle block as that command. -/
theorem step_encode {i : Instr} {es : List Event} (hwf : s.cfg.wellFormed = true) (hidle : s.regs.seq = .idle)
    (hev : s.events = .cmd (encode i) :: es) : step s = exec i { s with events := es } :=
  (step_command hwf hidle hev).trans (onCommand_of_decode (decode_encode i) _)

theorem tickEntries_succ (n m : Nat) : tickEntries n (m + 1) = tickEntries n m ++ [⟨n + m + 1, .tick⟩] := by
  induction m generalizing n with
  | zero => rfl
  | succ m ih =>
    rw [tickEntries, ih (n + 1), tickEntries, List.cons_append, Nat.add_right_comm n 1 m, Nat.add_assoc n m 1]

/-- A command of an idle block, and a response that comes `n` ticks after it: the response finds the state `u` in which
the command stopped, `n` ticks older. -/
theorem runFor_command_response {i : Instr} {n : Nat} {ok : Bool} {p : List Byte} {rest : List Event}
    (hwf : s.cfg.wellFormed = true) (hidle : s.regs.seq = .idle)
    (hev : s.events = .cmd (encode i) :: (quiet n ++ .rsp ok p :: rest))
    (hstart : exec i { s with events := quiet n ++ .rsp ok p :: rest } = .next u)
    (hawake : u.regs.seq.sleeps = false) (hevents : u.events = quiet n ++ .rsp ok p :: rest) :
    ∃ v, runFor (n + 2) s = step v ∧ v.cfg = s.cfg ∧ v.regs = elapseBy n u.regs ∧ v.ticks = u.ticks + n ∧
      v.history = u.history ++ tickEntries u.ticks n ∧ v.events = .rsp ok p :: rest := by
  have hcmd := (step_encode hwf hidle hev).trans hstart
  have hcfg := step_cfg hcmd
  have hquiet := runFor_quiet n (hcfg ▸ hwf) hawake hevents
  have hrun : runFor (n + 2) s = step _ := (runFor_succ (n + 1) hcmd).trans ((runFor_add hquiet).trans (runFor_one _))
  exact ⟨_, hrun, hcfg, rfl, rfl, rfl, rfl⟩

/-- A whole inter-poll delay (R89): the wait is at the head of its loop again (R86), `n + 1` ticks older. -/
theorem runFor_waitSlp {n : Nat} {es : List Event} (hwf : s.cfg.wellFormed = true) (hseq : s.regs.seq = .waitSlp)
    (hactive : s.regs.wActive = true) (hd : s.regs.dly.toNat = n + 1) (hev : s.events = quiet (n + 1) ++ es) :
    ∃ v, runFor (n + 1) s = waitTest v ∧ v.cfg = s.cfg ∧
      v.regs = { s.regs with el := sat32 (s.regs.el.toNat + (n + 1)), dly := 0 } ∧ v.ticks = s.ticks + (n + 1) ∧
      v.history = s.history ++ tickEntries s.ticks (n + 1) ∧ v.events = es := by
  have hev' : s.events = quiet n ++ .tick :: es := by
    rw [hev, quiet, List.replicate_succ', List.append_assoc]
    rfl
  have hsleep := runFor_asleep n hwf ((sleeps_iff _).mpr (.inl hseq)) hd hev'
  obtain ⟨a, ha, hacfg, haregs, haticks, hahist, haev⟩ : ∃ a, runFor n s = .next a ∧ a.cfg = s.cfg ∧
      a.regs = { s.regs with el := sat32 (s.regs.el.toNat + n), dly := 1 } ∧ a.ticks = s.ticks + n ∧
      a.history = s.history ++ tickEntries s.ticks n ∧ a.events = .tick :: es :=
    ⟨_, hsleep, rfl, by simp [elapseBy, hactive], rfl, rfl, rfl⟩
  have hlast := onTick_waitSlp_last (s := { a with events := es }) (by simpa [haregs] using hseq) (by rw [haregs])
  refine ⟨(countTick { a with events := es }).upd fun r => { r with dly := 0 }, ?_, hacfg, ?_, ?_, ?_, rfl⟩
  · rw [runFor_add ha, runFor_one, step_tick (hacfg ▸ hwf) haev, hlast]
  · simp [haregs, elapse, hactive, sat32_add, Nat.add_assoc]
  · simp [haticks, Nat.add_assoc]
  · simp [hahist, haticks, tickEntries_succ]

/-! ### RDSTAT (R85) -/

/-- R85: the outcome of RDSTAT for the class of its read. -/
def ReadClass.code : ReadClass → ResCode
  | .sw _ => .ok
  | .readfail => .transport
  | .encerr => .encoding

theorem rdstatResume_eq (ok : Bool) (p : List Byte) (s : State) :
    rdstatResume ok p s = finish (readClass ok p).code 0 (s.upd (noteStatus (readClass ok p))) := by
  unfold rdstatResume
  cases readClass ok p <;> rfl

/-- R85: the step of the response to RDSTAT's read. -/
theorem step_rd {ok : Bool} {p : List Byte} {es : List Event} (hwf : s.cfg.wellFormed = true)
    (hseq : s.regs.seq = .rd) (hreq : s.regs.reqOut = true) (hev : s.events = .rsp ok p :: es) :
    step s = finish (readClass ok p).code 0 (((State.record (.rsp ok p) { s with events := es }).upd fun r =>
      { r with reqOut := false }).upd (noteStatus (readClass ok p))) := by
  have hrsp := onResponse_asked (s := { s with events := es }) hreq ok p
  rw [step_response hwf hev, hrsp, ← rdstatResume_eq]
  simp [resume, hseq]

/-- Settles O53: the class of the response decides the outcome and the word (`readClass`). -/
theorem rdstatRun : Obligations.RdstatRun := by
  intro s n ok p rest hs hidle hev
  obtain ⟨hwf, hreq, hactive, hdly⟩ := hs.running_of_idle hidle
  obtain ⟨v, hrun, hcfg, hregs, hticks, hhist, hevents⟩ :=
    runFor_command_response hwf hidle hev (rdstatStarts _ hidle) rfl rfl
  simp only [elapseBy, hactive, if_false, Bool.false_eq_true] at hregs
  rw [step_rd (hcfg ▸ hwf) (by rw [hregs]) (by rw [hregs]) hevents, finish_eq] at hrun
  refine ⟨_, hrun, hcfg, rfl, hticks, ?_, fun hfail => ?_, fun x hok hp => ?_, fun x y q hok hp => ?_⟩
  · simp [hhist, readStatus, devAddr]
  · simp [hregs, readClass_failed hfail, noteStatus, finishRegs, ReadClass.code, reportsStatus, hreq, hactive, hdly,
      hidle]
  · simp [hregs, hok, hp, readClass, decSw, noteStatus, finishRegs, ReadClass.code, reportsStatus, hreq, hactive, hdly,
      hidle]
  · simp [hregs, hok, hp, readClass, decSw, noteStatus, finishRegs, ReadClass.code, reportsStatus, hreq, hactive, hdly,
      hidle]

/-! ### WAITB whose first read matches (R88) -/

/-- Settles O54: the latency moves `el` alone, and the response is not held to the deadline. -/
theorem waitbFirstReadMatches : Obligations.WaitbFirstReadMatches := by
  intro s b v d n x y q rest hs hidle hd hbit hev
  obtain ⟨hwf, hreq, hactive, hdly⟩ := hs.running_of_idle hidle
  obtain ⟨w, hrun, hcfg, hregs, hticks, hhist, hevents⟩ :=
    runFor_command_response hwf hidle hev (waitbStarts _ b v d hidle hd) rfl rfl
  simp only [elapseBy, if_true] at hregs
  have hread : w.AwaitsRead := ⟨hcfg ▸ hwf, by rw [hregs], by rw [hregs], by rw [hregs]; exact hdly⟩
  rw [step_waitRd_matched hread (by rw [hregs]) (by rw [hregs]; exact hbit) hevents] at hrun
  refine ⟨_, hrun, hcfg, rfl, hticks, ?_, ?_⟩
  · simp [hregs, sat32, hreq, hactive, hidle]
  · simp [hhist, readStatus, devAddr]

/-! ### A read that misses, and the delay after it (R89) -/

/-- `u` is at the head of a wait's loop again (R86), after the reads `ms` that were answered at once, from the head `s`
on. -/
structure Missed (ms : List (Bool × List Byte)) (s u : State) : Prop where
  cfg : u.cfg = s.cfg
  ticks : u.ticks = s.ticks + ms.length * s.cfg.pollTicks.toNat
  regs : u.regs = { notedReads ms s.regs with
    el := sat32 (s.regs.el.toNat + ms.length * s.cfg.pollTicks.toNat)
    polls := sat32 (s.regs.polls.toNat + ms.length)
    seq := u.regs.seq }
  requests : ∃ h, u.history = s.history ++ h ∧ requestsOf h = List.replicate ms.length (readStatus s.cfg)

/-- A status read moves nothing but the status word and its validity (R84). -/
theorem noteStatus_eq (c : ReadClass) (r : Regs) :
    noteStatus c r = { r with lastSw := (noteStatus c r).lastSw, lastSwValid := (noteStatus c r).lastSwValid } := by
  cases c <;> rfl

theorem notedReads_eq (ms : List (Bool × List Byte)) (r : Regs) :
    notedReads ms r =
      { r with lastSw := (notedReads ms r).lastSw, lastSwValid := (notedReads ms r).lastSwValid } := by
  induction ms generalizing r with
  | nil => rfl
  | cons m ms ih =>
    rw [notedReads_cons, ih, noteStatus_eq]

/-- The status word and its validity after some reads are those before them and what the reads show (R84). -/
theorem notedReads_marks_congr (ms : List (Bool × List Byte)) {r r' : Regs} (h : r.marks = r'.marks) :
    (notedReads ms r).marks = (notedReads ms r').marks := by
  induction ms generalizing r r' with
  | nil => exact h
  | cons m ms ih => exact ih (noteStatus_marks_congr _ h)

/-- A status read neither moves a wait's counters and its place nor looks at them (R84). -/
theorem notedReads_counters (ms : List (Bool × List Byte)) (r : Regs) (el : Ticks) (polls : BitVec 32) (seq : Seq) :
    notedReads ms { r with el := el, polls := polls, seq := seq } =
      { notedReads ms r with el := el, polls := polls, seq := seq } := by
  induction ms generalizing r with
  | nil => rfl
  | cons m ms ih =>
    rw [notedReads_cons, notedReads_cons, ← ih]
    cases readClass m.1 m.2 <;> rfl

theorem notedReads_append (as bs : List (Bool × List Byte)) (r : Regs) :
    notedReads (as ++ bs) r = notedReads bs (notedReads as r) := List.foldl_append

theorem Missed.refl (s : State) : Missed [] s s := ⟨rfl, by simp, by simp, [], by simp, rfl⟩

theorem Missed.trans {as bs : List (Bool × List Byte)} (h : Missed as s t) (h' : Missed bs t u) :
    Missed (as ++ bs) s u := by
  obtain ⟨hcfg, hticks, hregs, d, hhist, hreqs⟩ := h
  obtain ⟨hcfg', hticks', hregs', d', hhist', hreqs'⟩ := h'
  rw [hregs, notedReads_counters, hcfg] at hregs'
  rw [hcfg] at hticks' hreqs'
  refine ⟨hcfg'.trans hcfg, ?_, ?_, d ++ d', ?_, ?_⟩
  · rw [hticks', hticks, List.length_append, Nat.add_mul, Nat.add_assoc]
  · simpa only [sat32_add, notedReads_append, List.length_append, Nat.add_mul, Nat.add_assoc] using hregs'
  · rw [hhist', hhist, List.append_assoc]
  · rw [requestsOf_append, hreqs, hreqs', List.length_append, List.replicate_add]

/-- The registers at the head of the loop again, but for the status word. -/
theorem Missed.regs_eq {ms : List (Bool × List Byte)} (h : Missed ms s u) :
    u.regs = { s.regs with
      el := sat32 (s.regs.el.toNat + ms.length * s.cfg.pollTicks.toNat)
      polls := sat32 (s.regs.polls.toNat + ms.length)
      lastSw := (notedReads ms s.regs).lastSw
      lastSwValid := (notedReads ms s.regs).lastSwValid
      seq := u.regs.seq } := by
  have hregs := h.regs
  rwa [notedReads_eq] at hregs

theorem Missed.polling {ms : List (Bool × List Byte)} (h : Missed ms s u) (hs : s.Polling) : u.Polling := by
  have hregs := h.regs_eq
  exact ⟨h.cfg ▸ hs.wf, by rw [hregs]; exact hs.reqOut, by rw [hregs]; exact hs.wActive, by rw [hregs]; exact hs.dly,
    by rw [hregs]; exact hs.inWait⟩

/-- R86: the head of a wait's loop always goes on. -/
theorem State.Polling.waitTest_next (hs : s.Polling) : ∃ t, waitTest s = .next t := by
  unfold waitTest
  split
  · obtain ⟨t, ht, -⟩ := waitReturn_sound .expired hs
    exact ⟨t, ht⟩
  · exact ⟨_, rfl⟩

/-- R89: one read before the deadline and the response that misses: the delay starts. -/
theorem step_missedRead {ok : Bool} {p : List Byte} {es : List Event} (hs : s.Polling)
    (hlt : s.regs.el.toNat < s.regs.timeout.toNat) (hmiss : misses s.regs.wBit s.regs.wTarget ok p = true)
    (hev : s.events = .rsp ok p :: es) (ht : waitTest s = .next t) :
    ∃ a, step t = .next a ∧ a.cfg = s.cfg ∧
      a.regs = { s.regs with
        polls := sat32 (s.regs.polls.toNat + 1), dly := s.cfg.pollTicks, seq := .waitSlp
        lastSw := (noteStatus (readClass ok p) s.regs).lastSw
        lastSwValid := (noteStatus (readClass ok p) s.regs).lastSwValid } ∧
      a.ticks = s.ticks ∧ a.history = s.history ++ [⟨s.ticks, .req (readStatus s.cfg)⟩, ⟨s.ticks, .rsp ok p⟩] ∧
      a.events = es := by
  have hreq := hs.reqOut
  rw [waitTest_of_lt hlt] at ht
  have hread : t.AwaitsRead := by
    cases ht
    exact ⟨hs.wf, rfl, rfl, hs.dly⟩
  cases ht
  refine ⟨_, step_waitRd_missed hread hmiss hev, rfl, ?_, rfl, by simp, rfl⟩
  cases readClass ok p <;> simp [noteStatus, hreq]

/-- R89: the same with the delay that follows, all of it. -/
theorem runFor_missedRead {ok : Bool} {p : List Byte} {es : List Event} (hs : s.Polling)
    (hlt : s.regs.el.toNat < s.regs.timeout.toNat) (hmiss : misses s.regs.wBit s.regs.wTarget ok p = true)
    (hev : s.events = .rsp ok p :: (quiet s.cfg.pollTicks.toNat ++ es)) (ht : waitTest s = .next t) :
    ∃ u, runFor (s.cfg.pollTicks.toNat + 1) t = waitTest u ∧ Missed [(ok, p)] s u ∧ u.events = es := by
  obtain ⟨n, hn⟩ := Nat.exists_eq_add_of_le' ((wellFormed_iff _).mp hs.wf)
  obtain ⟨a, hstep, hcfg, hregs, hticks, hhist, haev⟩ := step_missedRead hs hlt hmiss hev ht
  obtain ⟨u, hrun, hucfg, huregs, huticks, huhist, huev⟩ := runFor_waitSlp (n := n) (es := es) (hcfg ▸ hs.wf)
    (by rw [hregs]) (by rw [hregs]; exact hs.wActive) (by rw [hregs, ← hn]) (by rw [haev, hn])
  rw [hhist, List.append_assoc] at huhist
  refine ⟨u, ?_, ⟨hucfg.trans hcfg, ?_, ?_, _, huhist, ?_⟩, huev⟩
  · rw [hn, runFor_succ _ hstep, hrun]
  · rw [huticks, hticks, hn, List.length_singleton, one_mul]
  · have hdly := hs.dly
    rw [huregs, hregs, notedReads_cons, notedReads_nil, noteStatus_eq (readClass ok p) s.regs]
    simp [hn, hdly]
  · simp

/-- R89: reads that are answered at once and miss, each of them started before the deadline. -/
theorem runFor_missedReads (ms : List (Bool × List Byte)) {es : List Event} (hs : s.Polling)
    (hmiss : ∀ m ∈ ms, misses s.regs.wBit s.regs.wTarget m.1 m.2 = true)
    (htime : s.regs.el.toNat + ms.length * s.cfg.pollTicks.toNat < s.regs.timeout.toNat + s.cfg.pollTicks.toNat)
    (hev : s.events = missedReads s.cfg.pollTicks.toNat ms ++ es) (ht : waitTest s = .next t) :
    ∃ u, runFor (missedReads s.cfg.pollTicks.toNat ms).length t = waitTest u ∧ Missed ms s u ∧ u.events = es := by
  induction ms generalizing s t with
  | nil => exact ⟨s, ht.symm, .refl s, hev⟩
  | cons m ms ih =>
    obtain ⟨ok, p⟩ := m
    rw [List.length_cons, Nat.succ_mul] at htime
    have hlt : s.regs.el.toNat < s.regs.timeout.toNat := by omega
    rw [missedReads, List.cons_append, List.append_assoc] at hev
    obtain ⟨v, hrun, hv, hvev⟩ := runFor_missedRead hs hlt (hmiss _ List.mem_cons_self) hev ht
    have hregs := hv.regs_eq
    have hel : v.regs.el.toNat ≤ s.regs.el.toNat + s.cfg.pollTicks.toNat := by
      rw [hregs, sat32_toNat, List.length_singleton, one_mul]
      exact Nat.min_le_left _ _
    have htimeout : v.regs.timeout = s.regs.timeout := by rw [hregs]
    obtain ⟨t', ht'⟩ := (hv.polling hs).waitTest_next
    obtain ⟨u, hrun', hu, huev⟩ := ih (hv.polling hs) (by rw [hregs]; exact fun m hm => hmiss m (.tail _ hm))
      (by rw [hv.cfg, htimeout]; omega) (by rw [hv.cfg, hvev]) ht'
    refine ⟨u, ?_, hv.trans hu, huev⟩
    rw [ht'] at hrun
    rw [hv.cfg] at hrun'
    rw [← hrun', missedReads, ← runFor_add hrun]
    congr 1
    simp [quiet]
    omega

/-! ### WAITB after reads that missed (R86, R93) -/

theorem waitbHead_polling (hs : s.Sound) (hidle : s.regs.seq = .idle) (b : BitVec 4) (v : Bool) (d : Ticks) :
    (waitbHead b v d s).Polling := by
  obtain ⟨hwf, hreq, -, hdly⟩ := hs.running_of_idle hidle
  exact ⟨hwf, hreq, rfl, hdly, .inl rfl⟩

theorem step_waitb {b : BitVec 4} {v : Bool} {d : Ticks} {es : List Event} (hwf : s.cfg.wellFormed = true)
    (hidle : s.regs.seq = .idle) (hev : s.events = .cmd (encode (.waitb b v d)) :: es) :
    step s = waitTest (waitbHead b v d { s with events := es }) :=
  (step_encode hwf hidle hev).trans (exec_waitb (s := { s with events := es }) hidle b v d)

/-- WAITB from its word to the head of its loop after the reads `ms`, each started before the deadline. -/
theorem runFor_waitb_missed {b : BitVec 4} {v : Bool} {d : Ticks} {ms : List (Bool × List Byte)} {es : List Event}
    (hs : s.Sound) (hidle : s.regs.seq = .idle) (hmiss : ∀ m ∈ ms, misses b v m.1 m.2 = true)
    (htime : ms.length * s.cfg.pollTicks.toNat < d.toNat + s.cfg.pollTicks.toNat)
    (hev : s.events = .cmd (encode (.waitb b v d)) :: (missedReads s.cfg.pollTicks.toNat ms ++ es)) :
    ∃ u, runFor ((missedReads s.cfg.pollTicks.toNat ms).length + 1) s = waitTest u ∧ u.cfg = s.cfg ∧ u.events = es ∧
      u.ticks = s.ticks + ms.length * s.cfg.pollTicks.toNat ∧
      (∃ seq, u.regs = { s.regs with
        op := 0x7, wBit := b, wTarget := v, timeout := d, wActive := true
        el := sat32 (ms.length * s.cfg.pollTicks.toNat), polls := sat32 ms.length
        lastSw := (notedReads ms { s.regs with lastSwValid := false }).lastSw
        lastSwValid := (notedReads ms { s.regs with lastSwValid := false }).lastSwValid
        seq := seq }) ∧
      ∃ h, u.history = s.history ++ h ∧ requestsOf h = List.replicate ms.length (readStatus s.cfg) := by
  obtain ⟨hwf, -⟩ := id hs
  have hhead := waitbHead_polling (hs.withEvents (missedReads s.cfg.pollTicks.toNat ms ++ es)) hidle b v d
  obtain ⟨t, ht⟩ := hhead.waitTest_next
  have hstep := (step_waitb hwf hidle hev).trans ht
  obtain ⟨u, hrun, hu, huev⟩ := runFor_missedReads ms hhead hmiss (by simpa [waitbHead] using htime) rfl ht
  obtain ⟨h, hhist, hreqs⟩ := hu.requests
  rw [waitbHead, List.append_assoc] at hhist
  refine ⟨u, (runFor_succ _ hstep).trans hrun, hu.cfg, huev, hu.ticks, ?_, _, hhist, hreqs⟩
  obtain ⟨hsw, hvalid, -⟩ := marks_eq_iff.mp (notedReads_marks_congr ms
    (r := (waitbHead b v d s).regs) (r' := { s.regs with lastSwValid := false }) rfl)
  have hregs := hu.regs_eq
  simp only [waitbHead] at hregs hsw hvalid
  rw [hsw, hvalid] at hregs
  exact ⟨_, by simpa using hregs⟩

theorem sat32_of_lt {n : Nat} (h : n < 2 ^ 32) : sat32 n = BitVec.ofNat 32 n := by
  rw [sat32, Nat.min_eq_left (by omega)]

/-- `n` delays of `p` ticks are the least that reach the time `d`, if `n` is `d / p` rounded up. -/
theorem ceil_mul_bounds {d p n : Nat} (hp : 1 ≤ p) (hn : n = (d + p - 1) / p) : n * p < d + p ∧ d ≤ n * p ∧ n ≤ d := by
  have hmod := Nat.mod_lt (d + p - 1) hp
  have hdiv := Nat.div_add_mod (d + p - 1) p
  rw [← hn, Nat.mul_comm] at hdiv
  have hlt : n * p < d + p := by omega
  refine ⟨hlt, by omega, ?_⟩
  cases n with
  | zero => exact Nat.zero_le d
  | succ k =>
    have hk := Nat.le_mul_of_pos_right k hp
    rw [Nat.succ_mul] at hlt
    omega

/-- Settles O55: after the last read that the deadline allows, the deadline test ends the wait. -/
theorem waitbTimesOutRun : Obligations.WaitbTimesOutRun := by
  intro s b v d ms rest hs hidle hmiss hcount hev
  obtain ⟨hwf, hreq, hactive, hdly⟩ := hs.running_of_idle hidle
  obtain ⟨hlt, hle, hreads⟩ := ceil_mul_bounds ((wellFormed_iff _).mp hwf) hcount
  obtain ⟨u, hrun, hcfg, huev, hticks, ⟨q, hregs⟩, h, hhist, hreqs⟩ := runFor_waitb_missed hs hidle hmiss hlt hev
  have hd := d.isLt
  have hdeadline : u.regs.timeout.toNat ≤ u.regs.el.toNat := by
    rw [hregs, sat32_toNat]
    dsimp only
    omega
  have hel : sat32 (ms.length * s.cfg.pollTicks.toNat) =
      BitVec.ofNat 32 (min (ms.length * s.cfg.pollTicks.toNat) 4294967295) := rfl
  have hpolls := sat32_of_lt (n := ms.length) (by omega)
  have hmod : ms.length % 4294967296 = ms.length := Nat.mod_eq_of_lt (by omega)
  rw [waitTest_expired_waitb hdeadline (by rw [hregs]), finish_eq] at hrun
  refine ⟨_, hrun, hcfg, huev, hticks, ?_, ?_⟩
  · dsimp only
    generalize notedReads ms { s.regs with lastSwValid := false } = noted at hregs ⊢
    simp [hregs, finishRegs, reportsStatus, sat8, hel, hpolls, hmod, hreq, hactive, hdly, hidle]
  · simp [hhist, hreqs]

/-- The head of a wait's loop before the deadline: the next read (R87). -/
theorem waitTest_sends (h : s.regs.el.toNat < s.regs.timeout.toNat) :
    ∃ t, waitTest s = .next t ∧ t.cfg = s.cfg ∧ t.events = s.events ∧ t.ticks = s.ticks ∧
      t.regs = { s.regs with polls := sat32 (s.regs.polls.toNat + 1), reqOut := true, seq := .waitRd } ∧
      t.history = s.history ++ [⟨s.ticks, .req (readStatus s.cfg)⟩] :=
  ⟨_, waitTest_of_lt h, rfl, rfl, rfl, rfl, rfl⟩

/-- Settles O56: before the deadline the head of the loop sends one more read, and its match ends the wait. -/
theorem waitbMatchesLaterRun : Obligations.WaitbMatchesLaterRun := by
  refine ⟨?_, fun s x y q es hs hseq hop hbit hev => step_waitRd_matched (hs.awaitsRead hseq) hop hbit hev⟩
  intro s b v d ms x y p rest hs hidle hmiss htime hbit hev
  obtain ⟨hwf, hreq, hactive, hdly⟩ := hs.running_of_idle hidle
  obtain ⟨u, hrun, hcfg, huev, hticks, ⟨q, hregs⟩, h, hhist, hreqs⟩ :=
    runFor_waitb_missed hs hidle hmiss (by omega) hev
  have hlt : u.regs.el.toNat < u.regs.timeout.toNat := by
    rw [hregs, sat32_toNat]
    dsimp only
    omega
  have hcount : ms.length ≤ ms.length * s.cfg.pollTicks.toNat :=
    Nat.le_mul_of_pos_right _ ((wellFormed_iff _).mp hwf)
  have hd := d.isLt
  have hel := sat32_of_lt (n := ms.length * s.cfg.pollTicks.toNat) (by omega)
  have hpolls : sat32 ((sat32 ms.length).toNat + 1) = BitVec.ofNat 32 (ms.length + 1) :=
    (sat32_add _ _).trans (sat32_of_lt (by omega))
  have hmod : (ms.length + 1) % 4294967296 = ms.length + 1 := Nat.mod_eq_of_lt (by omega)
  obtain ⟨t, hsend, htcfg, htev, htticks, htregs, hthist⟩ := waitTest_sends hlt
  rw [hregs] at htregs
  rw [hcfg] at htcfg
  have hread : t.AwaitsRead := ⟨htcfg ▸ hwf, by rw [htregs], by rw [htregs], by rw [htregs]; exact hdly⟩
  have hend := step_waitRd_matched hread (by rw [htregs]) (by rw [htregs]; exact hbit) (htev.trans huev)
  rw [hsend] at hrun
  refine ⟨_, (runFor_add hrun).trans ((runFor_one t).trans hend), htcfg, rfl, htticks.trans hticks, ?_, ?_⟩
  · simp [htregs, hpolls, hel, hmod, hreq, hactive, hidle, hdly]
  · simp [hthist, hhist, hcfg, hreqs, List.replicate_succ']

end Sys2Proof.Machine
end

section
/-! The deadline of a wait (R87, R93): only its test sends a status read, while there is time, and only it answers
`TIMEOUT`, when there is none; every other procedure does neither. -/

namespace Sys2Proof.Machine

variable {s t : State}

/-! ### Procedures that do not test the deadline -/

/-- If the procedure answers a next state, it did not stop at a status read of a wait, and did not end a command with
`TIMEOUT`. -/
def Untimed (res : Result) : Prop :=
  ∀ t, res = .next t → t.regs.seq ≠ .waitRd ∧ (t.regs.seq = .idle → t.regs.resCode ≠ .timeout)

theorem untimed_fault (why : Fault) : Untimed (.fault why) := by
  intro t ht
  cases ht

theorem finish_untimed {code : ResCode} (hcode : code ≠ .timeout) (detail : BitVec 8) (s : State) :
    Untimed (finish code detail s) := by
  intro t ht
  cases ht
  exact ⟨by simp, fun _ => hcode⟩

theorem memWrite_untimed {label : Seq} (hread : label ≠ .waitRd) (hidle : label ≠ .idle) (reg : DevReg)
    (v : List Byte) (s : State) : Untimed (memWrite label reg v s) := by
  intro t ht
  cases ht
  exact ⟨hread, fun h => absurd h hidle⟩

theorem sleepThen_untimed {label : Seq} {k : State → Result} (hread : label ≠ .waitRd) (hidle : label ≠ .idle)
    (d : Ticks) (hk : Untimed (k s)) : Untimed (sleepThen label d k s) := by
  unfold sleepThen
  split
  · exact hk
  · intro t ht
    cases ht
    exact ⟨hread, fun h => absurd h hidle⟩

/-! ### ENABLE and the end of a wait by its read -/

theorem enableIssue_untimed (s : State) : Untimed (enableIssue s) := by
  unfold enableIssue
  split
  · exact untimed_fault _
  · exact memWrite_untimed (by decide) (by decide) _ _ s

theorem enableAfterWait_untimed {e : WaitEnd} (he : e ≠ .expired) (s : State) : Untimed (enableAfterWait e s) := by
  unfold enableAfterWait
  split
  · exact untimed_fault _
  · cases e with
    | encerr => exact finish_untimed (by decide) _ s
    | expired => exact absurd rfl he
    | matched =>
      dsimp only
      split
      · exact finish_untimed (by decide) _ _
      · exact enableIssue_untimed _

theorem waitReturn_untimed {e : WaitEnd} (he : e ≠ .expired) (s : State) : Untimed (waitReturn e s) := by
  by_cases hop : s.regs.op = 0x7
  · rw [waitReturn_waitb e hop]
    exact finish_untimed (by cases e <;> simp_all [WaitEnd.code]) _ _
  · unfold waitReturn
    dsimp only
    rw [if_neg hop]
    split
    · exact enableAfterWait_untimed he _
    · exact untimed_fault _

/-- R88 to R91: the response to a read ends the wait or starts its delay, and leaves the deadline to the tick that ends
that delay. -/
theorem waitResume_untimed (hwf : s.cfg.wellFormed = true) (ok : Bool) (p : List Byte) :
    Untimed (waitResume ok p s) := by
  have hsleep : Untimed (sleepThen .waitSlp s.cfg.pollTicks waitTest (s.upd (noteStatus (readClass ok p)))) := by
    rw [sleepThen_of_ne (pollTicks_ne_zero hwf)]
    intro t ht
    cases ht
    exact ⟨by simp, by simp⟩
  unfold waitResume
  cases hc : readClass ok p with
  | encerr => exact waitReturn_untimed (by decide) _
  | readfail =>
    rw [hc] at hsleep
    exact hsleep
  | sw v =>
    rw [hc] at hsleep
    dsimp only
    split
    · exact waitReturn_untimed (by decide) _
    · exact hsleep

/-! ### The other commands -/

theorem ReadClass.code_ne_timeout (c : ReadClass) : c.code ≠ .timeout := by
  cases c <;> simp [ReadClass.code]

theorem rdstatResume_untimed (ok : Bool) (p : List Byte) (s : State) : Untimed (rdstatResume ok p s) := by
  rw [rdstatResume_eq]
  exact finish_untimed (ReadClass.code_ne_timeout _) _ _

theorem rdstatStart_untimed (s : State) : Untimed (rdstatStart s) := by
  intro t ht
  cases ht
  exact ⟨by simp, by simp⟩

/-- A write that succeeds or fails is no `TIMEOUT` (R96, R102, R110). -/
theorem writeCode_ne_timeout (c : Prop) [Decidable c] : (if c then ResCode.ok else .transport) ≠ .timeout := by
  split <;> decide

theorem claimIssue_untimed (s : State) : Untimed (claimIssue s) := by
  unfold claimIssue
  split
  · exact untimed_fault _
  · exact memWrite_untimed (by decide) (by decide) _ _ s

theorem claimResume_untimed (ok : Bool) (s : State) : Untimed (claimResume ok s) := by
  unfold claimResume
  dsimp only
  split
  · exact untimed_fault _
  · split
    · exact finish_untimed (by decide) _ _
    · split
      · exact finish_untimed (writeCode_ne_timeout _) _ _
      · exact claimIssue_untimed _

theorem disableIssue_untimed (s : State) : Untimed (disableIssue s) := by
  unfold disableIssue
  split
  · exact untimed_fault _
  · exact memWrite_untimed (by decide) (by decide) _ _ s

theorem disableResume_untimed (ok : Bool) (s : State) : Untimed (disableResume ok s) := by
  unfold disableResume
  dsimp only
  split
  · exact untimed_fault _
  · split
    · exact finish_untimed (writeCode_ne_timeout _) _ _
    · exact disableIssue_untimed _

theorem trigAttempt_untimed (s : State) : Untimed (trigAttempt s) := memWrite_untimed (by decide) (by decide) _ _ _

theorem trigStart_untimed (s : State) : Untimed (trigStart s) := by
  unfold trigStart
  split
  · exact finish_untimed (by decide) _ s
  · split
    · exact finish_untimed (by decide) _ s
    · exact trigAttempt_untimed _

theorem trigResume_untimed (ok : Bool) (s : State) : Untimed (trigResume ok s) := by
  unfold trigResume
  split
  · exact finish_untimed (by decide) _ s
  · split
    · exact finish_untimed (by decide) _ s
    · exact sleepThen_untimed (by decide) (by decide) _ (trigAttempt_untimed s)

theorem stopResume_untimed (ok : Bool) (s : State) : Untimed (stopResume ok s) :=
  finish_untimed (writeCode_ne_timeout _) _ _

theorem accept_untimed {i : Instr} {proc : State → Result} (hidle : s.regs.seq = .idle)
    (hp : ∀ u, Untimed (proc u)) : Untimed (accept i proc s) := by
  rw [accept_of_idle hidle]
  split
  · exact hp _
  · exact finish_untimed (by decide) _ _

theorem acceptIllegal_untimed (hidle : s.regs.seq = .idle) (w : CmdWord) : Untimed (acceptIllegal w s) := by
  have hbusy : ¬ s.busy = true := by simp [busy_iff, hidle]
  unfold acceptIllegal
  rw [if_neg hbusy]
  exact finish_untimed (by decide) _ _

theorem onCommand_untimed_or_waitb (hidle : s.regs.seq = .idle) (w : CmdWord) :
    Untimed (onCommand w s) ∨ ∃ b v d, onCommand w s = exec (.waitb b v d) s := by
  unfold onCommand
  split
  · rename_i i _
    cases i with
    | claim ff m v => exact .inl (accept_untimed hidle fun _ => claimIssue_untimed _)
    | enable d => exact .inl (accept_untimed hidle fun _ => enableIssue_untimed _)
    | disable => exact .inl (accept_untimed hidle fun _ => disableIssue_untimed _)
    | trig v n => exact .inl (accept_untimed hidle trigStart_untimed)
    | stop => exact .inl (accept_untimed hidle fun u => memWrite_untimed (by decide) (by decide) _ _ u)
    | rdstat => exact .inl (accept_untimed hidle fun u => rdstatStart_untimed u)
    | waitb b v d => exact .inr ⟨b, v, d, rfl⟩
  · exact .inl (acceptIllegal_untimed hidle w)

theorem enableResume_untimed_or_waits (ok : Bool) (s : State) :
    Untimed (enableResume ok s) ∨ ∃ bit target,
      enableResume ok s = waitStart (s.upd fun r => { r with wBit := bit, wTarget := target }) := by
  unfold enableResume
  split
  · exact .inl (untimed_fault _)
  · rename_i st _
    cases ok with
    | true => exact .inr ⟨st.bit, true, rfl⟩
    | false => exact .inl (finish_untimed (by decide) _ s)

/-- Of the resumed commands, only ENABLE may test a deadline: that of the wait it starts (R97). -/
theorem resume_untimed_or_waits (hwf : s.cfg.wellFormed = true) (ok : Bool) (p : List Byte) :
    Untimed (resume ok p s) ∨ (s.regs.seq = .enCw ∧ ∃ bit target,
      resume ok p s = waitStart (s.upd fun r => { r with wBit := bit, wTarget := target })) := by
  unfold resume
  cases s.regs.seq with
  | claimWr => exact .inl (claimResume_untimed ok s)
  | enCw => exact (enableResume_untimed_or_waits ok s).imp_right fun h => ⟨rfl, h⟩
  | waitRd => exact .inl (waitResume_untimed hwf ok p)
  | disWr => exact .inl (disableResume_untimed ok s)
  | trigWr => exact .inl (trigResume_untimed ok s)
  | stopWr => exact .inl (stopResume_untimed ok s)
  | rd => exact .inl (rdstatResume_untimed ok p s)
  | idle => exact .inl (untimed_fault _)
  | waitSlp => exact .inl (untimed_fault _)
  | trigSlp => exact .inl (untimed_fault _)

/-! ### The steps that test a deadline -/

/-- R93: the wait has sent no more reads than its timeout allows. -/
def Regs.PollsAllowed (c : Cfg) (r : Regs) : Prop :=
  r.polls.toNat ≤ (r.timeout.toNat + c.pollTicks.toNat - 1) / c.pollTicks.toNat

theorem le_ceil_of_lt {d p n : Nat} (hp : 1 ≤ p) (h : (n - 1) * p < d) : n ≤ (d + p - 1) / p := by
  rw [Nat.le_div_iff_mul_le hp]
  cases n with
  | zero => omega
  | succ k =>
    rw [Nat.add_sub_cancel] at h
    rw [Nat.succ_mul]
    omega

theorem State.Sound.pollsAllowed (hs : s.Sound) (hin : s.regs.seq.inWait = true) : s.regs.PollsAllowed s.cfg := by
  obtain ⟨hwf, -, -, -, hpolls⟩ := hs
  obtain ⟨-, -, htime, -⟩ := hpolls hin
  exact le_ceil_of_lt ((wellFormed_iff _).mp hwf) htime

theorem requestsOf_event_cons {e : Entry} (he : e.obs.isEvent = true) (h : List Entry) :
    requestsOf (e :: h) = requestsOf h := by
  obtain ⟨n, o⟩ := e
  cases o with
  | req q => cases he
  | _ => rfl

theorem donesOf_event_cons {e : Entry} (he : e.obs.isEvent = true) (h : List Entry) :
    donesOf (e :: h) = donesOf h := by
  obtain ⟨n, o⟩ := e
  cases o with
  | done code op detail sw valid => cases he
  | _ => rfl

/-- What a step does about the deadline of a wait: it sends nothing and ends nothing, or it runs a procedure that does
not test a deadline, or it tests one, in a state `u` with the event's entry, and not on the response to a read. -/
inductive StepTiming (s t : State) : Prop where
  | quiet (hreq : requestsOf (t.history.drop s.history.length) = [])
      (hdone : donesOf (t.history.drop s.history.length) = 0)
  | untimed (hread : t.regs.seq ≠ .waitRd) (hend : t.regs.seq = .idle → t.regs.resCode ≠ .timeout)
  | tested (u : State) (e : Entry) (htest : waitTest u = .next t) (hseq : s.regs.seq ≠ .waitRd)
      (he : e.obs.isEvent = true) (hcfg : u.cfg = s.cfg) (hist : u.history = s.history ++ [e])
      (hpolls : u.regs.PollsAllowed s.cfg)

theorem StepTiming.of_untimed {res : Result} (h : Untimed res) (ht : res = .next t) : StepTiming s t := by
  obtain ⟨hread, hend⟩ := h t ht
  exact .untimed hread hend

theorem StepTiming.of_entry {e : Entry} (he : e.obs.isEvent = true) (hist : t.history = s.history ++ [e]) :
    StepTiming s t := by
  refine .quiet ?_ ?_ <;> rw [hist, List.drop_left]
  · exact requestsOf_event_cons he []
  · exact donesOf_event_cons he []

/-- The events still to come do not matter. -/
theorem StepTiming.of_events {es : List Event} (h : StepTiming { s with events := es } t) : StepTiming s t := by
  cases h with
  | quiet hreq hdone => exact .quiet hreq hdone
  | untimed hread hend => exact .untimed hread hend
  | tested u e htest hseq he hcfg hist hpolls => exact .tested u e htest hseq he hcfg hist hpolls

theorem onCommand_timing {w : CmdWord} (hidle : s.regs.seq = .idle) (h : onCommand w s = .next t) :
    StepTiming s t := by
  obtain huntimed | ⟨b, v, d, hw⟩ := onCommand_untimed_or_waitb hidle w
  · exact .of_untimed huntimed h
  · rw [hw, exec_waitb hidle] at h
    exact .tested _ _ h (by rw [hidle]; decide) rfl rfl rfl (Nat.zero_le _)

theorem onResponse_timing {ok : Bool} {p : List Byte} (hwf : s.cfg.wellFormed = true)
    (h : onResponse ok p s = .next t) : StepTiming s t := by
  cases hreq : s.regs.reqOut with
  | false =>
    rw [onResponse_unasked hreq] at h
    cases h
    exact .of_entry rfl rfl
  | true =>
    rw [onResponse_asked hreq] at h
    obtain huntimed | ⟨hseq, bit, target, hw⟩ := resume_untimed_or_waits
      (s := (s.record (.rsp ok p)).upd fun r => { r with reqOut := false }) hwf ok p
    · exact .of_untimed huntimed h
    · rw [hw, waitStart] at h
      have hseq : s.regs.seq = .enCw := hseq
      exact .tested _ _ h (by rw [hseq]; decide) rfl rfl rfl (Nat.zero_le _)

theorem onTick_timing (hs : s.Sound) (h : onTick s = .next t) : StepTiming s t := by
  obtain ⟨-, rfl⟩ | ⟨hseq, hwait⟩ | ⟨-, htrig⟩ := onTick_cases h
  · exact .of_entry rfl rfl
  · obtain ⟨-, ⟨-, htest⟩ | ⟨-, rfl⟩⟩ := countDelay_cases hwait
    · have hpolls : s.regs.PollsAllowed s.cfg := hs.pollsAllowed (by rw [hseq]; rfl)
      exact .tested _ _ htest (by rw [hseq]; decide) rfl rfl rfl (by simpa [Regs.PollsAllowed] using hpolls)
    · exact .of_entry rfl rfl
  · obtain ⟨-, ⟨-, hattempt⟩ | ⟨-, rfl⟩⟩ := countDelay_cases htrig
    · exact .of_untimed (trigAttempt_untimed _) hattempt
    · exact .of_entry rfl rfl

theorem step_timing (hs : s.Sound) (h : step s = .next t) : StepTiming s t := by
  obtain ⟨hwf, ⟨-, rfl⟩ | ⟨w, es, hnext, hcmd⟩ | ⟨ok, p, es, -, hrsp⟩ | ⟨es, -, htick⟩ | ⟨es, -, hreset⟩⟩ :=
    step_cases h
  · exact .quiet (by rw [List.drop_length]; rfl) (by rw [List.drop_length]; rfl)
  · have hidle : s.regs.seq = .idle := seq_eq_of_not_busy (by simp [not_busy_of_nextEvent_cmd hnext])
    exact (onCommand_timing (s := { s with events := es }) hidle hcmd).of_events
  · exact (onResponse_timing (s := { s with events := es }) hwf hrsp).of_events
  · exact (onTick_timing (hs.withEvents es) htick).of_events
  · rw [onReset_eq] at hreset
    cases hreset
    exact .of_entry rfl rfl

/-! ### The statement -/

/-- A `done` leaves the block idle (R37). -/
theorem step_done_idle (hq : s.regs.Quiescent) (h : step s = .next t)
    (hdone : donesOf (t.history.drop s.history.length) ≠ 0) : t.regs.seq = .idle := by
  obtain rfl | hends := step_ends hq h
  · exact absurd (by rw [List.drop_length]; rfl) hdone
  cases hends with
  | observed e he hist hqt =>
    rw [hist, List.drop_left] at hdone
    exact absurd (donesOf_event_cons he []) hdone
  | ran e u he hist hreq hstop =>
    obtain hadd | ⟨q, hadd, -⟩ | ⟨-, hidle, -⟩ := hstop.added hreq
    · rw [hadd, hist, List.drop_left] at hdone
      exact absurd (donesOf_event_cons he []) hdone
    · rw [hadd, hist, List.append_assoc, List.drop_left] at hdone
      exact absurd (donesOf_event_cons he _) hdone
    · exact hidle

/-- R92: a wait that its deadline ends leaves the deadline and the count of reads as they were. -/
theorem waitReturn_expired (h : waitReturn .expired s = .next t) :
    t.regs.seq = .idle ∧ t.regs.el = s.regs.el ∧ t.regs.timeout = s.regs.timeout ∧ t.regs.polls = s.regs.polls := by
  by_cases hop : s.regs.op = 0x7
  · rw [waitReturn_waitb .expired hop] at h
    cases h
    exact ⟨rfl, rfl, rfl, rfl⟩
  · unfold waitReturn at h
    dsimp only at h
    rw [if_neg hop] at h
    split at h
    · unfold enableAfterWait at h
      split at h
      · cases h
      · cases h
        exact ⟨rfl, rfl, rfl, rfl⟩
    · cases h

/-- Settles O33: a read is sent and `TIMEOUT` answered only by a deadline test (`StepTiming`), which has compared `el`
with the timeout; the bounds on the reads are those of a sound wait. -/
theorem pollsWithinTheDeadline : Obligations.PollsWithinTheDeadline := by
  intro s t hs h
  obtain ⟨hwf, hq, -⟩ := id hs
  have hdone := step_done_idle hq h
  have hcfg := step_cfg h
  refine ⟨fun hread hreq => ?_, fun hout hcode => ?_, fun hseq => ?_⟩
  · cases step_timing hs h with
    | quiet hnone _ => exact absurd hnone hreq
    | untimed hne hend => exact absurd hread hne
    | tested u e htest hseq he hucfg hist hpolls =>
      obtain ⟨-, hexp⟩ | ⟨hlt, rfl⟩ := waitTest_cases htest
      · obtain ⟨hidle, -⟩ := waitReturn_expired hexp
        rw [hidle] at hread
        cases hread
      · rw [send_history, upd_history, hist, List.append_assoc, List.drop_left, hucfg]
        exact ⟨requestsOf_event_cons he _, BitVec.lt_def.mp hlt⟩
  · have hidle := hdone hout
    cases step_timing hs h with
    | quiet _ hnone => exact absurd hnone hout
    | untimed hne hend => exact absurd hcode (hend hidle)
    | tested u e htest hseq he hucfg hist hpolls =>
      obtain ⟨hle, hexp⟩ | ⟨-, rfl⟩ := waitTest_cases htest
      · obtain ⟨-, hel, htimeout, hcount⟩ := waitReturn_expired hexp
        rw [hel, htimeout, hcount]
        exact ⟨BitVec.le_def.mp hle, hseq, hpolls⟩
      · cases hidle
  · have hst := soundKept s t hs h
    have hin : t.regs.seq.inWait = true := by obtain h | h := hseq <;> rw [h] <;> rfl
    have hpolls := hst.pollsAllowed hin
    obtain ⟨-, -, -, -, hbounds⟩ := hst
    obtain ⟨-, hel, -⟩ := hbounds hin
    rw [hcfg] at hpolls hel
    exact ⟨hpolls, hel⟩

end Sys2Proof.Machine
end

section
/-! The writes of one command (R99, R108): each procedure sends the next write of the plan, or none. -/

namespace Sys2Proof.Machine

variable {s t : State} {c : Cfg} {r : Regs} {n : Nat}

/-! ### What an entry of the record says of the command's writes -/

@[simp] theorem collectWrites_cmd (ws : List Request) (n : Nat) (w : CmdWord) :
    collectWrites ws ⟨n, .cmd w⟩ = [] := rfl

@[simp] theorem collectWrites_reset (ws : List Request) (n : Nat) : collectWrites ws ⟨n, .reset⟩ = [] := rfl

@[simp] theorem collectWrites_write (ws : List Request) (n : Nat) (a : Addr) (v : List Byte) :
    collectWrites ws ⟨n, .req ⟨.write, a, v⟩⟩ = ws ++ [⟨.write, a, v⟩] := rfl

@[simp] theorem collectWrites_read (ws : List Request) (n : Nat) (a : Addr) (v : List Byte) :
    collectWrites ws ⟨n, .req ⟨.read, a, v⟩⟩ = ws := rfl

@[simp] theorem collectWrites_rsp (ws : List Request) (n : Nat) (ok : Bool) (p : List Byte) :
    collectWrites ws ⟨n, .rsp ok p⟩ = ws := rfl

@[simp] theorem collectWrites_tick (ws : List Request) (n : Nat) : collectWrites ws ⟨n, .tick⟩ = ws := rfl

@[simp] theorem collectWrites_doneObs (ws : List Request) (n : Nat) (r : Regs) :
    collectWrites ws ⟨n, doneObs r⟩ = ws := rfl

theorem commandWrites_of_entry {e : Entry} (hist : t.history = s.history ++ [e]) :
    t.commandWrites = collectWrites s.commandWrites e := by
  simp [State.commandWrites, hist]

@[simp] theorem commandWrites_upd (s : State) (f : Regs → Regs) : (s.upd f).commandWrites = s.commandWrites := rfl

@[simp] theorem commandWrites_record (o : Obs) (s : State) :
    (s.record o).commandWrites = collectWrites s.commandWrites ⟨s.ticks, o⟩ := commandWrites_of_entry rfl

@[simp] theorem commandWrites_send (label : Seq) (q : Request) (s : State) :
    (send label q s).commandWrites = collectWrites s.commandWrites ⟨s.ticks, .req q⟩ := commandWrites_of_entry rfl

@[simp] theorem commandWrites_countTick (s : State) : (countTick s).commandWrites = s.commandWrites :=
  (commandWrites_of_entry (countTick_history s)).trans (collectWrites_tick _ _)

/-! ### The writes sent so far -/

/-- The command has sent the first `n` of its planned writes, and no other. -/
def State.HasSent (n : Nat) (s : State) : Prop := s.commandWrites = (plannedWrites s.cfg s.regs).take n

theorem hasSent_zero_iff : s.HasSent 0 ↔ s.commandWrites = [] := by
  rw [State.HasSent, List.take_zero]

theorem State.WritesInPlan.hasSent (h : s.WritesInPlan) (hbusy : s.regs.seq ≠ .idle) :
    s.HasSent s.regs.writesSent := by
  unfold State.WritesInPlan at h
  rwa [if_pos (busy_of_seq_ne hbusy)] at h

/-- A command that goes on has sent as many writes as its registers say. -/
theorem State.HasSent.writesInPlan (h : s.HasSent s.regs.writesSent) : s.WritesInPlan := by
  unfold State.WritesInPlan
  split
  · exact h
  · exact h ▸ List.take_prefix _ _

/-- A command that has ended may have sent any number of them. -/
theorem State.HasSent.writesInPlan_of_idle (h : s.HasSent n) (hidle : s.regs.seq = .idle) : s.WritesInPlan := by
  have hbusy : ¬ s.busy = true := by simp [busy_iff, hidle]
  unfold State.WritesInPlan
  rw [if_neg hbusy]
  exact h ▸ List.take_prefix _ _

/-- Only the writes, the plan and the place in it matter. -/
theorem State.WritesInPlan.congr (h : s.WritesInPlan) (hwrites : t.commandWrites = s.commandWrites)
    (hplan : plannedWrites t.cfg t.regs = plannedWrites s.cfg s.regs) (hseq : t.regs.seq = s.regs.seq)
    (hsent : t.regs.writesSent = s.regs.writesSent) : t.WritesInPlan := by
  unfold State.WritesInPlan State.busy at h ⊢
  rwa [hwrites, hplan, hseq, hsent]

/-! ### The plans (R96, R97, R102, R106, R110) -/

theorem plannedWrites_claim {reg : DevReg} {v : List Byte} (hop : r.op = 0x1) (hw : claimWrite r = some (reg, v)) :
    (plannedWrites c r)[r.k.toNat - 1]? = some (writeTo c reg v) := by
  unfold claimWrite at hw
  split_ifs at hw with h1 h2 h3 <;> cases hw <;> simp [plannedWrites, *]

theorem plannedWrites_enable {st : Stage} (hop : r.op = 0x2) (hst : stage r.k = some st) :
    (plannedWrites c r)[r.k.toNat - 1]? = some (writeTo c .cw (encU16 st.cw)) := by
  unfold stage at hst
  split_ifs at hst with h1 h2 h3 <;> cases hst <;> simp [plannedWrites, *]

theorem plannedWrites_disable {reg : DevReg} {v : List Byte} (hop : r.op = 0x3)
    (hw : disableWrite r.k = some (reg, v)) : (plannedWrites c r)[r.k.toNat - 1]? = some (writeTo c reg v) := by
  unfold disableWrite at hw
  split_ifs at hw with h1 h2 h3 <;> cases hw <;> simp [plannedWrites, *]

theorem plannedWrites_trig (hop : r.op = 0x4) (hn : n < r.maxAtt.toNat) :
    (plannedWrites c r)[n]? = some (writeTo c .jog (encU16 r.jogValue)) := by
  simp [plannedWrites, hop, hn]

/-! ### The shared operations -/

/-- If the procedure answers a next state, its writes are in the plan. -/
def KeepsPlan (res : Result) : Prop := ∀ t, res = .next t → t.WritesInPlan

theorem State.WritesInPlan.next (h : s.WritesInPlan) : KeepsPlan (.next s) := by
  intro t ht
  cases ht
  exact h

theorem keepsPlan_fault (why : Fault) : KeepsPlan (.fault why) := by
  intro t ht
  cases ht

theorem finish_keepsPlan (h : s.HasSent n) (code : ResCode) (detail : BitVec 8) :
    KeepsPlan (finish code detail s) := by
  have hdone : ((s.upd (finishRegs code detail)).record (doneObs (finishRegs code detail s.regs))).HasSent n :=
    (commandWrites_record _ _).trans h
  rw [finish_eq]
  exact (hdone.writesInPlan_of_idle rfl).next

/-- The write that is next in the plan. -/
theorem memWrite_keepsPlan {label : Seq} {reg : DevReg} {v : List Byte} (h : s.HasSent n)
    (hw : (plannedWrites s.cfg s.regs)[n]? = some (writeTo s.cfg reg v))
    (hsent : ({ s.regs with reqOut := true, seq := label } : Regs).writesSent = n + 1) :
    KeepsPlan (memWrite label reg v s) := by
  have hnext : (send label (writeTo s.cfg reg v) s).HasSent (n + 1) := by
    unfold State.HasSent at h ⊢
    have hplan : plannedWrites (send label (writeTo s.cfg reg v) s).cfg (send label (writeTo s.cfg reg v) s).regs =
      plannedWrites s.cfg s.regs := rfl
    rw [commandWrites_send, hplan, List.take_add_one, hw, h]
    rfl
  exact State.WritesInPlan.next (State.HasSent.writesInPlan (by rwa [send_regs, hsent]))

theorem memRead_keepsPlan {label : Seq} (reg : DevReg) (h : s.HasSent n)
    (hsent : ({ s.regs with reqOut := true, seq := label } : Regs).writesSent = n) :
    KeepsPlan (memRead label reg s) := by
  have hsame : (send label ⟨.read, devAddr s.cfg reg, []⟩ s).HasSent n := by
    unfold State.HasSent at h ⊢
    rw [commandWrites_send, collectWrites_read]
    exact h
  exact State.WritesInPlan.next (State.HasSent.writesInPlan (by rwa [send_regs, hsent]))

theorem sleepThen_keepsPlan {label : Seq} {d : Ticks} {k : State → Result} (h : s.HasSent n)
    (hsent : ({ s.regs with dly := d, seq := label } : Regs).writesSent = n) (hk : KeepsPlan (k s)) :
    KeepsPlan (sleepThen label d k s) := by
  unfold sleepThen
  split
  · exact hk
  · exact State.WritesInPlan.next (State.HasSent.writesInPlan (by rwa [upd_regs, hsent]))

/-- The index of a write is one more than the number of writes before it. -/
theorem index_sub_add {k : BitVec 2} (hk : k ≠ 0) : k.toNat - 1 + 1 = k.toNat :=
  Nat.sub_add_cancel (toNat_pos_of_ne_zero hk)

theorem index_add_one_sub {k : BitVec 2} (hk : k ≠ 3) : (k + 1).toNat - 1 = k.toNat := by
  revert k
  decide

/-! ### ENABLE's stages and the wait -/

theorem enableIssue_keepsPlan (hop : s.regs.op = 0x2) (hk : s.regs.k ≠ 0) (h : s.HasSent (s.regs.k.toNat - 1)) :
    KeepsPlan (enableIssue s) := by
  unfold enableIssue
  split
  · exact keepsPlan_fault _
  · rename_i st hst
    exact memWrite_keepsPlan h (plannedWrites_enable hop hst) (index_sub_add hk).symm

theorem enableAfterWait_keepsPlan (e : WaitEnd) (hop : s.regs.op = 0x2) (h : s.HasSent s.regs.k.toNat) :
    KeepsPlan (enableAfterWait e s) := by
  unfold enableAfterWait
  split
  · exact keepsPlan_fault _
  · rename_i st _
    cases e with
    | encerr => exact finish_keepsPlan h _ _
    | expired => exact finish_keepsPlan h _ _
    | matched =>
      dsimp only
      split
      · exact finish_keepsPlan (s := s.upd fun r => { r with phase := st.nextPhase }) h _ _
      · rename_i h3
        exact enableIssue_keepsPlan hop (add_one_ne_zero_of_ne_three h3) ((index_add_one_sub h3).symm ▸ h)

/-- A wait's caller has sent its control words, which are none for WAITB (R86). -/
def Regs.wordsSent (r : Regs) : Nat := if r.op = 0x2 then r.k.toNat else 0

theorem waitReturn_keepsPlan (e : WaitEnd) (h : s.HasSent s.regs.wordsSent) : KeepsPlan (waitReturn e s) := by
  unfold waitReturn
  dsimp only
  split
  · cases e <;> exact finish_keepsPlan (s := s.upd fun r => { r with wActive := false }) h _ _
  · split
    · rename_i hop
      rw [Regs.wordsSent, if_pos hop] at h
      exact enableAfterWait_keepsPlan e hop h
    · exact keepsPlan_fault _

theorem waitTest_keepsPlan (h : s.HasSent s.regs.wordsSent) : KeepsPlan (waitTest s) := by
  unfold waitTest
  split
  · exact waitReturn_keepsPlan _ h
  · exact memRead_keepsPlan (s := s.upd fun r => { r with polls := sat32 (r.polls.toNat + 1) }) .sw h rfl

theorem waitStart_keepsPlan (h : s.HasSent s.regs.wordsSent) : KeepsPlan (waitStart s) :=
  waitTest_keepsPlan (s := s.upd fun r => { r with wActive := true, el := 0, polls := 0, lastSwValid := false }) h

/-- What a status read shows is not in the plan. -/
theorem State.HasSent.noted (h : s.HasSent n) (c : ReadClass) : (s.upd (noteStatus c)).HasSent n := by
  cases c <;> exact h

theorem noteStatus_wordsSent (c : ReadClass) (r : Regs) : (noteStatus c r).wordsSent = r.wordsSent := by
  cases c <;> rfl

theorem waitResume_keepsPlan (ok : Bool) (p : List Byte) (h : s.HasSent s.regs.wordsSent) :
    KeepsPlan (waitResume ok p s) := by
  have hnoted : (s.upd (noteStatus (readClass ok p))).HasSent
      (s.upd (noteStatus (readClass ok p))).regs.wordsSent := by
    rw [upd_regs, noteStatus_wordsSent]
    exact h.noted _
  have hsleep := sleepThen_keepsPlan (label := .waitSlp) (d := s.cfg.pollTicks) hnoted rfl (waitTest_keepsPlan hnoted)
  unfold waitResume
  dsimp only
  split
  · exact waitReturn_keepsPlan _ hnoted
  · split
    · exact waitReturn_keepsPlan _ hnoted
    · exact hsleep
  · exact hsleep

theorem enableStart_keepsPlan (hop : s.regs.op = 0x2) (h : s.HasSent 0) : KeepsPlan (enableStart s) :=
  enableIssue_keepsPlan (s := s.upd fun r => { r with phase := .claimed, lastSwValid := false, k := 1 }) hop
    (by simp) h

theorem enableResume_keepsPlan (ok : Bool) (hop : s.regs.op = 0x2) (h : s.HasSent s.regs.k.toNat) :
    KeepsPlan (enableResume ok s) := by
  have hwords : s.regs.wordsSent = s.regs.k.toNat := if_pos hop
  rw [← hwords] at h
  unfold enableResume
  split
  · exact keepsPlan_fault _
  · rename_i st _
    split
    · exact waitStart_keepsPlan (s := s.upd fun r => { r with wBit := st.bit, wTarget := true }) h
    · exact finish_keepsPlan h _ _

/-! ### CLAIM and DISABLE -/

theorem claimIssue_keepsPlan (hop : s.regs.op = 0x1) (hk : s.regs.k ≠ 0) (h : s.HasSent (s.regs.k.toNat - 1)) :
    KeepsPlan (claimIssue s) := by
  unfold claimIssue
  split
  · exact keepsPlan_fault _
  · rename_i reg v hw
    exact memWrite_keepsPlan h (plannedWrites_claim hop hw) (index_sub_add hk).symm

theorem claimStart_keepsPlan (hop : s.regs.op = 0x1) (h : s.HasSent 0) : KeepsPlan (claimStart s) :=
  claimIssue_keepsPlan (s := s.upd fun r => { r with mask := 0, k := 1 }) hop (by simp) h

theorem claimResume_keepsPlan (ok : Bool) (hop : s.regs.op = 0x1) (h : s.HasSent s.regs.k.toNat) :
    KeepsPlan (claimResume ok s) := by
  unfold claimResume
  dsimp only
  split
  · exact keepsPlan_fault _
  · split
    · exact finish_keepsPlan (s := s.upd fun r => { r with mask := maskAfter ok s.regs }) h _ _
    · split
      · exact finish_keepsPlan (s := s.upd fun r => { r with mask := maskAfter ok s.regs, phase := .claimed }) h _ _
      · rename_i h3
        exact claimIssue_keepsPlan hop (add_one_ne_zero_of_ne_three h3) ((index_add_one_sub h3).symm ▸ h)

theorem disableIssue_keepsPlan (hop : s.regs.op = 0x3) (hk : s.regs.k ≠ 0) (h : s.HasSent (s.regs.k.toNat - 1)) :
    KeepsPlan (disableIssue s) := by
  unfold disableIssue
  split
  · exact keepsPlan_fault _
  · rename_i reg v hw
    exact memWrite_keepsPlan h (plannedWrites_disable hop hw) (index_sub_add hk).symm

theorem disableStart_keepsPlan (hop : s.regs.op = 0x3) (h : s.HasSent 0) : KeepsPlan (disableStart s) :=
  disableIssue_keepsPlan (s := s.upd fun r => { r with mask := 0, k := 1 }) hop (by simp) h

theorem disableResume_keepsPlan (ok : Bool) (hop : s.regs.op = 0x3) (h : s.HasSent s.regs.k.toNat) :
    KeepsPlan (disableResume ok s) := by
  unfold disableResume
  dsimp only
  split
  · exact keepsPlan_fault _
  · split
    · exact finish_keepsPlan (s := s.upd fun r =>
        { r with mask := maskAfter ok s.regs, stopFail := alarmAfter ok r, phase := .released }) h _ _
    · rename_i h3
      exact disableIssue_keepsPlan hop (add_one_ne_zero_of_ne_three h3) ((index_add_one_sub h3).symm ▸ h)

/-! ### TRIG, STOP and RDSTAT -/

theorem trigAttempt_keepsPlan (hop : s.regs.op = 0x4) (hatt : s.regs.att.toNat < s.regs.maxAtt.toNat)
    (h : s.HasSent s.regs.att.toNat) : KeepsPlan (trigAttempt s) := by
  have hcount : (s.regs.att + 1).toNat = s.regs.att.toNat + 1 := by bv_omega
  exact memWrite_keepsPlan (s := s.upd fun r => { r with att := r.att + 1 }) h (plannedWrites_trig hop hatt) hcount

theorem trigStart_keepsPlan (hop : s.regs.op = 0x4) (h : s.HasSent 0) : KeepsPlan (trigStart s) := by
  unfold trigStart
  split
  · exact finish_keepsPlan h _ _
  · split
    · exact finish_keepsPlan h _ _
    · rename_i hmax
      exact trigAttempt_keepsPlan (s := s.upd fun r => { r with att := 0 }) hop (toNat_pos_of_ne_zero hmax) h

theorem trigResume_keepsPlan (ok : Bool) (hop : s.regs.op = 0x4) (hle : s.regs.att.toNat ≤ s.regs.maxAtt.toNat)
    (h : s.HasSent s.regs.att.toNat) : KeepsPlan (trigResume ok s) := by
  unfold trigResume
  split
  · exact finish_keepsPlan h _ _
  · split
    · exact finish_keepsPlan h _ _
    · rename_i hne
      have hlt : s.regs.att.toNat < s.regs.maxAtt.toNat :=
        lt_of_le_of_ne hle fun heq => hne (BitVec.eq_of_toNat_eq heq)
      exact sleepThen_keepsPlan h rfl (trigAttempt_keepsPlan hop hlt h)

theorem stopStart_keepsPlan (hop : s.regs.op = 0x5) (h : s.HasSent 0) : KeepsPlan (stopStart s) :=
  memWrite_keepsPlan h (by simp [plannedWrites, hop]) rfl

theorem rdstatStart_keepsPlan (h : s.HasSent 0) : KeepsPlan (rdstatStart s) :=
  memRead_keepsPlan (s := s.upd fun r => { r with lastSwValid := false }) .sw h rfl

/-! ### The events (R38 to R40, R130) -/

/-- A command starts a new plan. -/
theorem accept_keepsPlan {i : Instr} {proc : State → Result} (h : s.WritesInPlan)
    (hp : ∀ u : State, u.regs.op = i.opc → u.HasSent 0 → KeepsPlan (proc u)) : KeepsPlan (accept i proc s) := by
  have hnone : ((s.record (.cmd (encode i))).upd (latch i)).HasSent 0 := hasSent_zero_iff.mpr (by simp)
  unfold accept
  dsimp only
  split
  · exact h.next
  · split
    · exact hp _ (latch_op i _) hnone
    · exact finish_keepsPlan hnone _ _

theorem acceptIllegal_keepsPlan (w : CmdWord) (h : s.WritesInPlan) : KeepsPlan (acceptIllegal w s) := by
  unfold acceptIllegal
  split
  · exact h.next
  · exact finish_keepsPlan (hasSent_zero_iff.mpr (by simp)) _ _

theorem exec_keepsPlan (i : Instr) (h : s.WritesInPlan) : KeepsPlan (exec i s) := by
  cases i with
  | claim ff m v => exact accept_keepsPlan h fun _ => claimStart_keepsPlan
  | enable d => exact accept_keepsPlan h fun _ => enableStart_keepsPlan
  | disable => exact accept_keepsPlan h fun _ => disableStart_keepsPlan
  | trig v n => exact accept_keepsPlan h fun _ => trigStart_keepsPlan
  | stop => exact accept_keepsPlan h fun _ => stopStart_keepsPlan
  | rdstat => exact accept_keepsPlan h fun _ _ => rdstatStart_keepsPlan
  | waitb b v d =>
    refine accept_keepsPlan h fun u hop hnone => waitStart_keepsPlan ?_
    rwa [Regs.wordsSent, hop]

theorem onCommand_keepsPlan (w : CmdWord) (h : s.WritesInPlan) : KeepsPlan (onCommand w s) := by
  unfold onCommand
  split
  · exact exec_keepsPlan _ h
  · exact acceptIllegal_keepsPlan w h

/-- A command that waits for a response goes on from the writes it has sent. -/
theorem resume_keepsPlan (ok : Bool) (p : List Byte) (hc : s.regs.InCommand) (h : s.HasSent s.regs.writesSent) :
    KeepsPlan (resume ok p s) := by
  unfold Regs.InCommand at hc
  unfold Regs.writesSent at h
  unfold resume
  cases hseq : s.regs.seq <;> rw [hseq] at hc h
  case claimWr =>
    obtain ⟨hop, -⟩ := hc
    exact claimResume_keepsPlan ok hop h
  case enCw =>
    obtain ⟨hop, -⟩ := hc
    exact enableResume_keepsPlan ok hop h
  case waitRd => exact waitResume_keepsPlan ok p h
  case disWr =>
    obtain ⟨hop, -⟩ := hc
    exact disableResume_keepsPlan ok hop h
  case trigWr =>
    obtain ⟨hop, -, -, -, hle⟩ := hc
    exact trigResume_keepsPlan ok hop hle h
  case stopWr => exact finish_keepsPlan (s := s.upd fun r => { r with stopFail := !ok }) h _ _
  case rd =>
    rw [rdstatResume_eq]
    exact finish_keepsPlan (h.noted _) _ _
  all_goals exact keepsPlan_fault _

theorem onResponse_keepsPlan (ok : Bool) (p : List Byte) (hs : s.Sound) (h : s.WritesInPlan) :
    KeepsPlan (onResponse ok p s) := by
  obtain ⟨-, hq, hc, -⟩ := hs
  cases hout : s.regs.reqOut with
  | false =>
    rw [onResponse_unasked hout]
    have hrsp : (s.record (.rsp ok p)).WritesInPlan := h.congr (by simp) rfl rfl rfl
    exact hrsp.next
  | true =>
    have hbusy : s.regs.seq ≠ .idle := fun hidle => by simp [hq.reqOut_of_idle hidle] at hout
    rw [onResponse_asked hout]
    refine resume_keepsPlan ok p hc ?_
    have hrsp : (s.record (.rsp ok p)).commandWrites = s.commandWrites := by simp
    exact hrsp.trans (h.hasSent hbusy)

theorem countTick_writesInPlan (h : s.WritesInPlan) : (countTick s).WritesInPlan := by
  obtain ⟨e, he, -⟩ := elapse_eq s.regs
  refine h.congr (by simp) ?_ (by simp) ?_ <;> rw [countTick_regs, he] <;> rfl

/-- A tick of a sleep: the delay is not in the plan, and at its end the command goes on from the writes it has sent. -/
theorem countDelay_keepsPlan {k : State → Result} (h : s.WritesInPlan)
    (hk : KeepsPlan (k (s.upd fun r => { r with dly := 0 }))) : KeepsPlan (countDelay k s) := by
  intro t ht
  obtain ⟨-, ⟨-, hend⟩ | ⟨-, rfl⟩⟩ := countDelay_cases ht
  · exact hk t hend
  · exact h.congr rfl rfl rfl rfl

theorem onTick_keepsPlan (hs : s.Sound) (h : s.WritesInPlan) : KeepsPlan (onTick s) := by
  obtain ⟨-, -, hc, -⟩ := hs
  have htick := countTick_writesInPlan h
  intro t ht
  obtain ⟨-, rfl⟩ | ⟨hseq, hwait⟩ | ⟨hseq, htrig⟩ := onTick_cases ht
  · exact htick
  · have hsent := htick.hasSent (by simp [hseq])
    simp only [Regs.writesSent, countTick_regs, elapse_seq, hseq] at hsent
    exact countDelay_keepsPlan htick
      (waitTest_keepsPlan (s := (countTick s).upd fun r => { r with dly := 0 }) hsent) t hwait
  · have hsent := htick.hasSent (by simp [hseq])
    simp only [Regs.writesSent, countTick_regs, elapse_seq, hseq] at hsent
    rw [Regs.InCommand, hseq] at hc
    obtain ⟨⟨hop, -⟩, hlt⟩ := hc
    obtain ⟨e, he, -⟩ := elapse_eq s.regs
    refine countDelay_keepsPlan htick
      (trigAttempt_keepsPlan (s := (countTick s).upd fun r => { r with dly := 0 }) ?_ ?_ hsent) t htrig
    · rw [countTick_end_regs he]
      exact hop
    · rw [countTick_end_regs he]
      exact hlt

theorem onReset_keepsPlan (s : State) : KeepsPlan (onReset s) := by
  have hnone : ((s.record .reset).upd fun _ => Regs.reset).HasSent 0 := hasSent_zero_iff.mpr (by simp)
  rw [onReset_eq]
  exact (hnone.writesInPlan_of_idle rfl).next

/-- Settles O25: a command starts with no write sent (`accept_keepsPlan`), and each procedure that goes on sends the
write that is next in the plan (`memWrite_keepsPlan`) or none. -/
theorem commandWritesInOrder : Obligations.CommandWritesInOrder := by
  intro s t hs h hstep
  have hevents (es : List Event) : ({ s with events := es } : State).WritesInPlan := h
  obtain ⟨-, ⟨-, rfl⟩ | ⟨w, es, -, hcmd⟩ | ⟨ok, p, es, -, hrsp⟩ | ⟨es, -, htick⟩ | ⟨es, -, hreset⟩⟩ := step_cases hstep
  · exact h
  · exact onCommand_keepsPlan w (hevents es) t hcmd
  · exact onResponse_keepsPlan ok p (hs.withEvents es) (hevents es) t hrsp
  · exact onTick_keepsPlan (hs.withEvents es) (hevents es) t htick
  · exact onReset_keepsPlan _ t hreset

end Sys2Proof.Machine
end

section
/-! The start of CLAIM, ENABLE and DISABLE, and the refusals of the phase check (R95, R96, R97, R102). -/

namespace Sys2Proof.Machine

variable {s : State}

theorem exec_claim (hidle : s.regs.seq = .idle) (hphase : s.regs.phase = .idle ∨ s.regs.phase = .released) (ff : Bool)
    (m : BitVec 16) (v : BitVec 32) :
    exec (.claim ff m v) s = claimStart ((s.record (.cmd (encode (.claim ff m v)))).upd (latch (.claim ff m v))) :=
  (accept_of_idle hidle _ _).trans (if_pos (by simpa [phaseAllowed] using hphase))

theorem exec_enable (hidle : s.regs.seq = .idle)
    (hphase : s.regs.phase = .claimed ∨ s.regs.phase = .rtso ∨ s.regs.phase = .swon) (d : Ticks) :
    exec (.enable d) s = enableStart ((s.record (.cmd (encode (.enable d)))).upd (latch (.enable d))) :=
  (accept_of_idle hidle _ _).trans (if_pos (by simpa [phaseAllowed, or_assoc] using hphase))

theorem exec_disable (hidle : s.regs.seq = .idle) :
    exec .disable s = disableStart ((s.record (.cmd (encode .disable))).upd (latch .disable)) :=
  accept_of_idle hidle .disable disableStart

/-- R95: an idle block ends a command that its phase does not allow. -/
theorem exec_of_not_phaseAllowed {i : Instr} (hidle : s.regs.seq = .idle)
    (hphase : ¬ phaseAllowed i s.regs.phase = true) :
    exec i s = finish .phase 0 ((s.record (.cmd (encode i))).upd (latch i)) := by
  cases i <;> exact (accept_of_idle hidle _ _).trans (if_neg hphase)

/-- Settles O35: the write is the first of R96's. -/
theorem claimStarts : Obligations.ClaimStarts := by
  intro s ff m v hidle hphase
  rw [exec_claim hidle hphase]
  simp [claimStart, claimIssue, claimWrite, memWrite, send, State.upd, State.record, latch, Instr.opc, devAddr, encU16]

/-- Settles O36: the write is that of R97's first stage. -/
theorem enableStarts : Obligations.EnableStarts := by
  intro s d hidle hphase
  rw [exec_enable hidle hphase]
  simp [enableStart, enableIssue, stage, memWrite, send, State.upd, State.record, latch, Instr.opc, devAddr, encU16]

/-- Settles O37: the write is the first of R102's. -/
theorem disableStarts : Obligations.DisableStarts := by
  intro s hidle
  rw [exec_disable hidle]
  simp [disableStart, disableIssue, disableWrite, memWrite, send, State.upd, State.record, latch, Instr.opc, devAddr,
    encU16]

/-- Settles O44: the phase check comes after the latches and before the procedure (`exec_of_not_phaseAllowed`). -/
theorem phaseRefusals : Obligations.PhaseRefusals := by
  intro s i hidle hphase
  have hrefused : ¬ phaseAllowed i s.regs.phase = true := by
    cases i with
    | claim ff m v => simpa [phaseAllowed] using hphase
    | enable d => simpa [phaseAllowed, and_assoc] using hphase
    | trig v n => simpa [phaseAllowed] using hphase
    | disable => exact hphase.elim
    | stop => exact hphase.elim
    | rdstat => exact hphase.elim
    | waitb b v d => exact hphase.elim
  rw [exec_of_not_phaseAllowed hidle hrefused, finish_eq]
  simp [State.upd, State.record, finishRegs, doneObs, reportsStatus, hidle]

end Sys2Proof.Machine
end

section
/-! One response to a running ENABLE, and the end of its wait's delay (R86 to R92, R97, R98). -/

namespace Sys2Proof.Machine

variable {s : State} {es : List Event}

/-! ### What a stage does with a response -/

/-- R97: the status bit that stage `k` waits for is k-1. -/
theorem enableResume_true (hk : s.regs.k ≠ 0) :
    enableResume true s = waitStart (s.upd fun r => { r with wBit := (s.regs.k - 1).setWidth 4, wTarget := true }) := by
  obtain h | h | h := index_cases hk <;> simp [enableResume, stage, h]

theorem enableResume_false (hk : s.regs.k ≠ 0) :
    enableResume false s = finish .transport (s.regs.k.setWidth 8) s := by
  obtain ⟨st, hst, -⟩ := stage_cases hk
  simp [enableResume, hst]

/-- R97: the ways a wait fails its stage. -/
theorem enableAfterWait_failed {e : WaitEnd} (he : e ≠ .matched) (hk : s.regs.k ≠ 0) :
    enableAfterWait e s = finish e.code (s.regs.k.setWidth 8) s := by
  obtain ⟨st, hst, -⟩ := stage_cases hk
  cases e with
  | matched => exact absurd rfl he
  | expired => simp [enableAfterWait, hst, WaitEnd.code]
  | encerr => simp [enableAfterWait, hst, WaitEnd.code]

/-- The control word that follows the success of stage `k`, as its payload (R97). -/
def nextControlWord (k : BitVec 2) : List Byte := if k = 1 then [0x07, 0x00] else [0x0F, 0x00]

/-- R97, R98: the success of stage 1 or 2 leads on to the next stage. -/
theorem enableAfterWait_matched (hk : s.regs.k ≠ 0) (h3 : s.regs.k ≠ 3) :
    enableAfterWait .matched s = .next (send .enCw (writeTo s.cfg .cw (nextControlWord s.regs.k))
      (s.upd fun r => { r with phase := phaseBefore (s.regs.k + 1), k := s.regs.k + 1 })) := by
  obtain h | h | h := index_cases hk
  · simp [enableAfterWait, enableIssue, stage, memWrite, writeTo, encU16, phaseBefore, nextControlWord, State.upd, h]
  · simp [enableAfterWait, enableIssue, stage, memWrite, writeTo, encU16, phaseBefore, nextControlWord, State.upd, h]
  · exact absurd h h3

/-- R97, R98: the success of stage 3 ends ENABLE. -/
theorem enableAfterWait_matched_last (h3 : s.regs.k = 3) :
    enableAfterWait .matched s = finish .ok 0 (s.upd fun r => { r with phase := .opEnabled }) := by
  simp [enableAfterWait, stage, h3]

theorem waitReturn_enable (e : WaitEnd) (hop : s.regs.op = 0x2) :
    waitReturn e s = enableAfterWait e (s.upd fun r => { r with wActive := false }) := by
  simp [waitReturn, hop]

/-- R88. -/
theorem waitResume_matched_enable {ok : Bool} {p : List Byte} {w : Word16} (hop : s.regs.op = 0x2)
    (hc : readClass ok p = .sw w) (hbit : bitMatches w s.regs.wBit s.regs.wTarget = true) :
    waitResume ok p s = enableAfterWait .matched
      (s.upd fun r => { r with lastSw := w, lastSwValid := true, wActive := false }) := by
  have hend := waitReturn_enable (s := s.upd (noteStatus (.sw w))) .matched hop
  simp only [waitResume, hc, hbit, if_true]
  exact hend

/-- R91. -/
theorem waitResume_encerr_enable {ok : Bool} {p : List Byte} (hop : s.regs.op = 0x2) (hk : s.regs.k ≠ 0)
    (hc : readClass ok p = .encerr) :
    waitResume ok p s =
      finish .encoding (s.regs.k.setWidth 8) (s.upd fun r => { r with wActive := false }) := by
  have hend := waitReturn_enable (s := s.upd (noteStatus .encerr)) .encerr hop
  simp only [waitResume, hc]
  exact hend.trans (enableAfterWait_failed (by decide) hk)

/-- The deadline of a stage's wait (R87, R97). -/
theorem waitTest_expired_enable (h : s.regs.timeout.toNat ≤ s.regs.el.toNat) (hop : s.regs.op = 0x2)
    (hk : s.regs.k ≠ 0) :
    waitTest s = finish .timeout (s.regs.k.setWidth 8) (s.upd fun r => { r with wActive := false }) := by
  have hle : s.regs.timeout ≤ s.regs.el := BitVec.le_def.mpr h
  rw [waitTest, if_pos hle, waitReturn_enable _ hop]
  exact enableAfterWait_failed (by decide) hk

/-! ### What a response makes of a stage -/

/-- The test of a stage's wait is that of its one bit (R97). -/
theorem bitMatches_stage {r : Regs} {w : Word16} (hbit : r.wBit.toNat + 1 = r.k.toNat) (htarget : r.wTarget = true) :
    bitMatches w r.wBit r.wTarget = w.getLsbD (r.k.toNat - 1) := by
  rw [bitMatches, htarget, ← hbit, Nat.add_sub_cancel, beq_true]

/-- R92: with a timeout of 0 the wait of a stage ends before its first read. -/
theorem enableResume_expired (hop : s.regs.op = 0x2) (hk : s.regs.k ≠ 0) (htime : s.regs.timeout = 0) :
    enableResume true s = finish .timeout (s.regs.k.setWidth 8) (s.upd fun r =>
      { r with wBit := (s.regs.k - 1).setWidth 4, wTarget := true, wActive := false, el := 0, polls := 0,
               lastSwValid := false }) := by
  rw [enableResume_true hk, waitStart]
  exact waitTest_expired_enable (by simp [htime]) hop hk

/-- R86, R87: with another timeout the wait of a stage sends its first read. -/
theorem enableResume_waits (hk : s.regs.k ≠ 0) (htime : s.regs.timeout ≠ 0) :
    enableResume true s = .next (send .waitRd (readStatus s.cfg) (s.upd fun r =>
      { r with wBit := (s.regs.k - 1).setWidth 4, wTarget := true, wActive := true, el := 0, polls := 1,
               lastSwValid := false })) := by
  rw [enableResume_true hk, waitStart]
  exact waitTest_of_lt (toNat_pos_of_ne_zero htime)

/-- R88, R97: the status word with the bit of stage 1 or 2. -/
theorem waitResume_nextStage {ok : Bool} {p : List Byte} {w : Word16} (hop : s.regs.op = 0x2)
    (hk : s.regs.k ≠ 0) (h3 : s.regs.k ≠ 3) (hc : readClass ok p = .sw w)
    (hbit : bitMatches w s.regs.wBit s.regs.wTarget = true) :
    waitResume ok p s = .next (send .enCw (writeTo s.cfg .cw (nextControlWord s.regs.k)) (s.upd fun r =>
      { r with lastSw := w, lastSwValid := true, wActive := false, phase := phaseBefore (s.regs.k + 1),
               k := s.regs.k + 1 })) :=
  (waitResume_matched_enable hop hc hbit).trans
    (enableAfterWait_matched (s := s.upd fun r => { r with lastSw := w, lastSwValid := true, wActive := false }) hk h3)

/-- R88, R97: the status word with the bit of stage 3. -/
theorem waitResume_lastStage {ok : Bool} {p : List Byte} {w : Word16} (hop : s.regs.op = 0x2)
    (h3 : s.regs.k = 3) (hc : readClass ok p = .sw w) (hbit : bitMatches w s.regs.wBit s.regs.wTarget = true) :
    waitResume ok p s = finish .ok 0 (s.upd fun r =>
      { r with lastSw := w, lastSwValid := true, wActive := false, phase := .opEnabled }) :=
  (waitResume_matched_enable hop hc hbit).trans
    (enableAfterWait_matched_last (s := s.upd fun r => { r with lastSw := w, lastSwValid := true, wActive := false }) h3)

/-! ### A response to the outstanding request (R39) -/

/-- The state in which the command goes on with a response: it is recorded, and no request is outstanding. -/
def State.afterResponse (ok : Bool) (p : List Byte) (es : List Event) (s : State) : State where
  cfg := s.cfg
  regs := { s.regs with reqOut := false }
  ticks := s.ticks
  history := s.history ++ [⟨s.ticks, .rsp ok p⟩]
  events := es

theorem afterResponse_eq (ok : Bool) (p : List Byte) (es : List Event) (s : State) : s.afterResponse ok p es =
    (State.record (.rsp ok p) { s with events := es }).upd fun r => { r with reqOut := false } := rfl

/-- The response goes to the command that waits for it. -/
theorem step_afterResponse {ok : Bool} {p : List Byte} (hwf : s.cfg.wellFormed = true) (hreq : s.regs.reqOut = true)
    (hev : s.events = .rsp ok p :: es) : step s = resume ok p (s.afterResponse ok p es) :=
  (step_response hwf hev).trans (onResponse_asked (s := { s with events := es }) hreq ok p)

theorem resume_enCw (hseq : s.regs.seq = .enCw) (ok : Bool) (p : List Byte) : resume ok p s = enableResume ok s := by
  simp only [resume, hseq]

theorem resume_waitRd (hseq : s.regs.seq = .waitRd) (ok : Bool) (p : List Byte) :
    resume ok p s = waitResume ok p s := by
  simp only [resume, hseq]

/-! ### What soundness says of a running ENABLE -/

theorem State.Sound.inStage_of_enCw (hs : s.Sound) (hseq : s.regs.seq = .enCw) : s.regs.InStage := by
  obtain ⟨-, -, hc, -⟩ := hs
  rwa [Regs.InCommand, hseq] at hc

theorem State.Sound.step_of_enCw {ok : Bool} {p : List Byte} (hs : s.Sound) (hseq : s.regs.seq = .enCw)
    (hev : s.events = .rsp ok p :: es) : step s = enableResume ok (s.afterResponse ok p es) := by
  obtain ⟨hwf, hq, -⟩ := hs
  rw [step_afterResponse hwf (hq.reqOut_iff.mpr (by rw [hseq]; rfl)) hev]
  exact resume_enCw (s := s.afterResponse ok p es) hseq ok p

theorem State.Sound.step_of_waitRd {ok : Bool} {p : List Byte} (hs : s.Sound) (hseq : s.regs.seq = .waitRd)
    (hev : s.events = .rsp ok p :: es) : step s = waitResume ok p (s.afterResponse ok p es) := by
  rw [afterResponse_eq]
  exact step_waitRd (hs.awaitsRead hseq) hev

/-- A wait that ENABLE called has a stage's operands (R97). -/
theorem State.Sound.inStage_of_inWait (hs : s.Sound) (hop : s.regs.op = 0x2) (hseq : s.regs.seq.inWait = true) :
    s.regs.InStage ∧ s.regs.wBit.toNat + 1 = s.regs.k.toNat ∧ s.regs.wTarget = true := by
  obtain ⟨-, -, hc, -⟩ := hs
  have hwait : s.regs.InWait := by
    unfold Regs.InCommand at hc
    cases h : s.regs.seq <;> rw [h] at hc hseq
    case waitRd => exact hc
    case waitSlp => exact hc
    all_goals cases hseq
  exact hwait.resolve_left (by simp [hop])

/-! ### The outcomes of a stage -/

/-- The end of ENABLE with an outcome that reports the status word (R100, R115). -/
theorem finish_enable {code : ResCode} (hcode : reportsStatus 0x2 code = true) (detail : BitVec 8)
    (hop : s.regs.op = 0x2) :
    finish code detail s = .next { s with
      regs := { s.regs with
        seq := .idle, wActive := false, dly := 0, resCode := code, resOp := 0x2, resDetail := detail,
        resSw := s.regs.lastSw, resSwValid := s.regs.lastSwValid }
      history := s.history ++ [⟨s.ticks, .done code 0x2 detail s.regs.lastSw s.regs.lastSwValid⟩] } := by
  have hreports : reportsStatus 2#4 code = true := hcode
  rw [finish_eq]
  simp [State.upd, State.record, finishRegs, doneObs, hop, hreports]

theorem sat32_succ (v : BitVec 32) : sat32 (v.toNat + 1) = if v.toNat < 2 ^ 32 - 1 then v + 1 else v := by
  split
  · exact sat32_succ_of_lt ‹_›
  · exact sat32_succ_of_max (by have := v.isLt; omega)

/-- The deadline at the end of a delay of ENABLE's wait. -/
theorem waitSlp_last_expires_enable (hs : s.Sound) (hseq : s.regs.seq = .waitSlp) (hd : s.regs.dly = 1)
    (hop : s.regs.op = 0x2) (hle : s.regs.timeout.toNat ≤ s.regs.el.toNat + 1) :
    onTick s = finish .timeout (s.regs.k.setWidth 8) ((countTick s).upd fun r =>
      { r with dly := 0, wActive := false }) := by
  obtain ⟨hactive, -⟩ := hs.waitSlp_last hseq hd
  obtain ⟨⟨-, hk, -⟩, -⟩ := hs.inStage_of_inWait hop (by rw [hseq]; rfl)
  obtain ⟨e, he, -, hnext⟩ := elapse_eq s.regs
  have hnext := hnext hactive
  have htime := s.regs.timeout.isLt
  have hdeadline : s.regs.timeout.toNat ≤ e.toNat := by omega
  rw [onTick_waitSlp_last hseq hd]
  refine (waitTest_expired_enable ?_ ?_ ?_).trans ?_
  all_goals rw [countTick_end_regs he]
  · exact hdeadline
  · exact hop
  · exact hk
  · rfl

/-- Settles O49: each clause is the answer of `enableResume`, of a wait's end or of its deadline test, in the stage that
soundness says. -/
theorem enableFailureOutcomes : Obligations.EnableFailureOutcomes := by
  intro s es hs hop
  dsimp only
  refine ⟨fun p hseq hev => ?_, fun p hseq htime hev => ?_, fun p hseq htime hev => ?_, fun x hseq hev => ?_,
    fun hseq hd hle hev => ?_, fun x y q hseq h3 hbit hev => ?_, fun x y q hseq h3 hbit hev => ?_, fun hseq => ?_⟩
  · obtain ⟨-, hk, -⟩ := hs.inStage_of_enCw hseq
    exact (hs.step_of_enCw hseq hev).trans
      ((enableResume_false (s := s.afterResponse false p es) hk).trans (finish_enable rfl _ hop))
  · obtain ⟨-, hk, -⟩ := hs.inStage_of_enCw hseq
    exact (hs.step_of_enCw hseq hev).trans
      ((enableResume_expired (s := s.afterResponse true p es) hop hk htime).trans (finish_enable rfl _ hop))
  · obtain ⟨-, hk, -⟩ := hs.inStage_of_enCw hseq
    rw [hs.step_of_enCw hseq hev, enableResume_waits (s := s.afterResponse true p es) hk htime, List.append_cons]
    rfl
  · obtain ⟨⟨-, hk, -⟩, -⟩ := hs.inStage_of_inWait hop (by rw [hseq]; rfl)
    exact (hs.step_of_waitRd hseq hev).trans
      ((waitResume_encerr_enable (s := s.afterResponse true [x] es) hop hk rfl).trans (finish_enable rfl _ hop))
  · obtain ⟨hwf, hq, -⟩ := id hs
    obtain ⟨hactive, -⟩ := hs.waitSlp_last hseq hd
    obtain ⟨hreq, -⟩ := hq.asleep ((sleeps_iff _).mpr (.inl hseq))
    rw [step_tick hwf hev, waitSlp_last_expires_enable (hs.withEvents es) hseq hd hop hle,
      finish_enable rfl _ (by simpa using hop)]
    simp [State.upd, countTick, elapse_of_active hactive, sat32_succ, hreq]
  · obtain ⟨⟨-, hk, -⟩, hk', htarget⟩ := hs.inStage_of_inWait hop (by rw [hseq]; rfl)
    rw [hs.step_of_waitRd hseq hev, waitResume_nextStage (s := s.afterResponse true (x :: y :: q) es) hop hk h3
      rfl ((bitMatches_stage hk' htarget).trans hbit), List.append_cons]
    rfl
  · obtain ⟨-, hk', htarget⟩ := hs.inStage_of_inWait hop (by rw [hseq]; rfl)
    rw [← show s.regs.k.toNat - 1 = 2 by rw [h3]; rfl] at hbit
    exact (hs.step_of_waitRd hseq hev).trans
      ((waitResume_lastStage (s := s.afterResponse true (x :: y :: q) es) hop h3 rfl
        ((bitMatches_stage hk' htarget).trans hbit)).trans (finish_enable rfl _ hop))
  · have hstage : s.regs.InStage := by
      obtain hseq | hseq | hseq := hseq
      · exact hs.inStage_of_enCw hseq
      · obtain ⟨hstage, -⟩ := hs.inStage_of_inWait hop (by rw [hseq]; rfl)
        exact hstage
      · obtain ⟨hstage, -⟩ := hs.inStage_of_inWait hop (by rw [hseq]; rfl)
        exact hstage
    obtain ⟨-, -, hphase⟩ := hstage
    exact hphase

end Sys2Proof.Machine
end

section
/-! Moments of a run: what a response that comes some ticks later finds, and what the procedure that takes it leaves. -/

namespace Sys2Proof.Machine

variable {s t u : State} {c : Cfg} {r : Regs} {n j : Nat} {ws : List Request} {es : List Event} {ok : Bool}
  {p : List Byte}

/-! ### A moment and the operations -/

/-- What a run's statement says of a state: all but the record, of which it counts the writes of the command. -/
structure State.At (c : Cfg) (n : Nat) (r : Regs) (ws : List Request) (es : List Event) (s : State) : Prop where
  cfg : s.cfg = c
  ticks : s.ticks = n
  regs : s.regs = r
  writes : s.commandWrites = ws
  events : s.events = es

theorem State.At.upd (h : s.At c n r ws es) (f : Regs → Regs) : (s.upd f).At c n (f r) ws es :=
  ⟨h.cfg, h.ticks, congrArg f h.regs, h.writes, h.events⟩

theorem State.At.send_write (h : s.At c n r ws es) (label : Seq) (reg : DevReg) (v : List Byte) :
    (send label (writeTo s.cfg reg v) s).At c n { r with reqOut := true, seq := label } (ws ++ [writeTo c reg v]) es :=
  ⟨h.cfg, h.ticks, by rw [send_regs, h.regs],
    by rw [commandWrites_send, h.writes, h.cfg]; exact collectWrites_write _ _ _ _, h.events⟩

theorem State.At.send_read (h : s.At c n r ws es) (label : Seq) :
    (send label (readStatus s.cfg) s).At c n { r with reqOut := true, seq := label } ws es :=
  ⟨h.cfg, h.ticks, by rw [send_regs, h.regs], by rw [commandWrites_send, h.writes]; exact collectWrites_read _ _ _ _, h.events⟩

theorem State.At.finish (h : s.At c n r ws es) (code : ResCode) (detail : BitVec 8) :
    ∃ t, finish code detail s = .next t ∧ t.At c n (finishRegs code detail r) ws es ∧
      t.history.getLast? = some ⟨t.ticks, doneObs t.regs⟩ :=
  ⟨_, rfl, ⟨h.cfg, h.ticks, congrArg (finishRegs code detail) h.regs, by simpa using h.writes, h.events⟩, by simp⟩

/-- Ticks are no writes. -/
theorem foldl_collectWrites_tickEntries (ws : List Request) (m k : Nat) :
    (tickEntries m k).foldl collectWrites ws = ws := by
  induction k generalizing m with
  | zero => rfl
  | succ k ih => exact ih (m + 1)

theorem elapseBy_of_inactive (h : r.wActive = false) (k : Nat) : elapseBy k r = r := by
  simp [elapseBy, h]

/-- The registers once the response is in (R39). -/
def Regs.received (r : Regs) : Regs := { r with reqOut := false }

/-- A response that comes `j` ticks later finds the command as it was, but for the elapsed time of a wait. -/
theorem State.At.runFor_response (h : s.At c n r ws (quiet j ++ .rsp ok p :: es)) (hwf : c.wellFormed = true)
    (hreq : r.reqOut = true) (hawake : r.seq.sleeps = false) :
    ∃ v, runFor (j + 1) s = resume ok p v ∧ v.At c (n + j) (elapseBy j r).received ws es := by
  obtain ⟨rfl, rfl, rfl, rfl, hev⟩ := h
  have hout : (elapseBy j s.regs).reqOut = true := by
    unfold elapseBy
    split <;> exact hreq
  have hquiet := runFor_quiet j hwf hawake hev
  have hstep := step_afterResponse (s := ⟨s.cfg, elapseBy j s.regs, s.ticks + j, s.history ++ tickEntries s.ticks j,
    .rsp ok p :: es⟩) hwf hout rfl
  refine ⟨_, (runFor_add hquiet).trans ((runFor_one _).trans hstep), rfl, rfl, rfl, ?_, rfl⟩
  simp [State.afterResponse, State.commandWrites, List.foldl_append, foldl_collectWrites_tickEntries]

theorem runFor_trans {k : Nat} (h : runFor j s = .next t) (h' : runFor k t = .next u) : runFor (j + k) s = .next u :=
  (runFor_add h).trans h'

/-- The registers of an idle block (R36): nothing runs and nothing is outstanding. -/
structure Regs.AtRest (r : Regs) : Prop where
  seq : r.seq = .idle
  reqOut : r.reqOut = false
  wActive : r.wActive = false
  dly : r.dly = 0

theorem State.Sound.atRest (hs : s.Sound) (hidle : s.regs.seq = .idle) : s.regs.AtRest := by
  obtain ⟨-, hreq, hactive, hdly⟩ := hs.running_of_idle hidle
  exact ⟨hidle, hreq, hactive, hdly⟩

theorem Regs.AtRest.withPhase (hr : r.AtRest) (phase : Phase) : ({ r with phase := phase } : Regs).AtRest :=
  ⟨hr.seq, hr.reqOut, hr.wActive, hr.dly⟩

end Sys2Proof.Machine
end

section
/-! The runs of CLAIM and DISABLE (R96, R102), from the word to the outcome. -/

namespace Sys2Proof.Machine

variable {s : State} {c : Cfg} {r : Regs} {n j : Nat} {ws : List Request} {es : List Event} {ok : Bool} {p : List Byte}

/-! ### The mask of failed writes (R96, R102) -/

/-- The mask after write `k` has been answered. -/
def noteWrite (ok : Bool) (k : BitVec 2) (mask : BitVec 3) : BitVec 3 := if ok then mask else setMaskBit mask k

theorem maskAfter_eq (ok : Bool) (r : Regs) : maskAfter ok r = noteWrite ok r.k r.mask := rfl

/-- The mask of three answered writes, write 1 in bit 0. -/
def failedWrites (a b c : Bool) : BitVec 3 := BitVec.ofBool (!c) ++ BitVec.ofBool (!b) ++ BitVec.ofBool (!a)

theorem noteWrite_three (a b c : Bool) :
    noteWrite c 3 (noteWrite b 2 (noteWrite a 1 0)) = failedWrites a b c := by
  revert a b c
  decide

theorem failedWrites_eq_zero_iff (a b c : Bool) : failedWrites a b c = 0 ↔ (a && b && c) = true := by
  revert a b c
  decide

/-! ### CLAIM (R96) -/

/-- CLAIM's registers while it waits for the response to write `k`. -/
def claimAt (ff : Bool) (m : BitVec 16) (v : BitVec 32) (k : BitVec 2) (mask : BitVec 3) (r : Regs) : Regs :=
  { r with op := 0x1, ff := ff, opMode := m, jogVel := v, k := k, mask := mask, reqOut := true, seq := .claimWr }

/-- CLAIM's three writes, as they stand on the wire. -/
def claimRequests (c : Cfg) (m : BitVec 16) (v : BitVec 32) : List Request :=
  [writeTo c .excl [0x01, 0x00], writeTo c .opmode [m.extractLsb' 0 8, m.extractLsb' 8 8],
    writeTo c .jogvel [v.extractLsb' 0 8, v.extractLsb' 8 8, v.extractLsb' 16 8, v.extractLsb' 24 8]]

variable {ff : Bool} {m : BitVec 16} {v : BitVec 32} {k : BitVec 2} {mask : BitVec 3}

theorem step_claim (hwf : s.cfg.wellFormed = true) (hidle : s.regs.seq = .idle)
    (hphase : s.regs.phase = .idle ∨ s.regs.phase = .released) (hev : s.events = .cmd (encode (.claim ff m v)) :: es) :
    ∃ t, step s = .next t ∧
      t.At s.cfg s.ticks (claimAt ff m v 1 0 s.regs) ((claimRequests s.cfg m v).take 1) es :=
  ⟨_, (step_encode hwf hidle hev).trans (claimStarts _ ff m v hidle hphase), rfl, rfl, rfl,
    by simp [State.commandWrites, claimRequests, writeTo, devAddr], rfl⟩

theorem resume_claimWr (hseq : s.regs.seq = .claimWr) (ok : Bool) (p : List Byte) :
    resume ok p s = claimResume ok s := by
  simp only [resume, hseq]

/-- Under FailFast only a success goes on. -/
theorem not_failFast {ff : Bool} (hgo : ff = true → ok = true) : ¬ (!ok && ff) = true := by
  cases ok with
  | true => simp
  | false => simpa using hgo

theorem claimResume_continues (hk : s.regs.k ≠ 0) (h3 : s.regs.k ≠ 3) (hgo : s.regs.ff = true → ok = true) :
    claimResume ok s = claimIssue (s.upd fun r => { r with mask := noteWrite ok r.k r.mask, k := r.k + 1 }) := by
  unfold claimResume
  dsimp only
  rw [if_neg hk, if_neg (not_failFast hgo), if_neg h3]
  rfl

theorem claimResume_ends (h3 : s.regs.k = 3) (hgo : s.regs.ff = true → ok = true) :
    claimResume ok s =
      finish (if noteWrite ok 3 s.regs.mask = 0 then .ok else .transport) ((noteWrite ok 3 s.regs.mask).setWidth 8)
        (s.upd fun r => { r with mask := noteWrite ok 3 r.mask, phase := .claimed }) := by
  unfold claimResume
  dsimp only
  rw [if_neg (by rw [h3]; decide), if_neg (not_failFast hgo), if_pos h3, maskAfter_eq, h3]
  rfl

theorem claimResume_aborts (hk : s.regs.k ≠ 0) (hff : s.regs.ff = true) :
    claimResume false s = finish .transport ((noteWrite false s.regs.k s.regs.mask).setWidth 8)
      (s.upd fun r => { r with mask := noteWrite false r.k r.mask }) := by
  unfold claimResume
  dsimp only
  rw [if_neg hk, if_pos (by simpa using hff)]
  rfl

theorem State.At.claimIssue {reg : DevReg} {data : List Byte} (h : s.At c n r ws es)
    (hw : claimWrite r = some (reg, data)) :
    ∃ t, claimIssue s = .next t ∧
      t.At c n { r with reqOut := true, seq := .claimWr } (ws ++ [writeTo c reg data]) es := by
  refine ⟨_, ?_, h.send_write .claimWr reg data⟩
  rw [← h.regs] at hw
  simp only [Machine.claimIssue, hw]
  rfl

/-- CLAIM's registers once it has ended at write `k` with the mask `mask`. -/
def claimEnded (ff : Bool) (m : BitVec 16) (v : BitVec 32) (k : BitVec 2) (mask : BitVec 3) (code : ResCode)
    (r : Regs) : Regs :=
  { r with
    op := 0x1, ff := ff, opMode := m, jogVel := v, k := k, mask := mask, resCode := code, resOp := 0x1,
    resDetail := mask.setWidth 8, resSw := 0, resSwValid := false }

theorem finishRegs_claimAt (hr : r.AtRest) (code : ResCode) :
    finishRegs code (mask.setWidth 8) (claimAt ff m v k mask r).received = claimEnded ff m v k mask code r := by
  obtain ⟨hidle, hreq, hactive, hdly⟩ := hr
  simp [finishRegs, claimAt, claimEnded, Regs.received, reportsStatus, hreq, hactive, hdly, hidle]

/-- The response to write `k` reaches CLAIM `j` ticks later. -/
theorem State.At.runFor_claimWr (h : s.At c n (claimAt ff m v k mask r) ws (quiet j ++ .rsp ok p :: es))
    (hwf : c.wellFormed = true) (hr : r.AtRest) :
    ∃ u, runFor (j + 1) s = claimResume ok u ∧ u.At c (n + j) (claimAt ff m v k mask r).received ws es := by
  obtain ⟨u, hrun, hu⟩ := h.runFor_response hwf rfl rfl
  rw [elapseBy_of_inactive (r := claimAt ff m v k mask r) hr.wActive] at hu
  rw [resume_claimWr (by rw [hu.regs]; rfl)] at hrun
  exact ⟨u, hrun, hu⟩

/-- R96: write 1 or 2 is answered, and the next one sent. -/
theorem State.At.claim_continues (hk : k = 1 ∨ k = 2) (hgo : ff = true → ok = true)
    (h : s.At c n (claimAt ff m v k mask r) ((claimRequests c m v).take k.toNat) (quiet j ++ .rsp ok p :: es))
    (hwf : c.wellFormed = true) (hr : r.AtRest) :
    ∃ t, runFor (j + 1) s = .next t ∧ t.At c (n + j) (claimAt ff m v (k + 1) (noteWrite ok k mask) r)
      ((claimRequests c m v).take (k + 1).toNat) es := by
  obtain ⟨u, hrun, hu⟩ := h.runFor_claimWr hwf hr
  have huk : u.regs.k = k := by rw [hu.regs]; rfl
  have hk' : k ≠ 0 ∧ k ≠ 3 := by obtain rfl | rfl := hk <;> decide
  obtain ⟨h0, h3⟩ := hk'
  have hissue := hu.upd fun r => { r with mask := noteWrite ok r.k r.mask, k := r.k + 1 }
  rw [hrun, claimResume_continues (huk ▸ h0) (huk ▸ h3) (by rw [hu.regs]; exact hgo)]
  obtain rfl | rfl := hk
  · exact hissue.claimIssue (encS16_toInt m ▸ rfl)
  · exact hissue.claimIssue (encS32_toInt v ▸ rfl)

/-- R96: write 3 is answered, and CLAIM ends. -/
theorem State.At.claim_ends (hgo : ff = true → ok = true)
    (h : s.At c n (claimAt ff m v 3 mask r) ws (quiet j ++ .rsp ok p :: es)) (hwf : c.wellFormed = true)
    (hr : r.AtRest) :
    ∃ t, runFor (j + 1) s = .next t ∧
      t.At c (n + j) (claimEnded ff m v 3 (noteWrite ok 3 mask)
        (if noteWrite ok 3 mask = 0 then .ok else .transport) { r with phase := .claimed }) ws es ∧
      t.history.getLast? = some ⟨t.ticks, doneObs t.regs⟩ := by
  obtain ⟨u, hrun, hu⟩ := h.runFor_claimWr hwf hr
  have hmask : u.regs.mask = mask := by rw [hu.regs]; rfl
  rw [hrun, claimResume_ends (by rw [hu.regs]; rfl) (by rw [hu.regs]; exact hgo), hmask,
    ← finishRegs_claimAt (hr.withPhase .claimed)]
  exact (hu.upd fun r => { r with mask := noteWrite ok 3 r.mask, phase := .claimed }).finish _ _

/-- R96: under FailFast a failed write ends CLAIM, and the phase stays. -/
theorem State.At.claim_aborts (hk : k ≠ 0)
    (h : s.At c n (claimAt true m v k mask r) ws (quiet j ++ .rsp false p :: es)) (hwf : c.wellFormed = true)
    (hr : r.AtRest) :
    ∃ t, runFor (j + 1) s = .next t ∧
      t.At c (n + j) (claimEnded true m v k (noteWrite false k mask) .transport r) ws es := by
  obtain ⟨u, hrun, hu⟩ := h.runFor_claimWr hwf hr
  have huk : u.regs.k = k := by rw [hu.regs]; rfl
  have hmask : u.regs.mask = mask := by rw [hu.regs]; rfl
  rw [hrun, claimResume_aborts (huk ▸ hk) (by rw [hu.regs]; rfl), huk, hmask, ← finishRegs_claimAt hr]
  obtain ⟨t, ht, hat, -⟩ := (hu.upd fun r => { r with mask := noteWrite false r.k r.mask }).finish .transport
    ((noteWrite false k mask).setWidth 8)
  exact ⟨t, ht, hat⟩

/-- The first two writes of CLAIM, answered so that it goes on. -/
theorem runFor_claim_two {n1 n2 : Nat} {a b : Bool} {pa pb : List Byte} (hs : s.Sound) (hidle : s.regs.seq = .idle)
    (hphase : s.regs.phase = .idle ∨ s.regs.phase = .released) (hgo : ff = true → a = true ∧ b = true)
    (hev : s.events = .cmd (encode (.claim ff m v)) ::
      (quiet n1 ++ .rsp a pa :: (quiet n2 ++ .rsp b pb :: es))) :
    ∃ t, runFor (n1 + n2 + 3) s = .next t ∧
      t.At s.cfg (s.ticks + n1 + n2) (claimAt ff m v 3 (noteWrite b 2 (noteWrite a 1 0)) s.regs)
        (claimRequests s.cfg m v) es := by
  obtain ⟨hwf, -⟩ := id hs
  have hr := hs.atRest hidle
  obtain ⟨t1, hstep, h1⟩ := step_claim hwf hidle hphase hev
  obtain ⟨t2, hrun2, h2⟩ := h1.claim_continues (.inl rfl) (fun hff => (hgo hff).1) hwf hr
  obtain ⟨t3, hrun3, h3⟩ := h2.claim_continues (.inr rfl) (fun hff => (hgo hff).2) hwf hr
  have hcount : n1 + n2 + 3 = n1 + 1 + (n2 + 1) + 1 := by omega
  rw [hcount, runFor_succ _ hstep]
  exact ⟨t3, runFor_trans hrun2 hrun3, h3⟩

/-- Settles O46: under BestEffort every response goes on, and the mask is that of the three. -/
theorem claimBestEffortRun : Obligations.ClaimBestEffortRun := by
  intro s m v n1 n2 n3 a b c pa pb pc rest hs hidle hphase hev
  obtain ⟨hwf, -⟩ := id hs
  obtain ⟨u, hrun, hu⟩ := runFor_claim_two (ff := false) hs hidle hphase nofun hev
  obtain ⟨t, hend, ht, hlast⟩ := hu.claim_ends (ff := false) nofun hwf (hs.atRest hidle)
  have hcount : n1 + n2 + n3 + 4 = n1 + n2 + 3 + (n3 + 1) := by omega
  rw [noteWrite_three] at ht
  refine ⟨t, ?_, ht.cfg, ht.events, ?_, ?_, ht.writes, hlast⟩
  · rw [hcount]
    exact runFor_trans hrun hend
  · rw [ht.ticks, Nat.add_assoc, Nat.add_assoc, Nat.add_assoc]
  · rw [ht.regs]
    simp only [failedWrites_eq_zero_iff]
    rfl

/-- Settles O47: the first failure aborts (`State.At.claim_aborts`). -/
theorem claimFailFastRun : Obligations.ClaimFailFastRun := by
  intro s m v n1 n2 n3 pa pb pc rest hs hidle hphase
  obtain ⟨hwf, -⟩ := id hs
  have hr := hs.atRest hidle
  have hcount2 : n1 + n2 + 3 = n1 + 1 + (n2 + 1) + 1 := by omega
  have hcount3 : n1 + n2 + n3 + 4 = n1 + n2 + 3 + (n3 + 1) := by omega
  dsimp only
  refine ⟨fun hev => ?_, fun hev => ?_, fun hev => ?_, fun hev => ?_⟩
  · obtain ⟨t1, hstep, h1⟩ := step_claim hwf hidle hphase hev
    obtain ⟨t, hend, ht⟩ := h1.claim_aborts (by decide) hwf hr
    exact ⟨t, (runFor_succ _ hstep).trans hend, ht.events, ht.writes, ht.regs⟩
  · obtain ⟨t1, hstep, h1⟩ := step_claim hwf hidle hphase hev
    obtain ⟨t2, hrun, h2⟩ := h1.claim_continues (.inl rfl) (fun _ => rfl) hwf hr
    obtain ⟨t, hend, ht⟩ := h2.claim_aborts (by decide) hwf hr
    rw [hcount2, runFor_succ _ hstep]
    exact ⟨t, runFor_trans hrun hend, ht.events, ht.writes, ht.regs⟩
  · obtain ⟨u, hrun, hu⟩ := runFor_claim_two (ff := true) hs hidle hphase (fun _ => ⟨rfl, rfl⟩) hev
    obtain ⟨t, hend, ht⟩ := hu.claim_aborts (by decide) hwf hr
    rw [hcount3]
    exact ⟨t, runFor_trans hrun hend, ht.events, ht.writes, ht.regs⟩
  · obtain ⟨u, hrun, hu⟩ := runFor_claim_two (ff := true) hs hidle hphase (fun _ => ⟨rfl, rfl⟩) hev
    obtain ⟨t, hend, ht, -⟩ := hu.claim_ends (fun _ => rfl) hwf hr
    rw [hcount3]
    exact ⟨t, runFor_trans hrun hend, ht.events, ht.writes, ht.regs⟩

/-! ### DISABLE (R102) -/

/-- DISABLE's registers while it waits for the response to write `k`, with the alarm `fail`. -/
def disableAt (k : BitVec 2) (mask : BitVec 3) (fail : Bool) (r : Regs) : Regs :=
  { r with op := 0x3, k := k, mask := mask, stopFail := fail, reqOut := true, seq := .disWr }

/-- DISABLE's three writes, as they stand on the wire. -/
def disableRequests (c : Cfg) : List Request :=
  [writeTo c .jog [0x00, 0x00], writeTo c .cw [0x00, 0x00], writeTo c .excl [0x00, 0x00]]

theorem step_disable (hwf : s.cfg.wellFormed = true) (hidle : s.regs.seq = .idle)
    (hev : s.events = .cmd (encode .disable) :: es) :
    ∃ t, step s = .next t ∧
      t.At s.cfg s.ticks (disableAt 1 0 s.regs.stopFail s.regs) ((disableRequests s.cfg).take 1) es :=
  ⟨_, (step_encode hwf hidle hev).trans (disableStarts _ hidle), rfl, rfl, rfl,
    by simp [State.commandWrites, disableRequests, writeTo, devAddr], rfl⟩

theorem resume_disWr (hseq : s.regs.seq = .disWr) (ok : Bool) (p : List Byte) :
    resume ok p s = disableResume ok s := by
  simp only [resume, hseq]

theorem disableResume_continues (hk : s.regs.k ≠ 0) (h3 : s.regs.k ≠ 3) :
    disableResume ok s = disableIssue (s.upd fun r =>
      { r with mask := noteWrite ok r.k r.mask, stopFail := alarmAfter ok r, k := r.k + 1 }) := by
  unfold disableResume
  dsimp only
  rw [if_neg hk, if_neg h3]
  rfl

theorem disableResume_ends (h3 : s.regs.k = 3) :
    disableResume ok s =
      finish (if noteWrite ok 3 s.regs.mask = 0 then .ok else .transport) ((noteWrite ok 3 s.regs.mask).setWidth 8)
        (s.upd fun r => { r with mask := noteWrite ok 3 r.mask, phase := .released }) := by
  unfold disableResume
  dsimp only
  rw [if_neg (by rw [h3]; decide), if_pos h3, maskAfter_eq, h3]
  simp [alarmAfter, h3, State.upd]

theorem State.At.disableIssue {reg : DevReg} {data : List Byte} (h : s.At c n r ws es)
    (hw : disableWrite r.k = some (reg, data)) :
    ∃ t, disableIssue s = .next t ∧
      t.At c n { r with reqOut := true, seq := .disWr } (ws ++ [writeTo c reg data]) es := by
  refine ⟨_, ?_, h.send_write .disWr reg data⟩
  rw [← h.regs] at hw
  simp only [Machine.disableIssue, hw]
  rfl

variable {fail : Bool}

theorem finishRegs_disableAt (hr : r.AtRest) (code : ResCode) (detail : BitVec 8) :
    finishRegs code detail (disableAt k mask fail r).received =
      { r with
        op := 0x3, k := k, mask := mask, stopFail := fail, resCode := code, resOp := 0x3, resDetail := detail,
        resSw := 0, resSwValid := false } := by
  obtain ⟨hidle, hreq, hactive, hdly⟩ := hr
  simp [finishRegs, disableAt, Regs.received, reportsStatus, hreq, hactive, hdly, hidle]

/-- The response to write `k` reaches DISABLE `j` ticks later. -/
theorem State.At.runFor_disWr (h : s.At c n (disableAt k mask fail r) ws (quiet j ++ .rsp ok p :: es))
    (hwf : c.wellFormed = true) (hr : r.AtRest) :
    ∃ u, runFor (j + 1) s = disableResume ok u ∧ u.At c (n + j) (disableAt k mask fail r).received ws es := by
  obtain ⟨u, hrun, hu⟩ := h.runFor_response hwf rfl rfl
  rw [elapseBy_of_inactive (r := disableAt k mask fail r) hr.wActive] at hu
  rw [resume_disWr (by rw [hu.regs]; rfl)] at hrun
  exact ⟨u, hrun, hu⟩

/-- R102: write 1 or 2 is answered, and the next one sent; the alarm follows write 1 (R20). -/
theorem State.At.disable_continues (hk : k = 1 ∨ k = 2)
    (h : s.At c n (disableAt k mask fail r) ((disableRequests c).take k.toNat) (quiet j ++ .rsp ok p :: es))
    (hwf : c.wellFormed = true) (hr : r.AtRest) :
    ∃ t, runFor (j + 1) s = .next t ∧
      t.At c (n + j) (disableAt (k + 1) (noteWrite ok k mask) (if k = 1 then !ok else fail) r)
        ((disableRequests c).take (k + 1).toNat) es := by
  obtain ⟨u, hrun, hu⟩ := h.runFor_disWr hwf hr
  have huk : u.regs.k = k := by rw [hu.regs]; rfl
  have hk' : k ≠ 0 ∧ k ≠ 3 := by obtain rfl | rfl := hk <;> decide
  obtain ⟨h0, h3⟩ := hk'
  have hissue := hu.upd fun r => { r with mask := noteWrite ok r.k r.mask, stopFail := alarmAfter ok r, k := r.k + 1 }
  rw [hrun, disableResume_continues (huk ▸ h0) (huk ▸ h3)]
  obtain rfl | rfl := hk <;> exact hissue.disableIssue rfl

/-- R102: write 3 is answered, and DISABLE ends. -/
theorem State.At.disable_ends (h : s.At c n (disableAt 3 mask fail r) ws (quiet j ++ .rsp ok p :: es))
    (hwf : c.wellFormed = true) (hr : r.AtRest) :
    ∃ t, runFor (j + 1) s = .next t ∧
      t.At c (n + j) { r with
        op := 0x3, k := 3, mask := noteWrite ok 3 mask, stopFail := fail, phase := .released,
        resCode := if noteWrite ok 3 mask = 0 then .ok else .transport, resOp := 0x3,
        resDetail := (noteWrite ok 3 mask).setWidth 8, resSw := 0, resSwValid := false } ws es ∧
      t.history.getLast? = some ⟨t.ticks, doneObs t.regs⟩ := by
  obtain ⟨u, hrun, hu⟩ := h.runFor_disWr hwf hr
  have hmask : u.regs.mask = mask := by rw [hu.regs]; rfl
  have hend := finishRegs_disableAt (k := 3) (mask := noteWrite ok 3 mask) (fail := fail) (hr.withPhase .released)
    (if noteWrite ok 3 mask = 0 then .ok else .transport) ((noteWrite ok 3 mask).setWidth 8)
  rw [hrun, disableResume_ends (by rw [hu.regs]; rfl), hmask, ← hend]
  exact (hu.upd fun r => { r with mask := noteWrite ok 3 r.mask, phase := .released }).finish _ _

/-- Settles O50: every response goes on, and the mask is that of the three. -/
theorem disableRun : Obligations.DisableRun := by
  intro s n1 n2 n3 a b c pa pb pc rest hs hidle hev
  obtain ⟨hwf, -⟩ := id hs
  have hr := hs.atRest hidle
  obtain ⟨t1, hstep, h1⟩ := step_disable hwf hidle hev
  obtain ⟨t2, hrun2, h2⟩ := h1.disable_continues (.inl rfl) hwf hr
  obtain ⟨t3, hrun3, h3⟩ := h2.disable_continues (.inr rfl) hwf hr
  obtain ⟨t, hend, ht, hlast⟩ := h3.disable_ends hwf hr
  have hcount : n1 + n2 + n3 + 4 = n1 + 1 + (n2 + 1) + (n3 + 1) + 1 := by omega
  rw [noteWrite_three] at ht
  rw [hcount, runFor_succ _ hstep]
  refine ⟨t, runFor_trans (runFor_trans hrun2 hrun3) hend, ht.cfg, ht.events, ?_, ?_, ht.writes, hlast⟩
  · rw [ht.ticks, Nat.add_assoc, Nat.add_assoc, Nat.add_assoc]
  · rw [ht.regs]
    simp only [failedWrites_eq_zero_iff]
    rfl

end Sys2Proof.Machine
end

section
/-! The run of ENABLE whose writes succeed and whose first reads match (R97, R98, R100). -/

namespace Sys2Proof.Machine

variable {s : State} {c : Cfg} {r : Regs} {n j : Nat} {ws : List Request} {es : List Event} {ok : Bool} {p : List Byte}
  {d : Ticks} {k : BitVec 2}

/-! ### ENABLE's registers -/

/-- ENABLE's registers while it waits for the response to the control word of stage `k`. -/
def enableAt (d : Ticks) (k : BitVec 2) (r : Regs) : Regs :=
  { r with
    op := 0x2, timeout := d, phase := phaseBefore k, k := k, wActive := false, reqOut := true, seq := .enCw }

/-- The registers that the wait of stage `k` leaves when its first read, answered after `i` ticks, shows `w`. -/
def stageNoted (k : BitVec 2) (i : Nat) (w : Word16) (r : Regs) : Regs :=
  { r with wBit := (k - 1).setWidth 4, wTarget := true, el := sat32 i, polls := 1, lastSw := w, lastSwValid := true }

/-- ENABLE's registers while it waits for the response to the first read of stage `k`, `el` ticks into its wait. -/
def stageReadAt (d : Ticks) (k : BitVec 2) (el : Ticks) (r : Regs) : Regs :=
  { r with
    op := 0x2, timeout := d, phase := phaseBefore k, k := k, wBit := (k - 1).setWidth 4, wTarget := true,
    wActive := true, el := el, polls := 1, lastSwValid := false, reqOut := true, seq := .waitRd }

/-! ### Its steps -/

theorem step_enable (hs : s.Sound) (hidle : s.regs.seq = .idle)
    (hphase : s.regs.phase = .claimed ∨ s.regs.phase = .rtso ∨ s.regs.phase = .swon)
    (hev : s.events = .cmd (encode (.enable d)) :: es) :
    ∃ t, step s = .next t ∧ t.At s.cfg s.ticks (enableAt d 1 { s.regs with lastSwValid := false })
      [writeTo s.cfg .cw [0x06, 0x00]] es := by
  obtain ⟨hwf, -⟩ := id hs
  obtain ⟨-, -, hactive, -⟩ := hs.atRest hidle
  refine ⟨_, (step_encode hwf hidle hev).trans (enableStarts _ d hidle hphase), rfl, rfl, ?_,
    by simp [State.commandWrites, writeTo, devAddr], rfl⟩
  simp [enableAt, phaseBefore, hactive]

/-- R97: the control word of stage `k` succeeds, and the wait sends its first read. -/
theorem State.At.stage_reads (hd : d ≠ 0) (hk : k ≠ 0)
    (h : s.At c n (enableAt d k r) ws (quiet j ++ .rsp true p :: es)) (hwf : c.wellFormed = true) :
    ∃ t, runFor (j + 1) s = .next t ∧ t.At c (n + j) (stageReadAt d k 0 r) ws es := by
  obtain ⟨u, hrun, hu⟩ := h.runFor_response hwf rfl rfl
  rw [elapseBy_of_inactive (r := enableAt d k r) rfl] at hu
  have huk : u.regs.k = k := by rw [hu.regs]; rfl
  rw [hrun, resume_enCw (by rw [hu.regs]; rfl), enableResume_waits (huk ▸ hk) (by rw [hu.regs]; exact hd), huk]
  exact ⟨_, rfl, (hu.upd fun r =>
    { r with wBit := (k - 1).setWidth 4, wTarget := true, wActive := true, el := 0, polls := 1,
             lastSwValid := false }).send_read .waitRd⟩

/-- The response to the first read of stage `k` reaches the wait `j` ticks later. -/
theorem State.At.runFor_stageRead (h : s.At c n (stageReadAt d k 0 r) ws (quiet j ++ .rsp ok p :: es))
    (hwf : c.wellFormed = true) :
    ∃ u, runFor (j + 1) s = waitResume ok p u ∧ u.At c (n + j) (stageReadAt d k (sat32 j) r).received ws es := by
  obtain ⟨u, hrun, hu⟩ := h.runFor_response hwf rfl rfl
  have hel : elapseBy j (stageReadAt d k 0 r) = stageReadAt d k (sat32 j) r := by
    simp [elapseBy, stageReadAt]
  rw [hel] at hu
  rw [resume_waitRd (by rw [hu.regs]; rfl)] at hrun
  exact ⟨u, hrun, hu⟩

/-- The wait of stage `k` tests bit k-1 (R97). -/
theorem bitMatches_stageBit {w : Word16} (hk : k ≠ 0) (hbit : w.getLsbD (k.toNat - 1) = true) :
    bitMatches w ((k - 1).setWidth 4) true = true := by
  have hindex : ∀ k : BitVec 2, k ≠ 0 → ((k - 1).setWidth 4).toNat = k.toNat - 1 := by decide
  rw [bitMatches, hindex k hk, beq_true, hbit]

/-- R97: the first read of stage 1 or 2 shows its bit, and the next control word is sent. -/
theorem State.At.stage_continues {w : Word16} (hk : k ≠ 0) (h3 : k ≠ 3) (hc : readClass ok p = .sw w)
    (hbit : w.getLsbD (k.toNat - 1) = true)
    (h : s.At c n (stageReadAt d k 0 r) ws (quiet j ++ .rsp ok p :: es)) (hwf : c.wellFormed = true) :
    ∃ t, runFor (j + 1) s = .next t ∧ t.At c (n + j) (enableAt d (k + 1) (stageNoted k j w r))
      (ws ++ [writeTo c .cw (nextControlWord k)]) es := by
  obtain ⟨u, hrun, hu⟩ := h.runFor_stageRead hwf
  have huk : u.regs.k = k := by rw [hu.regs]; rfl
  rw [hrun, waitResume_nextStage (by rw [hu.regs]; rfl) (huk ▸ hk) (huk ▸ h3) hc
    (by rw [hu.regs]; exact bitMatches_stageBit hk hbit), huk]
  exact ⟨_, rfl, (hu.upd fun r =>
    { r with lastSw := w, lastSwValid := true, wActive := false, phase := phaseBefore (k + 1),
             k := k + 1 }).send_write .enCw .cw (nextControlWord k)⟩

/-- R97: the first read of stage 3 shows its bit, and ENABLE ends. -/
theorem State.At.stage_ends {w : Word16} (hc : readClass ok p = .sw w) (hbit : w.getLsbD 2 = true)
    (h : s.At c n (stageReadAt d 3 0 r) ws (quiet j ++ .rsp ok p :: es)) (hwf : c.wellFormed = true) :
    ∃ t, runFor (j + 1) s = .next t ∧
      t.At c (n + j) (finishRegs .ok 0 { (enableAt d 3 (stageNoted 3 j w r)).received with phase := .opEnabled })
        ws es := by
  obtain ⟨u, hrun, hu⟩ := h.runFor_stageRead hwf
  rw [hrun, waitResume_lastStage (by rw [hu.regs]; rfl) (by rw [hu.regs]; rfl) hc
    (by rw [hu.regs]; exact bitMatches_stageBit (by decide) hbit)]
  obtain ⟨t, ht, hat, -⟩ := (hu.upd fun r =>
    { r with lastSw := w, lastSwValid := true, wActive := false, phase := .opEnabled }).finish .ok 0
  exact ⟨t, ht, hat⟩

/-- Settles O48: three times a control word and the read that shows its bit. -/
theorem enableSucceedsRun : Obligations.EnableSucceedsRun := by
  intro s d n1 m1 n2 m2 n3 m3 p1 p2 p3 q1 q2 q3 x1 x2 x3 y1 y2 y3 rest hs hidle hphase hd hx1 hx2 hx3 hev
  obtain ⟨hwf, -⟩ := id hs
  obtain ⟨-, hreq, hactive, hdly⟩ := hs.atRest hidle
  have hbit {x y : Byte} {b : Nat} (hb : b < 8) (h : x.getLsbD b = true) : (y ++ x).getLsbD b = true := by
    rw [BitVec.getLsbD_append, if_pos hb, h]
  obtain ⟨t0, hstep, h0⟩ := step_enable hs hidle hphase hev
  obtain ⟨t1, hrun1, h1⟩ := h0.stage_reads hd (by decide) hwf
  obtain ⟨t2, hrun2, h2⟩ := h1.stage_continues (by decide) (by decide) rfl (hbit (by decide) hx1) hwf
  obtain ⟨t3, hrun3, h3⟩ := h2.stage_reads hd (by decide) hwf
  obtain ⟨t4, hrun4, h4⟩ := h3.stage_continues (by decide) (by decide) rfl (hbit (by decide) hx2) hwf
  obtain ⟨t5, hrun5, h5⟩ := h4.stage_reads hd (by decide) hwf
  obtain ⟨t, hrun6, ht⟩ := h5.stage_ends rfl (hbit (by decide) hx3) hwf
  have hcount : n1 + m1 + n2 + m2 + n3 + m3 + 7 =
      n1 + 1 + (m1 + 1) + (n2 + 1) + (m2 + 1) + (n3 + 1) + (m3 + 1) + 1 := by omega
  have hrun := runFor_trans (runFor_trans (runFor_trans (runFor_trans (runFor_trans hrun1 hrun2) hrun3) hrun4) hrun5)
    hrun6
  rw [hcount, runFor_succ _ hstep]
  refine ⟨t, hrun, ht.cfg, ht.events, ?_, ?_, ht.writes⟩
  · rw [ht.ticks]
    omega
  · rw [ht.regs]
    simp [finishRegs, enableAt, stageNoted, Regs.received, reportsStatus, sat32, hreq, hactive, hdly, hidle]

end Sys2Proof.Machine
end

section
/-! The lifecycle phase and the control words (R99, R104): only ENABLE's start and a wait's match send a control word of
ENABLE, and beside these only a reset and the ends of CLAIM and DISABLE move the phase. -/

namespace Sys2Proof.Machine

variable {s t : State} {ph : Phase} {ok : Bool} {p : List Byte}

/-! ### Procedures outside ENABLE's stages -/

/-- If the procedure answers a next state, the phase is `ph` there, and the block does not wait for the response to a
control word of ENABLE. -/
def OutsideStages (ph : Phase) (res : Result) : Prop := ∀ t, res = .next t → t.regs.phase = ph ∧ t.regs.seq ≠ .enCw

theorem outsideStages_next (hphase : t.regs.phase = ph) (hseq : t.regs.seq ≠ .enCw) : OutsideStages ph (.next t) := by
  intro u hu
  cases hu
  exact ⟨hphase, hseq⟩

theorem outsideStages_fault (why : Fault) : OutsideStages ph (.fault why) := by
  intro t ht
  cases ht

theorem finish_outside (h : s.regs.phase = ph) (code : ResCode) (detail : BitVec 8) :
    OutsideStages ph (finish code detail s) := outsideStages_next h (by simp)

theorem memWrite_outside {label : Seq} (hl : label ≠ .enCw) (h : s.regs.phase = ph) (reg : DevReg) (v : List Byte) :
    OutsideStages ph (memWrite label reg v s) := outsideStages_next h hl

theorem memRead_outside {label : Seq} (hl : label ≠ .enCw) (h : s.regs.phase = ph) (reg : DevReg) :
    OutsideStages ph (memRead label reg s) := outsideStages_next h hl

theorem sleepThen_outside {label : Seq} {k : State → Result} (hl : label ≠ .enCw) (h : s.regs.phase = ph)
    (d : Ticks) (hk : OutsideStages ph (k s)) : OutsideStages ph (sleepThen label d k s) := by
  unfold sleepThen
  split
  · exact hk
  · exact outsideStages_next h hl

/-! ### CLAIM and DISABLE -/

theorem claimIssue_outside (h : s.regs.phase = ph) : OutsideStages ph (claimIssue s) := by
  unfold claimIssue
  split
  · exact outsideStages_fault _
  · exact memWrite_outside (by decide) h _ _

theorem disableIssue_outside (h : s.regs.phase = ph) : OutsideStages ph (disableIssue s) := by
  unfold disableIssue
  split
  · exact outsideStages_fault _
  · exact memWrite_outside (by decide) h _ _

/-- R96: CLAIM keeps the phase until its third response, and then moves it unless that aborts. -/
theorem claimResume_outside (ok : Bool) (hk : s.regs.k ≠ 0) :
    OutsideStages s.regs.phase (claimResume ok s) ∨
      (s.regs.k = 3 ∧ (s.regs.ff = true → ok = true) ∧ OutsideStages .claimed (claimResume ok s)) := by
  by_cases hgo : s.regs.ff = true → ok = true
  · by_cases h3 : s.regs.k = 3
    · rw [claimResume_ends h3 hgo]
      exact .inr ⟨h3, hgo, finish_outside rfl _ _⟩
    · rw [claimResume_continues hk h3 hgo]
      exact .inl (claimIssue_outside rfl)
  · obtain ⟨hff, hok⟩ := Classical.not_imp.mp hgo
    rw [Bool.not_eq_true] at hok
    rw [hok, claimResume_aborts hk hff]
    exact .inl (finish_outside rfl _ _)

/-- R102: DISABLE keeps the phase until its third response. -/
theorem disableResume_outside (ok : Bool) (hk : s.regs.k ≠ 0) :
    OutsideStages s.regs.phase (disableResume ok s) ∨
      (s.regs.k = 3 ∧ OutsideStages .released (disableResume ok s)) := by
  by_cases h3 : s.regs.k = 3
  · rw [disableResume_ends h3]
    exact .inr ⟨h3, finish_outside rfl _ _⟩
  · rw [disableResume_continues hk h3]
    exact .inl (disableIssue_outside rfl)

/-! ### The wait, but for a match that ENABLE waits for -/

@[simp] theorem noteStatus_phase (c : ReadClass) (r : Regs) : (noteStatus c r).phase = r.phase := by
  cases c <;> rfl

theorem noteStatus_inWait {r : Regs} (hin : r.InWait) (c : ReadClass) : (noteStatus c r).InWait := by
  cases c <;> exact hin

theorem waitReturn_outside {e : WaitEnd} (hin : s.regs.InWait) (he : s.regs.op = 0x2 → e ≠ .matched) :
    OutsideStages s.regs.phase (waitReturn e s) := by
  obtain hop | ⟨⟨hop, hk, -⟩, -⟩ := hin
  · rw [waitReturn_waitb e hop]
    exact finish_outside rfl _ _
  · rw [waitReturn_enable e hop,
      enableAfterWait_failed (s := s.upd fun r => { r with wActive := false }) (he hop) hk]
    exact finish_outside rfl _ _

theorem waitTest_outside (hin : s.regs.InWait) : OutsideStages s.regs.phase (waitTest s) := by
  unfold waitTest
  split
  · exact waitReturn_outside hin fun _ => by decide
  · exact memRead_outside (by decide) rfl _

/-- R88 to R91: only the match of a stage's bit takes a wait into a stage. -/
theorem waitResume_outside (ok : Bool) (p : List Byte) (hin : s.regs.InWait) :
    OutsideStages s.regs.phase (waitResume ok p s) ∨
      (s.regs.op = 0x2 ∧ ∃ w, readClass ok p = .sw w ∧ bitMatches w s.regs.wBit s.regs.wTarget = true) := by
  have hnoted := noteStatus_inWait hin (readClass ok p)
  have hphase := noteStatus_phase (readClass ok p) s.regs
  have hsleep : OutsideStages s.regs.phase
      (sleepThen .waitSlp s.cfg.pollTicks waitTest (s.upd (noteStatus (readClass ok p)))) :=
    sleepThen_outside (by decide) hphase _ (hphase ▸ waitTest_outside hnoted)
  unfold waitResume
  cases hc : readClass ok p with
  | readfail =>
    rw [hc] at hsleep
    exact .inl hsleep
  | encerr => exact .inl (waitReturn_outside (s := s.upd (noteStatus .encerr)) hin fun _ => by decide)
  | sw w =>
    rw [hc] at hsleep
    dsimp only
    split
    · rename_i hbit
      by_cases hop : s.regs.op = 0x2
      · exact .inr ⟨hop, w, rfl, hbit⟩
      · exact .inl (waitReturn_outside (s := s.upd (noteStatus (.sw w))) hin fun h => absurd h hop)
    · exact .inl hsleep

/-- R99: the response to a control word sends none. -/
theorem enableResume_outside (ok : Bool) (hop : s.regs.op = 0x2) (hk : s.regs.k ≠ 0) :
    OutsideStages s.regs.phase (enableResume ok s) := by
  cases ok with
  | false =>
    rw [enableResume_false hk]
    exact finish_outside rfl _ _
  | true =>
    by_cases htime : s.regs.timeout = 0
    · rw [enableResume_expired hop hk htime]
      exact finish_outside rfl _ _
    · rw [enableResume_waits hk htime]
      exact outsideStages_next rfl (by simp)

/-! ### TRIG, STOP and RDSTAT -/

theorem trigAttempt_outside (h : s.regs.phase = ph) : OutsideStages ph (trigAttempt s) :=
  memWrite_outside (s := s.upd fun r => { r with att := r.att + 1 }) (by decide) h _ _

theorem trigStart_outside (h : s.regs.phase = ph) : OutsideStages ph (trigStart s) := by
  unfold trigStart
  split
  · exact finish_outside h _ _
  · split
    · exact finish_outside h _ _
    · exact trigAttempt_outside h

theorem trigResume_outside (ok : Bool) : OutsideStages s.regs.phase (trigResume ok s) := by
  unfold trigResume
  split
  · exact finish_outside rfl _ _
  · split
    · exact finish_outside rfl _ _
    · exact sleepThen_outside (by decide) rfl _ (trigAttempt_outside rfl)

theorem rdstatResume_outside (ok : Bool) (p : List Byte) : OutsideStages s.regs.phase (rdstatResume ok p s) := by
  rw [rdstatResume_eq]
  exact finish_outside (noteStatus_phase _ _) _ _

/-! ### The events -/

theorem accept_outside {i : Instr} {proc : State → Result} (hidle : s.regs.seq = .idle)
    (hp : ∀ u : State, u.regs.op = i.opc → u.regs.phase = s.regs.phase → OutsideStages s.regs.phase (proc u)) :
    OutsideStages s.regs.phase (accept i proc s) := by
  rw [accept_of_idle hidle]
  split
  · exact hp _ (latch_op i _) (latch_phase i _)
  · exact finish_outside (latch_phase i _) _ _

/-- Of the commands, only ENABLE in a phase it is allowed in starts with a stage. -/
theorem exec_outside (i : Instr) (hidle : s.regs.seq = .idle) :
    OutsideStages s.regs.phase (exec i s) ∨ ∃ d, i = .enable d ∧
      (s.regs.phase = .claimed ∨ s.regs.phase = .rtso ∨ s.regs.phase = .swon) := by
  cases i with
  | claim ff m v => exact .inl (accept_outside hidle fun _ _ h => claimIssue_outside h)
  | enable d =>
    by_cases hphase : phaseAllowed (.enable d) s.regs.phase = true
    · exact .inr ⟨d, rfl, by simpa [phaseAllowed, or_assoc] using hphase⟩
    · rw [exec_of_not_phaseAllowed hidle hphase]
      exact .inl (finish_outside (latch_phase _ _) _ _)
  | disable => exact .inl (accept_outside hidle fun _ _ h => disableIssue_outside h)
  | trig v n => exact .inl (accept_outside hidle fun _ _ h => trigStart_outside h)
  | stop => exact .inl (accept_outside hidle fun _ _ h => memWrite_outside (by decide) h _ _)
  | rdstat =>
    refine .inl (accept_outside hidle fun u _ h => ?_)
    exact memRead_outside (s := u.upd fun r => { r with lastSwValid := false }) (by decide) h _
  | waitb b v d =>
    refine .inl (accept_outside hidle fun u hop h => h ▸ ?_)
    exact waitTest_outside (s := u.upd fun r =>
      { r with wActive := true, el := 0, polls := 0, lastSwValid := false }) (.inl hop)

theorem onCommand_outside (w : CmdWord) (hidle : s.regs.seq = .idle) :
    OutsideStages s.regs.phase (onCommand w s) ∨ ∃ d, decode w = .ok (.enable d) ∧
      (s.regs.phase = .claimed ∨ s.regs.phase = .rtso ∨ s.regs.phase = .swon) := by
  unfold onCommand
  cases hdec : decode w with
  | ok i =>
    obtain h | ⟨d, rfl, hphase⟩ := exec_outside i hidle
    · exact .inl h
    · exact .inr ⟨d, rfl, hphase⟩
  | error e =>
    have hbusy : ¬ s.busy = true := by simp [busy_iff, hidle]
    unfold acceptIllegal
    rw [if_neg hbusy]
    exact .inl (finish_outside rfl _ _)

/-- What a response does to the phase, but for the match of a stage's bit. -/
inductive ResumePhase (ok : Bool) (p : List Byte) (r : Regs) (res : Result) : Prop where
  | stays (h : OutsideStages r.phase res)
  | claimed (hseq : r.seq = .claimWr) (hk : r.k = 3) (hphase : r.phase = .idle ∨ r.phase = .released)
      (hgo : r.ff = true → ok = true) (h : OutsideStages .claimed res)
  | released (hseq : r.seq = .disWr) (hk : r.k = 3) (h : OutsideStages .released res)
  | matched (w : Word16) (hseq : r.seq = .waitRd) (hop : r.op = 0x2) (hc : readClass ok p = .sw w)
      (hbit : bitMatches w r.wBit r.wTarget = true)

theorem resume_phase (ok : Bool) (p : List Byte) (hc : s.regs.InCommand) :
    ResumePhase ok p s.regs (resume ok p s) := by
  unfold Regs.InCommand at hc
  unfold resume
  cases hseq : s.regs.seq <;> rw [hseq] at hc
  case claimWr =>
    obtain ⟨-, hk, hphase, -⟩ := hc
    obtain h | ⟨h3, hgo, h⟩ := claimResume_outside ok hk
    · exact .stays h
    · exact .claimed hseq h3 hphase hgo h
  case enCw =>
    obtain ⟨hop, hk, -⟩ := hc
    exact .stays (enableResume_outside ok hop hk)
  case waitRd =>
    obtain h | ⟨hop, w, hw, hbit⟩ := waitResume_outside ok p hc
    · exact .stays h
    · exact .matched w hseq hop hw hbit
  case disWr =>
    obtain ⟨-, hk, -⟩ := hc
    obtain h | ⟨h3, h⟩ := disableResume_outside ok hk
    · exact .stays h
    · exact .released hseq h3 h
  case trigWr => exact .stays (trigResume_outside ok)
  case stopWr => exact .stays (finish_outside rfl _ _)
  case rd => exact .stays (rdstatResume_outside ok p)
  all_goals exact .stays (outsideStages_fault _)

/-! ### Every step -/

/-- What a step does to the phase and to the control words of ENABLE. -/
inductive LifecycleStep (s t : State) : Prop where
  | observed (e : Entry) (he : e.obs.isEvent = true) (hist : t.history = s.history ++ [e])
      (hphase : t.regs.phase = s.regs.phase)
  | stays (hphase : t.regs.phase = s.regs.phase) (hseq : t.regs.seq ≠ .enCw)
  | reset (es : List Event) (hnext : nextEvent s.busy s.events = some (.reset, es)) (ht : t.regs = Regs.reset)
  | enable (w : CmdWord) (es : List Event) (d : Ticks) (hnext : nextEvent s.busy s.events = some (.cmd w, es))
      (hidle : s.regs.seq = .idle) (hdec : decode w = .ok (.enable d))
      (hphase : s.regs.phase = .claimed ∨ s.regs.phase = .rtso ∨ s.regs.phase = .swon)
      (ht : exec (.enable d) { s with events := es } = .next t)
  | response (ok : Bool) (p : List Byte) (es : List Event)
      (hnext : nextEvent s.busy s.events = some (.rsp ok p, es)) (ht : resume ok p (s.afterResponse ok p es) = .next t)
      (h : ResumePhase ok p (s.afterResponse ok p es).regs (.next t))

/-- A tick is observed alone, or a procedure runs outside ENABLE's stages. -/
theorem onTick_lifecycle (hs : s.Sound) (h : onTick s = .next t) :
    (∃ e : Entry, e.obs.isEvent = true ∧ t.history = s.history ++ [e] ∧ t.regs.phase = s.regs.phase) ∨
      (t.regs.phase = s.regs.phase ∧ t.regs.seq ≠ .enCw) := by
  obtain ⟨e, he, -⟩ := elapse_eq s.regs
  have hregs := countTick_end_regs he
  obtain ⟨-, rfl⟩ | ⟨hseq, hwait⟩ | ⟨-, htrig⟩ := onTick_cases h
  · exact .inl ⟨_, rfl, rfl, elapse_phase _⟩
  · obtain ⟨-, -, hc, -⟩ := hs
    have hin : s.regs.InWait := by rwa [Regs.InCommand, hseq] at hc
    obtain ⟨-, ⟨-, htest⟩ | ⟨-, rfl⟩⟩ := countDelay_cases hwait
    · have hout := waitTest_outside (by rw [hregs]; exact hin) t htest
      rw [hregs] at hout
      exact .inr hout
    · exact .inl ⟨_, rfl, rfl, elapse_phase _⟩
  · obtain ⟨-, ⟨-, hattempt⟩ | ⟨-, rfl⟩⟩ := countDelay_cases htrig
    · have hout := trigAttempt_outside rfl t hattempt
      rw [hregs] at hout
      exact .inr hout
    · exact .inl ⟨_, rfl, rfl, elapse_phase _⟩

theorem onResponse_lifecycle {es : List Event} (hs : s.Sound)
    (hnext : nextEvent s.busy s.events = some (.rsp ok p, es)) (h : onResponse ok p { s with events := es } = .next t) :
    LifecycleStep s t := by
  obtain ⟨-, -, hc, -⟩ := hs
  cases hout : s.regs.reqOut with
  | false =>
    rw [onResponse_unasked (s := { s with events := es }) hout] at h
    cases h
    exact .observed _ rfl rfl rfl
  | true =>
    rw [onResponse_asked (s := { s with events := es }) hout, ← afterResponse_eq] at h
    have hphase := resume_phase (s := s.afterResponse ok p es) ok p hc
    rw [h] at hphase
    exact .response ok p es hnext h hphase

theorem step_lifecycle (hs : s.Sound) (h : step s = .next t) : t = s ∨ LifecycleStep s t := by
  obtain ⟨-, ⟨-, rfl⟩ | ⟨w, es, hnext, hcmd⟩ | ⟨ok, p, es, hnext, hrsp⟩ | ⟨es, -, htick⟩ | ⟨es, hnext, hreset⟩⟩ :=
    step_cases h
  · exact .inl rfl
  · have hidle : s.regs.seq = .idle := seq_eq_of_not_busy (by simp [not_busy_of_nextEvent_cmd hnext])
    obtain hout | ⟨d, hdec, hphase⟩ := onCommand_outside (s := { s with events := es }) w hidle
    · obtain ⟨hsame, hne⟩ := hout t hcmd
      exact .inr (.stays hsame hne)
    · rw [onCommand_of_decode hdec] at hcmd
      exact .inr (.enable w es d hnext hidle hdec hphase hcmd)
  · exact .inr (onResponse_lifecycle hs hnext hrsp)
  · obtain ⟨e, he, hist, hphase⟩ | ⟨hphase, hseq⟩ := onTick_lifecycle (hs.withEvents es) htick
    · exact .inr (.observed e he hist hphase)
    · exact .inr (.stays hphase hseq)
  · rw [onReset_eq] at hreset
    cases hreset
    exact .inr (.reset es hnext rfl)

/-! ### The match of a stage's bit -/

/-- R97, R98: where ENABLE is after the word of a status read whose bit the wait of stage `k` tests. -/
theorem waitResume_stage {w : Word16} (hop : s.regs.op = 0x2) (hst : s.regs.InStage)
    (hwBit : s.regs.wBit.toNat + 1 = s.regs.k.toNat) (hc : readClass ok p = .sw w)
    (hbit : bitMatches w s.regs.wBit s.regs.wTarget = true) (h : waitResume ok p s = .next t) :
    t.regs.lastSw = w ∧ t.regs.lastSwValid = true ∧
      ((s.regs.phase = .claimed ∧ s.regs.wBit = 0 ∧ t.regs.phase = .rtso) ∨
        (s.regs.phase = .rtso ∧ s.regs.wBit = 1 ∧ t.regs.phase = .swon) ∨
        (s.regs.phase = .swon ∧ s.regs.wBit = 2 ∧ t.regs.phase = .opEnabled)) ∧
      (t.regs.seq = .enCw → s.regs.k ≠ 3 ∧ t.regs.k = s.regs.k + 1 ∧
        t.history = s.history ++ [⟨s.ticks, .req (writeTo s.cfg .cw (nextControlWord s.regs.k))⟩]) := by
  obtain ⟨-, hk, hphase⟩ := hst
  by_cases h3 : s.regs.k = 3
  · rw [waitResume_lastStage hop h3 hc hbit] at h
    cases h
    rw [h3] at hphase hwBit
    exact ⟨rfl, rfl, .inr (.inr ⟨hphase, BitVec.eq_of_toNat_eq (Nat.succ.inj hwBit), rfl⟩), nofun⟩
  · rw [waitResume_nextStage hop hk h3 hc hbit] at h
    cases h
    refine ⟨rfl, rfl, ?_, fun _ => ⟨h3, rfl, rfl⟩⟩
    obtain hk | hk | hk := index_cases hk
    · rw [hk] at hphase hwBit
      exact .inl ⟨hphase, BitVec.eq_of_toNat_eq (Nat.succ.inj hwBit), by simp [hk, phaseBefore]⟩
    · rw [hk] at hphase hwBit
      exact .inr (.inl ⟨hphase, BitVec.eq_of_toNat_eq (Nat.succ.inj hwBit), by simp [hk, phaseBefore]⟩)
    · exact absurd hk h3

/-- The same of the step whose response matches, in a sound state. -/
theorem State.Sound.stage_of_match {w : Word16} {es : List Event} (hs : s.Sound) (hseq : s.regs.seq = .waitRd)
    (hop : s.regs.op = 0x2) (hc : readClass ok p = .sw w) (hbit : bitMatches w s.regs.wBit s.regs.wTarget = true)
    (h : resume ok p (s.afterResponse ok p es) = .next t) :
    t.regs.lastSw = w ∧ t.regs.lastSwValid = true ∧ w.getLsbD s.regs.wBit.toNat = true ∧
      s.regs.wBit.toNat = s.regs.k.toNat - 1 ∧
      ((s.regs.phase = .claimed ∧ s.regs.wBit = 0 ∧ t.regs.phase = .rtso) ∨
        (s.regs.phase = .rtso ∧ s.regs.wBit = 1 ∧ t.regs.phase = .swon) ∨
        (s.regs.phase = .swon ∧ s.regs.wBit = 2 ∧ t.regs.phase = .opEnabled)) ∧
      (t.regs.seq = .enCw → (s.regs.k = 1 ∨ s.regs.k = 2) ∧ t.regs.k = s.regs.k + 1 ∧
        requestsOf (t.history.drop s.history.length) = [writeTo s.cfg .cw (nextControlWord s.regs.k)]) := by
  obtain ⟨hst, hwBit, htarget⟩ := hs.inStage_of_inWait hop (by rw [hseq]; rfl)
  obtain ⟨-, hk, -⟩ := id hst
  rw [resume_waitRd (s := s.afterResponse ok p es) hseq] at h
  obtain ⟨hsw, hvalid, hmoves, hsent⟩ := waitResume_stage (s := s.afterResponse ok p es) hop hst hwBit hc hbit h
  have htest : w.getLsbD s.regs.wBit.toNat = s.regs.wTarget := beq_iff_eq.mp hbit
  refine ⟨hsw, hvalid, htest.trans htarget, by omega, hmoves, fun hcw => ?_⟩
  obtain ⟨h3, hk', hist⟩ := hsent hcw
  have hindex : s.regs.k = 1 ∨ s.regs.k = 2 := by
    obtain h1 | h2 | h3' := index_cases hk
    · exact .inl h1
    · exact .inr h2
    · exact absurd h3' h3
  refine ⟨hindex, hk', ?_⟩
  rw [hist, State.afterResponse, List.append_assoc, List.drop_left]
  rfl

/-! ### The statements -/

/-- Settles O28: of the steps of `LifecycleStep`, a match moves the phase as its stage says
(`State.Sound.stage_of_match`). -/
theorem phaseChanges : Obligations.PhaseChanges := by
  intro s t hs h hne
  obtain rfl | hstep := step_lifecycle hs h
  · exact absurd rfl hne
  cases hstep with
  | observed e he hist hphase => exact absurd hphase hne
  | stays hphase hseq => exact absurd hphase hne
  | reset es hnext ht => exact .inl ⟨es, hnext, by rw [ht]; rfl⟩
  | enable w es d hnext hidle hdec hphase ht =>
    rw [enableStarts { s with events := es } d hidle hphase] at ht
    cases ht
    have hmoved := hphase.resolve_left fun hclaimed => hne hclaimed.symm
    exact .inr (.inl ⟨w, es, d, hnext, hidle, hdec, hmoved, rfl⟩)
  | response ok p es hnext ht hres =>
    refine .inr (.inr ⟨ok, p, es, hnext, ?_⟩)
    cases hres with
    | stays hout =>
      obtain ⟨hsame, -⟩ := hout t rfl
      exact absurd hsame hne
    | claimed hseq hk hphase hgo hout =>
      obtain ⟨hclaimed, -⟩ := hout t rfl
      exact .inl ⟨hseq, hk, hphase, hgo, hclaimed⟩
    | released hseq hk hout =>
      obtain ⟨hreleased, -⟩ := hout t rfl
      exact .inr (.inr ⟨hseq, hk, hreleased⟩)
    | matched w hseq hop hc hbit =>
      obtain ⟨hsw, -, htest, -, hmove, -⟩ := hs.stage_of_match hseq hop hc hbit ht
      exact .inr (.inl ⟨hseq, hop, hsw ▸ hc, hsw ▸ htest, hmove⟩)

/-- Settles O29: of the steps of `LifecycleStep` that end in `S_EN_CW`, only ENABLE's start and a match send a
request. -/
theorem controlWordOnlyAfterItsGate : Obligations.ControlWordOnlyAfterItsGate := by
  intro s t hs h hcw hreq
  obtain rfl | hstep := step_lifecycle hs h
  · exact absurd (by rw [List.drop_length]; rfl) hreq
  cases hstep with
  | observed e he hist hphase =>
    rw [hist, List.drop_left] at hreq
    exact absurd (requestsOf_event_cons he []) hreq
  | stays hphase hseq => exact absurd hcw hseq
  | reset es hnext ht =>
    rw [ht] at hcw
    cases hcw
  | enable w es d hnext hidle hdec hphase ht =>
    rw [enableStarts { s with events := es } d hidle hphase] at ht
    cases ht
    exact .inl ⟨hidle, rfl, rfl, by rw [List.drop_left]; rfl⟩
  | response ok p es hnext ht hres =>
    cases hres with
    | stays hout =>
      obtain ⟨-, hne⟩ := hout t rfl
      exact absurd hcw hne
    | claimed hseq hk hphase hgo hout =>
      obtain ⟨-, hne⟩ := hout t rfl
      exact absurd hcw hne
    | released hseq hk hout =>
      obtain ⟨-, hne⟩ := hout t rfl
      exact absurd hcw hne
    | matched w hseq hop hc hbit =>
      obtain ⟨hsw, hvalid, htest, hindex, -, hsent⟩ := hs.stage_of_match hseq hop hc hbit ht
      obtain ⟨hk, hk', hsends⟩ := hsent hcw
      refine .inr ⟨hseq, hop, hk', hvalid, by rw [hsw, ← hindex]; exact htest, ?_⟩
      obtain hk | hk := hk
      · exact .inl ⟨hk, by rw [hsends, hk]; rfl⟩
      · exact .inr ⟨hk, by rw [hsends, hk]; rfl⟩

end Sys2Proof.Machine
end

section
/-! The start of TRIG and STOP, and one response to a running TRIG or STOP (R106 to R110). -/

namespace Sys2Proof.Machine

variable {s : State} {es : List Event} {ok : Bool} {p : List Byte}

/-! ### Their starts (R38, R95) -/

theorem exec_trig (hidle : s.regs.seq = .idle) (hphase : s.regs.phase = .opEnabled) (v : BitVec 16) (n : BitVec 8) :
    exec (.trig v n) s = trigStart ((s.record (.cmd (encode (.trig v n)))).upd (latch (.trig v n))) :=
  (accept_of_idle hidle _ _).trans (if_pos (by simpa [phaseAllowed] using hphase))

theorem exec_stop (hidle : s.regs.seq = .idle) :
    exec .stop s = stopStart ((s.record (.cmd (encode .stop))).upd (latch .stop)) :=
  accept_of_idle hidle .stop stopStart

/-- R107: legal operands start the first attempt. -/
theorem trigStart_attempts (hv : s.regs.jogValue ≠ 0) (hn : s.regs.maxAtt ≠ 0) :
    trigStart s = trigAttempt (s.upd fun r => { r with att := 0 }) :=
  (if_neg hv).trans (if_neg hn)

/-- R107: a zero operand ends TRIG, whichever of the two it is. -/
theorem trigStart_refuses (h : s.regs.jogValue = 0 ∨ s.regs.maxAtt = 0) : trigStart s = finish .arg 0 s := by
  unfold trigStart
  split
  · rfl
  · rename_i hv
    exact if_pos (h.resolve_left hv)

/-- An attempt is a write of the value, low byte first (R79, R106). -/
theorem trigAttempt_eq (s : State) :
    trigAttempt s = .next (send .trigWr
      (writeTo s.cfg .jog [s.regs.jogValue.extractLsb' 0 8, s.regs.jogValue.extractLsb' 8 8])
      (s.upd fun r => { r with att := r.att + 1 })) := rfl

/-- Settles O38: the first attempt is attempt 1. -/
theorem trigStarts : Obligations.TrigStarts := by
  intro s v n hidle hphase hv hn
  rw [exec_trig hidle hphase, trigStart_attempts hv hn, trigAttempt_eq]
  simp [send, State.upd, State.record, latch, Instr.opc, writeTo, devAddr]

/-- Settles O39: the operands are tested before the first attempt. -/
theorem trigRefusesZeroOperands : Obligations.TrigRefusesZeroOperands := by
  intro s v n hidle hphase hzero
  rw [exec_trig hidle hphase, trigStart_refuses hzero, finish_eq]
  simp [State.upd, State.record, latch, Instr.opc, finishRegs, doneObs, reportsStatus, hidle]

/-- Settles O40: STOP is allowed in every phase, and its start is the write. -/
theorem stopStarts : Obligations.StopStarts := by
  intro s hidle
  rw [exec_stop hidle]
  simp [stopStart, memWrite, send, State.upd, State.record, latch, Instr.opc, devAddr, encU16]

/-! ### What TRIG does with a response (R106) -/

theorem resume_trigWr (hseq : s.regs.seq = .trigWr) (ok : Bool) (p : List Byte) : resume ok p s = trigResume ok s := by
  simp only [resume, hseq]

/-- A success, and any response to the last attempt, ends TRIG. -/
theorem trigResume_ends (h : ok = true ∨ s.regs.att = s.regs.maxAtt) :
    trigResume ok s = finish (if ok then .ok else .transport) s.regs.att s := by
  cases ok with
  | true => rfl
  | false => exact if_pos (h.resolve_left nofun)

/-- A failure before the last attempt is followed by the inter-attempt delay (R108). -/
theorem trigResume_retries (hatt : s.regs.att ≠ s.regs.maxAtt) :
    trigResume false s = sleepThen .trigSlp s.cfg.retryDelayTicks trigAttempt s :=
  if_neg hatt

/-- With a delay of 0 the next attempt follows at once (R37 (ii)). -/
theorem sleepThen_zero (label : Seq) (k : State → Result) (s : State) : sleepThen label 0 k s = k s := if_pos rfl

/-! ### One response to an attempt -/

/-- What soundness says of a block that waits for the response to an attempt (R28, R29, R36). -/
theorem State.Sound.trigWr (hs : s.Sound) (hseq : s.regs.seq = .trigWr) :
    s.regs.reqOut = true ∧ s.regs.op = 0x4 ∧ s.regs.wActive = false ∧ s.regs.dly = 0 := by
  obtain ⟨-, hq, hc, ⟨hactive, hdly⟩, -⟩ := hs
  rw [Regs.InCommand, hseq] at hc
  obtain ⟨hop, -⟩ := hc
  rw [hseq] at hactive hdly
  exact ⟨hq.reqOut_iff.mpr (by rw [hseq]; rfl), hop, hactive, hdly rfl⟩

theorem State.Sound.step_of_trigWr (hs : s.Sound) (hseq : s.regs.seq = .trigWr) (hev : s.events = .rsp ok p :: es) :
    step s = trigResume ok (s.afterResponse ok p es) := by
  obtain ⟨hwf, -⟩ := id hs
  obtain ⟨hreq, -⟩ := hs.trigWr hseq
  rw [step_afterResponse hwf hreq hev]
  exact resume_trigWr (s := s.afterResponse ok p es) hseq ok p

/-- The end of TRIG at a response (R114, R115). -/
theorem State.Sound.step_trigWr_ends (hs : s.Sound) (hseq : s.regs.seq = .trigWr) (hev : s.events = .rsp ok p :: es)
    (hend : ok = true ∨ s.regs.att = s.regs.maxAtt) :
    step s = .next { s with
      regs := { s.regs with
        reqOut := false, seq := .idle, resCode := if ok then .ok else .transport, resOp := 0x4,
        resDetail := s.regs.att, resSw := 0, resSwValid := false }
      events := es
      history := s.history ++ [⟨s.ticks, .rsp ok p⟩,
        ⟨s.ticks, .done (if ok then .ok else .transport) 0x4 s.regs.att 0 false⟩] } := by
  obtain ⟨-, hop, hactive, hdly⟩ := hs.trigWr hseq
  rw [hs.step_of_trigWr hseq hev, trigResume_ends (s := s.afterResponse ok p es) hend, finish_eq]
  simp [State.afterResponse, State.upd, State.record, finishRegs, doneObs, reportsStatus, hop, hactive, hdly]

end Sys2Proof.Machine
end

section
/-! The runs of TRIG and STOP, from the word to the outcome (R106 to R110). -/

namespace Sys2Proof.Machine

variable {s : State} {c : Cfg} {r : Regs} {n j : Nat} {ws : List Request} {es : List Event} {ok : Bool}
  {p : List Byte}

/-! ### STOP (R110) -/

theorem resume_stopWr (hseq : s.regs.seq = .stopWr) (ok : Bool) (p : List Byte) : resume ok p s = stopResume ok s := by
  simp only [resume, hseq]

/-- STOP's registers while it waits for the response to its write. -/
def stopSent (r : Regs) : Regs := { r with op := 0x5, reqOut := true, seq := .stopWr }

theorem step_stop (hwf : s.cfg.wellFormed = true) (hidle : s.regs.seq = .idle)
    (hev : s.events = .cmd (encode .stop) :: es) :
    ∃ t, step s = .next t ∧ t.At s.cfg s.ticks (stopSent s.regs) [writeTo s.cfg .jog [0x00, 0x00]] es :=
  ⟨_, (step_encode hwf hidle hev).trans (stopStarts _ hidle), rfl, rfl, rfl,
    by simp [State.commandWrites, writeTo, devAddr], rfl⟩

theorem finishRegs_stopSent (hr : r.AtRest) (fail : Bool) (code : ResCode) :
    finishRegs code 0 { (stopSent r).received with stopFail := fail } =
      { r with
        op := 0x5, stopFail := fail, resCode := code, resOp := 0x5, resDetail := 0, resSw := 0,
        resSwValid := false } := by
  obtain ⟨hidle, hreq, hactive, hdly⟩ := hr
  simp [finishRegs, stopSent, Regs.received, reportsStatus, hreq, hactive, hdly, hidle]

/-- Settles O52: the one response ends STOP, whatever its outcome. -/
theorem stopRun : Obligations.StopRun := by
  intro s n ok p rest hs hidle hev
  obtain ⟨hwf, -⟩ := id hs
  have hr := hs.atRest hidle
  obtain ⟨t, hstep, ht⟩ := step_stop hwf hidle hev
  obtain ⟨u, hrun, hu⟩ := ht.runFor_response hwf rfl rfl
  rw [elapseBy_of_inactive (r := stopSent s.regs) hr.wActive] at hu
  rw [resume_stopWr (by rw [hu.regs]; rfl)] at hrun
  obtain ⟨w, hend, hw, -⟩ := (hu.upd fun r => { r with stopFail := !ok }).finish (if ok then .ok else .transport) 0
  refine ⟨w, (runFor_succ _ hstep).trans (hrun.trans hend), hw.cfg, hw.events, hw.ticks, ?_, hw.writes⟩
  rw [hw.regs]
  exact finishRegs_stopSent hr _ _

/-! ### When the requests of a run are sent -/

/-- A moment of a run, and when the run has sent its requests: after the record `h`, at the ticks `ns`. -/
structure State.TimedAt (h : List Entry) (ns : List Nat) (c : Cfg) (n : Nat) (r : Regs) (ws : List Request)
    (es : List Event) (s : State) : Prop extends s.At c n r ws es where
  sent : ∃ d, s.history = h ++ d ∧ requestTicks d = ns

variable {h : List Entry} {ns : List Nat}

theorem State.TimedAt.upd (hs : s.TimedAt h ns c n r ws es) (f : Regs → Regs) :
    (s.upd f).TimedAt h ns c n (f r) ws es :=
  ⟨hs.toAt.upd f, hs.sent⟩

/-- What is recorded without a request leaves the ticks of the requests as they are. -/
theorem State.TimedAt.sent_append (hs : s.TimedAt h ns c n r ws es) {a : List Entry} (ha : requestTicks a = []) :
    ∃ d, s.history ++ a = h ++ d ∧ requestTicks d = ns := by
  obtain ⟨d, hhist, hd⟩ := hs.sent
  exact ⟨d ++ a, by rw [hhist, List.append_assoc], by rw [requestTicks_append, hd, ha, List.append_nil]⟩

theorem State.TimedAt.send_write (hs : s.TimedAt h ns c n r ws es) (label : Seq) (reg : DevReg) (v : List Byte) :
    (send label (writeTo s.cfg reg v) s).TimedAt h (ns ++ [n]) c n { r with reqOut := true, seq := label }
      (ws ++ [writeTo c reg v]) es := by
  obtain ⟨d, hhist, hd⟩ := hs.sent
  refine ⟨hs.toAt.send_write label reg v, d ++ [⟨s.ticks, .req (writeTo s.cfg reg v)⟩], ?_, ?_⟩
  · rw [send_history, hhist, List.append_assoc]
  · rw [requestTicks_append, hd, ← hs.ticks]
    rfl

theorem State.TimedAt.finish (hs : s.TimedAt h ns c n r ws es) (code : ResCode) (detail : BitVec 8) :
    ∃ t, finish code detail s = .next t ∧ t.TimedAt h ns c n (finishRegs code detail r) ws es := by
  obtain ⟨t, ht, hat, -⟩ := hs.toAt.finish code detail
  refine ⟨t, ht, hat, ?_⟩
  cases ht
  exact hs.sent_append rfl

/-! ### Ticks outside a wait -/

/-- The state `j` ticks later, if no wait runs and no delay ends. -/
def State.later (j : Nat) (es : List Event) (s : State) : State where
  cfg := s.cfg
  regs := s.regs
  ticks := s.ticks + j
  history := s.history ++ tickEntries s.ticks j
  events := es

theorem runFor_later (hwf : s.cfg.wellFormed = true) (hawake : s.regs.seq.sleeps = false)
    (hactive : s.regs.wActive = false) (hev : s.events = quiet j ++ es) : runFor j s = .next (s.later j es) := by
  rw [runFor_quiet j hwf hawake hev, elapseBy_of_inactive hactive]
  rfl

theorem State.TimedAt.later {es' : List Event} (hs : s.TimedAt h ns c n r ws es') (j : Nat) (es : List Event) :
    (s.later j es).TimedAt h ns c (n + j) r ws es := by
  refine ⟨⟨hs.cfg, congrArg (· + j) hs.ticks, hs.regs, ?_, rfl⟩, hs.sent_append (requestTicks_tickEntries _ _)⟩
  rw [← hs.writes]
  simp [State.later, State.commandWrites, List.foldl_append, foldl_collectWrites_tickEntries]

theorem State.TimedAt.afterResponse {es' : List Event} (hs : s.TimedAt h ns c n r ws es') (ok : Bool) (p : List Byte)
    (es : List Event) : (s.afterResponse ok p es).TimedAt h ns c n r.received ws es := by
  refine ⟨⟨hs.cfg, hs.ticks, congrArg Regs.received hs.regs, ?_, rfl⟩, hs.sent_append rfl⟩
  rw [← hs.writes]
  simp [State.afterResponse, State.commandWrites, List.foldl_append]

theorem countTick_later (hactive : s.regs.wActive = false) (j : Nat) (es : List Event) :
    countTick (s.later j es) = s.later (j + 1) es := by
  simp only [countTick, State.later, elapse_of_inactive hactive, tickEntries_succ, List.append_assoc, Nat.add_assoc]

/-- A whole inter-attempt delay (R108): the next attempt, `j + 1` ticks later. -/
theorem runFor_trigSlp (hwf : s.cfg.wellFormed = true) (hseq : s.regs.seq = .trigSlp)
    (hactive : s.regs.wActive = false) (hd : s.regs.dly.toNat = j + 1) (hev : s.events = quiet (j + 1) ++ es) :
    runFor (j + 1) s = trigAttempt ((s.later (j + 1) es).upd fun r => { r with dly := 0 }) := by
  have hev' : s.events = quiet j ++ .tick :: es := by
    rw [hev, quiet, List.replicate_succ', List.append_assoc]
    rfl
  have hsleep := runFor_asleep j hwf ((sleeps_iff _).mpr (.inr hseq)) hd hev'
  rw [elapseBy_of_inactive hactive] at hsleep
  have hstep := step_tick (s := (s.upd fun r => { r with dly := 1 }).later j (.tick :: es)) hwf rfl
  have hlast := onTick_trigSlp_last (s := (s.upd fun r => { r with dly := 1 }).later j es) hseq rfl
  have hcount := countTick_later (s := s.upd fun r => { r with dly := 1 }) hactive j es
  rw [hcount] at hlast
  rw [runFor_add hsleep, runFor_one]
  exact hstep.trans hlast

/-! ### TRIG (R106) -/

variable {v : BitVec 16} {q : BitVec 8} {i : Nat}

/-- TRIG's registers while it waits for the response to attempt `i`. -/
def trigSent (v : BitVec 16) (q : BitVec 8) (i : Nat) (r : Regs) : Regs :=
  { r with op := 0x4, jogValue := v, maxAtt := q, att := BitVec.ofNat 8 i, reqOut := true, seq := .trigWr }

/-- TRIG's write, as it stands on the wire. -/
def trigRequest (c : Cfg) (v : BitVec 16) : Request := writeTo c .jog [v.extractLsb' 0 8, v.extractLsb' 8 8]

/-- TRIG waits for the response to attempt `i`, having sent its attempts at the ticks `ns` after the record `h`. -/
def State.TrigAt (h : List Entry) (ns : List Nat) (c : Cfg) (n : Nat) (v : BitVec 16) (q : BitVec 8) (i : Nat)
    (r : Regs) (es : List Event) (s : State) : Prop :=
  s.TimedAt h ns c n (trigSent v q i r) (List.replicate i (trigRequest c v)) es

theorem step_trig (hwf : s.cfg.wellFormed = true) (hidle : s.regs.seq = .idle) (hphase : s.regs.phase = .opEnabled)
    (hv : v ≠ 0) (hq : q ≠ 0) (hev : s.events = .cmd (encode (.trig v q)) :: es) :
    ∃ t, step s = .next t ∧ t.TrigAt s.history [s.ticks] s.cfg s.ticks v q 1 s.regs es :=
  ⟨_, (step_encode hwf hidle hev).trans (trigStarts _ v q hidle hphase hv hq),
    ⟨rfl, rfl, rfl, by simp [State.commandWrites, trigRequest, writeTo, devAddr], rfl⟩, _, rfl, rfl⟩

/-- The count of an attempt is the last one's exactly at `max_att` attempts. -/
theorem ofNat_eq_iff_of_le (hi : i ≤ q.toNat) : BitVec.ofNat 8 i = q ↔ i = q.toNat := by
  have hq := q.isLt
  constructor
  · rintro rfl
    rw [BitVec.toNat_ofNat]
    omega
  · rintro rfl
    simp

theorem finishRegs_trigSent (hr : r.AtRest) (code : ResCode) :
    finishRegs code (BitVec.ofNat 8 i) (trigSent v q i r).received =
      { r with
        op := 0x4, jogValue := v, maxAtt := q, att := BitVec.ofNat 8 i, resCode := code, resOp := 0x4,
        resDetail := BitVec.ofNat 8 i, resSw := 0, resSwValid := false } := by
  obtain ⟨hidle, hreq, hactive, hdly⟩ := hr
  simp [finishRegs, trigSent, Regs.received, reportsStatus, hreq, hactive, hdly, hidle]

/-- The response to attempt `i` reaches TRIG `j` ticks later. -/
theorem State.TrigAt.runFor_trigWr (hs : s.TrigAt h ns c n v q i r (quiet j ++ .rsp ok p :: es))
    (hwf : c.wellFormed = true) (hr : r.AtRest) :
    ∃ u, runFor (j + 1) s = trigResume ok u ∧
      u.TimedAt h ns c (n + j) (trigSent v q i r).received (List.replicate i (trigRequest c v)) es := by
  have hlater := hs.later j (.rsp ok p :: es)
  have hwf' : s.cfg.wellFormed = true := hs.cfg ▸ hwf
  have hquiet := runFor_later hwf' (by rw [hs.regs]; rfl) (by rw [hs.regs]; exact hr.wActive) hs.events
  have hstep := step_afterResponse (s := s.later j (.rsp ok p :: es)) hwf' (by rw [hlater.regs]; rfl) rfl
  have hafter := hlater.afterResponse ok p es
  rw [resume_trigWr (by rw [hafter.regs]; rfl)] at hstep
  exact ⟨_, (runFor_add hquiet).trans ((runFor_one _).trans hstep), hafter⟩

/-- One more attempt, once the response to attempt `i` is in, with or without a sleep since then. -/
theorem State.TimedAt.trigAttempt {label : Seq}
    (hs : s.TimedAt h ns c n { trigSent v q i r with reqOut := false, seq := label }
      (List.replicate i (trigRequest c v)) es) :
    ∃ t, trigAttempt s = .next t ∧ t.TrigAt h (ns ++ [n]) c n v q (i + 1) r es := by
  have hvalue : s.regs.jogValue = v := by rw [hs.regs]; rfl
  have hsent := (hs.upd fun r => { r with att := r.att + 1 }).send_write .trigWr .jog
    [v.extractLsb' 0 8, v.extractLsb' 8 8]
  rw [trigAttempt_eq, hvalue]
  refine ⟨_, rfl, ?_⟩
  rw [State.TrigAt, List.replicate_succ', trigSent, BitVec.ofNat_add]
  exact hsent

/-- A failure before the last attempt, with the delay after it, or with none: the next attempt (R106, R108). -/
theorem State.TimedAt.trig_retries (hwf : c.wellFormed = true) (hr : r.AtRest) (hi : i < q.toNat)
    (hs : s.TimedAt h ns c n (trigSent v q i r).received (List.replicate i (trigRequest c v))
      (quiet c.retryDelayTicks.toNat ++ es)) :
    ∃ t u, trigResume false s = .next u ∧ runFor c.retryDelayTicks.toNat u = .next t ∧
      t.TrigAt h (ns ++ [n + c.retryDelayTicks.toNat]) c (n + c.retryDelayTicks.toNat) v q (i + 1) r es := by
  have hatt : s.regs.att ≠ s.regs.maxAtt := by
    rw [hs.regs]
    exact fun heq => hi.ne ((ofNat_eq_iff_of_le hi.le).mp heq)
  rw [trigResume_retries hatt, hs.cfg]
  by_cases hd : c.retryDelayTicks = 0
  · rw [hd] at hs ⊢
    obtain ⟨t, ht, hat⟩ := State.TimedAt.trigAttempt (label := .trigWr) hs
    exact ⟨t, t, ht, rfl, hat⟩
  · obtain ⟨j, hj⟩ := Nat.exists_eq_add_of_le' (toNat_pos_of_ne_zero hd)
    have hsleep := hs.upd fun r => { r with dly := c.retryDelayTicks, seq := .trigSlp }
    have hrun := runFor_trigSlp (j := j) (es := es) (hsleep.cfg ▸ hwf) (by rw [hsleep.regs])
      (by rw [hsleep.regs]; exact hr.wActive) (by rw [hsleep.regs]; exact hj) (by rw [hsleep.events, hj])
    have hend := (hsleep.later (j + 1) es).upd fun r => { r with dly := 0 }
    have hdly : ({ trigSent v q i r with reqOut := false, seq := .trigSlp } : Regs) =
      { { trigSent v q i r with reqOut := false, seq := .trigSlp } with dly := 0 } := by simp [trigSent, hr.dly]
    obtain ⟨t, ht, hat⟩ := State.TimedAt.trigAttempt (label := .trigSlp) (hdly ▸ hend)
    rw [hj]
    exact ⟨t, _, sleepThen_of_ne hd _ _ _, hrun.trans ht, hat⟩

/-- Attempts that fail before the last one, each with its delay (R106, R108). -/
theorem State.TrigAt.runFor_failedAttempts (fs : List (Nat × List Byte)) (hwf : c.wellFormed = true) (hr : r.AtRest)
    (hi : i + fs.length ≤ q.toNat)
    (hs : s.TrigAt h (ns ++ [n]) c n v q i r (failedAttempts c.retryDelayTicks.toNat fs ++ es)) :
    ∃ t, runFor (failedAttempts c.retryDelayTicks.toNat fs).length s = .next t ∧
      t.TrigAt h (ns ++ attemptTicks c.retryDelayTicks.toNat n fs) c
        (n + ((fs.map Prod.fst).sum + fs.length * c.retryDelayTicks.toNat)) v q (i + fs.length) r es := by
  induction fs generalizing s n ns i with
  | nil => exact ⟨s, rfl, by simpa [attemptTicks, failedAttempts] using hs⟩
  | cons f fs ih =>
    obtain ⟨j, p⟩ := f
    rw [List.length_cons] at hi
    rw [failedAttempts, List.append_assoc, List.cons_append, List.append_assoc] at hs
    obtain ⟨a, hrsp, ha⟩ := hs.runFor_trigWr hwf hr
    obtain ⟨b, u, hresume, hdelay, hb⟩ := ha.trig_retries hwf hr (by omega)
    obtain ⟨t, hrun, ht⟩ := ih (by omega) hb
    have hcount : (failedAttempts c.retryDelayTicks.toNat ((j, p) :: fs)).length =
        j + 1 + c.retryDelayTicks.toNat + (failedAttempts c.retryDelayTicks.toNat fs).length := by
      simp only [failedAttempts, quiet, List.length_append, List.length_cons, List.length_replicate]
      omega
    have hticks : n + ((((j, p) :: fs).map Prod.fst).sum + ((j, p) :: fs).length * c.retryDelayTicks.toNat) =
        n + j + c.retryDelayTicks.toNat + ((fs.map Prod.fst).sum + fs.length * c.retryDelayTicks.toNat) := by
      rw [List.map_cons, List.sum_cons, List.length_cons, Nat.succ_mul]
      omega
    refine ⟨t, ?_, ?_⟩
    · rw [hcount]
      exact runFor_trans (runFor_trans (hrsp.trans hresume) hdelay) hrun
    · rw [hticks, attemptTicks, List.length_cons, Nat.add_comm fs.length, ← Nat.add_assoc i]
      rwa [List.append_assoc, List.singleton_append] at ht

/-- The response that ends TRIG: a success, or the failure of the last attempt (R114). -/
theorem State.TrigAt.trig_ends (hwf : c.wellFormed = true) (hr : r.AtRest) (hi : i ≤ q.toNat)
    (hend : ok = true ∨ i = q.toNat) (hs : s.TrigAt h ns c n v q i r (quiet j ++ .rsp ok p :: es)) :
    ∃ t, runFor (j + 1) s = .next t ∧
      t.TimedAt h ns c (n + j) { r with
        op := 0x4, jogValue := v, maxAtt := q, att := BitVec.ofNat 8 i, resCode := if ok then .ok else .transport,
        resOp := 0x4, resDetail := BitVec.ofNat 8 i, resSw := 0, resSwValid := false }
        (List.replicate i (trigRequest c v)) es := by
  obtain ⟨u, hrun, hu⟩ := hs.runFor_trigWr hwf hr
  have hatt : u.regs.att = BitVec.ofNat 8 i := by rw [hu.regs]; rfl
  have hlast : ok = true ∨ u.regs.att = u.regs.maxAtt :=
    hend.imp_right fun heq => by rw [hu.regs]; exact (ofNat_eq_iff_of_le hi).mpr heq
  rw [hrun, trigResume_ends hlast, hatt, ← finishRegs_trigSent hr]
  exact hu.finish _ _

/-- Settles O51: the first part is the attempts that fail and the one that ends TRIG, the second one response to an
attempt. -/
theorem trigRun : Obligations.TrigRun := by
  refine ⟨?_, ?_⟩
  · intro s v n fs lat ok p rest hs hidle hphase hv hlt hend hev
    obtain ⟨hwf, -⟩ := id hs
    have hr := hs.atRest hidle
    have hn : n ≠ 0 := by
      rintro rfl
      exact Nat.not_lt_zero _ hlt
    obtain ⟨a, hstep, ha⟩ := step_trig hwf hidle hphase hv hn hev
    obtain ⟨b, hfail, hb⟩ := State.TrigAt.runFor_failedAttempts (ns := []) fs hwf hr (by omega) ha
    obtain ⟨t, hlast, ht⟩ := hb.trig_ends hwf hr (by omega) (hend.imp_right (by omega))
    obtain ⟨d, hhist, hsent⟩ := ht.sent
    have hregs := ht.regs
    have hwrites := ht.writes
    rw [Nat.add_comm 1] at hregs hwrites
    refine ⟨t, ?_, ht.cfg, ht.events, ?_, hregs, hwrites, ?_⟩
    · have hrun := runFor_trans hfail hlast
      exact (runFor_succ _ hstep).trans hrun
    · rw [ht.ticks, Nat.add_assoc]
    · rw [hhist, List.drop_left, hsent, List.nil_append]
  · intro s es hs hseq
    dsimp only
    refine ⟨fun p hev => hs.step_trigWr_ends hseq hev (.inl rfl),
      fun p hev hatt => hs.step_trigWr_ends hseq hev (.inr hatt), fun p hev hatt hd => ?_, fun p hev hatt hd => ?_⟩
    · exact (hs.step_of_trigWr hseq hev).trans
        ((trigResume_retries (s := s.afterResponse false p es) hatt).trans (sleepThen_of_ne hd _ _ _))
    · obtain ⟨hreq, -⟩ := hs.trigWr hseq
      rw [hs.step_of_trigWr hseq hev, trigResume_retries (s := s.afterResponse false p es) hatt,
        show (s.afterResponse false p es).cfg.retryDelayTicks = 0 from hd, sleepThen_zero, trigAttempt_eq]
      simp [State.afterResponse, send, State.upd, State.record, hreq, hseq]

end Sys2Proof.Machine
end

section
/-! The result fields (R21, R115, R119): a procedure leaves them alone until `finish`, which writes them and puts a
`done` in the record, and a step runs one procedure. -/

namespace Sys2Proof.Machine

variable {s t u : State}

/-! ### Fields that stay until a `done` -/

/-- The result fields (R21). -/
def Regs.result (r : Regs) : ResCode × BitVec 4 × BitVec 8 × Word16 × Bool :=
  (r.resCode, r.resOp, r.resDetail, r.resSw, r.resSwValid)

theorem result_eq_iff {r r' : Regs} :
    r.result = r'.result ↔ r.resCode = r'.resCode ∧ r.resOp = r'.resOp ∧ r.resDetail = r'.resDetail ∧
      r.resSw = r'.resSw ∧ r.resSwValid = r'.resSwValid := by
  simp [Regs.result]

theorem donesOf_append (a b : List Entry) : donesOf (a ++ b) = donesOf a + donesOf b := by
  simp [donesOf]

/-- From `s` to `t` the record has grown, and the result fields are the same unless it has grown by a `done`. -/
def KeepsResult (s t : State) : Prop :=
  ∃ d, t.history = s.history ++ d ∧ (donesOf d = 0 → t.regs.result = s.regs.result)

namespace KeepsResult

theorem refl (s : State) : KeepsResult s s := ⟨[], by simp, fun _ => rfl⟩

theorem trans (h : KeepsResult s t) (h' : KeepsResult t u) : KeepsResult s u := by
  obtain ⟨d, hd, hkeep⟩ := h
  obtain ⟨d', hd', hkeep'⟩ := h'
  refine ⟨d ++ d', by rw [hd', hd, List.append_assoc], fun hnone => ?_⟩
  rw [donesOf_append] at hnone
  exact (hkeep' (by omega)).trans (hkeep (by omega))

/-- Writes to other registers than the result fields do not matter. -/
theorem of_upd {f : Regs → Regs} (h : KeepsResult (s.upd f) t) (hf : (f s.regs).result = s.regs.result) :
    KeepsResult s t := by
  obtain ⟨d, hd, hkeep⟩ := h
  exact ⟨d, hd, fun hnone => (hkeep hnone).trans hf⟩

theorem of_record {o : Obs} (h : KeepsResult (s.record o) t) : KeepsResult s t :=
  trans (t := s.record o) ⟨[⟨s.ticks, o⟩], rfl, fun _ => rfl⟩ h

theorem finish {code : ResCode} {detail : BitVec 8} (h : finish code detail s = .next t) : KeepsResult s t := by
  rw [finish_eq] at h
  cases h
  exact ⟨_, rfl, nofun⟩

theorem send (label : Seq) (q : Request) (s : State) : KeepsResult s (send label q s) :=
  of_record (o := .req q) (of_upd (refl _) rfl)

theorem memWrite {label : Seq} {reg : DevReg} {v : List Byte} (h : memWrite label reg v s = .next t) :
    KeepsResult s t := by
  cases h
  exact send _ _ s

theorem memRead {label : Seq} {reg : DevReg} (h : memRead label reg s = .next t) : KeepsResult s t := by
  cases h
  exact send _ _ s

theorem sleepThen {label : Seq} {d : Ticks} {k : State → Result} (hk : k s = .next t → KeepsResult s t)
    (h : sleepThen label d k s = .next t) : KeepsResult s t := by
  unfold Machine.sleepThen at h
  split at h
  · exact hk h
  · cases h
    exact of_upd (refl _) rfl

end KeepsResult

/-! ### ENABLE's stages, the wait and RDSTAT -/

theorem enableIssue_keepsResult (h : enableIssue s = .next t) : KeepsResult s t := by
  unfold enableIssue at h
  split at h
  · cases h
  · exact .memWrite h

theorem enableAfterWait_keepsResult {e : WaitEnd} (h : enableAfterWait e s = .next t) : KeepsResult s t := by
  unfold enableAfterWait at h
  split at h
  · cases h
  · cases e with
    | encerr => exact .finish h
    | expired => exact .finish h
    | matched =>
      dsimp only at h
      split at h
      · exact (KeepsResult.finish h).of_upd rfl
      · exact (enableIssue_keepsResult h).of_upd rfl

theorem waitReturn_keepsResult {e : WaitEnd} (h : waitReturn e s = .next t) : KeepsResult s t := by
  by_cases hop : s.regs.op = 0x7
  · rw [waitReturn_waitb e hop] at h
    exact (KeepsResult.finish h).of_upd rfl
  · simp only [waitReturn, if_neg hop] at h
    split at h
    · exact (enableAfterWait_keepsResult h).of_upd rfl
    · cases h

theorem waitTest_keepsResult (h : waitTest s = .next t) : KeepsResult s t := by
  obtain ⟨-, hexpired⟩ | ⟨-, rfl⟩ := waitTest_cases h
  · exact waitReturn_keepsResult hexpired
  · exact (KeepsResult.send _ _ _).of_upd rfl

/-- A status read notes the status word, which is no result field (R84). -/
theorem noteStatus_result (c : ReadClass) (r : Regs) : (noteStatus c r).result = r.result := by
  cases c <;> rfl

theorem waitResume_keepsResult {ok : Bool} {p : List Byte} (h : waitResume ok p s = .next t) : KeepsResult s t := by
  refine KeepsResult.of_upd (f := noteStatus (readClass ok p)) ?_ (noteStatus_result _ _)
  unfold waitResume at h
  split at h
  · exact waitReturn_keepsResult h
  · split at h
    · exact waitReturn_keepsResult h
    · exact .sleepThen waitTest_keepsResult h
  · exact .sleepThen waitTest_keepsResult h

theorem enableResume_keepsResult {ok : Bool} (h : enableResume ok s = .next t) : KeepsResult s t := by
  unfold enableResume at h
  split at h
  · cases h
  · split at h
    · exact ((waitTest_keepsResult h).of_upd rfl).of_upd rfl
    · exact .finish h

theorem rdstatResume_keepsResult {ok : Bool} {p : List Byte} (h : rdstatResume ok p s = .next t) :
    KeepsResult s t := by
  rw [rdstatResume_eq] at h
  exact (KeepsResult.finish h).of_upd (noteStatus_result _ _)

/-! ### CLAIM and DISABLE -/

theorem claimIssue_keepsResult (h : claimIssue s = .next t) : KeepsResult s t := by
  unfold claimIssue at h
  split at h
  · cases h
  · exact .memWrite h

theorem claimResume_keepsResult {ok : Bool} (h : claimResume ok s = .next t) : KeepsResult s t := by
  unfold claimResume at h
  split at h
  · cases h
  · split at h
    · exact (KeepsResult.finish h).of_upd rfl
    · split at h
      · exact (KeepsResult.finish h).of_upd rfl
      · exact (claimIssue_keepsResult h).of_upd rfl

theorem disableIssue_keepsResult (h : disableIssue s = .next t) : KeepsResult s t := by
  unfold disableIssue at h
  split at h
  · cases h
  · exact .memWrite h

theorem disableResume_keepsResult {ok : Bool} (h : disableResume ok s = .next t) : KeepsResult s t := by
  unfold disableResume at h
  split at h
  · cases h
  · split at h
    · exact (KeepsResult.finish h).of_upd rfl
    · exact (disableIssue_keepsResult h).of_upd rfl

/-! ### TRIG -/

theorem trigAttempt_keepsResult (h : trigAttempt s = .next t) : KeepsResult s t := (KeepsResult.memWrite h).of_upd rfl

theorem trigStart_keepsResult (h : trigStart s = .next t) : KeepsResult s t := by
  unfold trigStart at h
  split at h
  · exact .finish h
  · split at h
    · exact .finish h
    · exact (trigAttempt_keepsResult h).of_upd rfl

theorem trigResume_keepsResult {ok : Bool} (h : trigResume ok s = .next t) : KeepsResult s t := by
  unfold trigResume at h
  split at h
  · exact .finish h
  · split at h
    · exact .finish h
    · exact .sleepThen trigAttempt_keepsResult h

/-! ### The events -/

/-- The latches are no result fields (R25). -/
theorem latch_result (i : Instr) (r : Regs) : (latch i r).result = r.result := by
  cases i <;> rfl

theorem accept_keepsResult {i : Instr} {proc : State → Result} (hp : ∀ {u}, proc u = .next t → KeepsResult u t)
    (h : accept i proc s = .next t) : KeepsResult s t := by
  unfold accept at h
  split at h
  · cases h
    exact .refl s
  · refine .of_record (o := .cmd (encode i)) (.of_upd (f := latch i) ?_ (latch_result i s.regs))
    dsimp only at h
    split at h
    · exact hp h
    · exact .finish h

/-- The start of each command. -/
theorem exec_keepsResult {i : Instr} (h : exec i s = .next t) : KeepsResult s t := by
  cases i with
  | claim ff m v => exact accept_keepsResult (fun h => (claimIssue_keepsResult h).of_upd rfl) h
  | enable d => exact accept_keepsResult (fun h => (enableIssue_keepsResult h).of_upd rfl) h
  | disable => exact accept_keepsResult (fun h => (disableIssue_keepsResult h).of_upd rfl) h
  | trig v n => exact accept_keepsResult trigStart_keepsResult h
  | stop => exact accept_keepsResult .memWrite h
  | rdstat => exact accept_keepsResult (fun h => (KeepsResult.memRead h).of_upd rfl) h
  | waitb b v d => exact accept_keepsResult (fun h => (waitTest_keepsResult h).of_upd rfl) h

theorem onCommand_keepsResult {w : CmdWord} (h : onCommand w s = .next t) : KeepsResult s t := by
  unfold onCommand at h
  split at h
  · exact exec_keepsResult h
  · unfold acceptIllegal at h
    split at h
    · cases h
      exact .refl s
    · exact .of_record ((KeepsResult.finish h).of_upd rfl)

/-- The rest of each command. -/
theorem resume_keepsResult {ok : Bool} {p : List Byte} (h : resume ok p s = .next t) : KeepsResult s t := by
  unfold resume at h
  split at h
  · exact claimResume_keepsResult h
  · exact enableResume_keepsResult h
  · exact waitResume_keepsResult h
  · exact disableResume_keepsResult h
  · exact trigResume_keepsResult h
  · exact (KeepsResult.finish h).of_upd rfl
  · exact rdstatResume_keepsResult h
  all_goals cases h

theorem onResponse_keepsResult {ok : Bool} {p : List Byte} (h : onResponse ok p s = .next t) : KeepsResult s t := by
  unfold onResponse at h
  refine .of_record (o := .rsp ok p) ?_
  split at h
  · exact (resume_keepsResult h).of_upd rfl
  · cases h
    exact .refl _

theorem countTick_keepsResult (s : State) : KeepsResult s (countTick s) := by
  obtain ⟨e, he, -⟩ := elapse_eq s.regs
  exact ⟨_, rfl, fun _ => by rw [countTick_regs, he]; rfl⟩

theorem countDelay_keepsResult {k : State → Result} (hk : ∀ {u}, k u = .next t → KeepsResult u t)
    (h : countDelay k s = .next t) : KeepsResult s t := by
  obtain ⟨-, ⟨-, hend⟩ | ⟨-, rfl⟩⟩ := countDelay_cases h
  · exact (hk hend).of_upd rfl
  · exact (KeepsResult.refl _).of_upd rfl

theorem onTick_keepsResult (h : onTick s = .next t) : KeepsResult s t := by
  refine (countTick_keepsResult s).trans ?_
  obtain ⟨-, rfl⟩ | ⟨-, hwait⟩ | ⟨-, htrig⟩ := onTick_cases h
  · exact .refl _
  · exact countDelay_keepsResult waitTest_keepsResult hwait
  · exact countDelay_keepsResult trigAttempt_keepsResult htrig

/-- The events still to come do not matter. -/
theorem KeepsResult.of_events {es : List Event} (h : KeepsResult { s with events := es } t) : KeepsResult s t := h

/-- A reset is the one event that moves the result fields without a `done` (R130). -/
theorem step_keepsResult (h : step s = .next t) (hreset : ∀ es, nextEvent s.busy s.events ≠ some (.reset, es)) :
    KeepsResult s t := by
  obtain ⟨-, ⟨-, rfl⟩ | ⟨w, es, -, hcmd⟩ | ⟨ok, p, es, -, hrsp⟩ | ⟨es, -, htick⟩ | ⟨es, hnext, -⟩⟩ := step_cases h
  · exact .refl t
  · exact (onCommand_keepsResult hcmd).of_events
  · exact (onResponse_keepsResult hrsp).of_events
  · exact (onTick_keepsResult htick).of_events
  · exact absurd hnext (hreset es)

/-- Settles O32: without a `done` the step has left the fields as they were (`step_keepsResult`). -/
theorem resultStays : Obligations.ResultStays := by
  intro s t h hnone hreset
  obtain ⟨d, hd, hkeep⟩ := step_keepsResult h hreset
  rw [hd, List.drop_left] at hnone
  exact result_eq_iff.mp (hkeep hnone)

end Sys2Proof.Machine
end

section
/-! An illegal word (R116), and the two orders of a response and a tick at the boundary of a wait's deadline (R122). -/

namespace Sys2Proof.Machine

variable {s : State} {ok : Bool} {p : List Byte} {es : List Event}

/-! ### An illegal word (R116) -/

theorem onCommand_of_decode_error {w : CmdWord} {e : DecodeError} (h : decode w = .error e) (s : State) :
    onCommand w s = acceptIllegal w s := by
  simp only [onCommand, h]

theorem acceptIllegal_of_idle (hidle : s.regs.seq = .idle) (w : CmdWord) :
    acceptIllegal w s = finish .illegal 0 ((s.record (.cmd w)).upd fun r => { r with op := fieldOpc w }) :=
  if_neg (by simp [busy_iff, hidle])

/-- Settles O45: nothing ran before the word, so `finish` writes no more than `op` and the result fields. -/
theorem illegalWordFinishes : Obligations.IllegalWordFinishes := by
  intro s w e es hs hidle hdec hev
  obtain ⟨hwf, -, hactive, hdly⟩ := hs.running_of_idle hidle
  have hstart := acceptIllegal_of_idle (s := { s with events := es }) hidle w
  rw [step_command hwf hidle hev, onCommand_of_decode_error hdec, hstart, finish_eq]
  simp [State.upd, State.record, finishRegs, doneObs, reportsStatus, fieldOpc, hactive, hdly, hidle]

/-! ### The boundary of a wait's deadline (R87, R122) -/

/-- R89: a response that misses, and the whole delay after it: the wait is at the head of its loop again (R86), with the
delay added to its elapsed time and its operands and count of reads as they were. -/
theorem State.AwaitsRead.runFor_missed (hs : s.AwaitsRead) (hactive : s.regs.wActive = true)
    (hmiss : misses s.regs.wBit s.regs.wTarget ok p = true)
    (hev : s.events = .rsp ok p :: (quiet s.cfg.pollTicks.toNat ++ es)) :
    ∃ u, runFor (s.cfg.pollTicks.toNat + 1) s = waitTest u ∧ u.cfg = s.cfg ∧ u.events = es ∧ u.regs.op = s.regs.op ∧
      u.regs.timeout = s.regs.timeout ∧ u.regs.wActive = true ∧ u.regs.dly = 0 ∧ u.regs.polls = s.regs.polls ∧
      u.regs.el = sat32 (s.regs.el.toNat + s.cfg.pollTicks.toNat) := by
  obtain ⟨n, hn⟩ := Nat.exists_eq_add_of_le' ((wellFormed_iff _).mp hs.wf)
  obtain ⟨a, hstep, hacfg, haregs, haev⟩ : ∃ a, step s = .next a ∧ a.cfg = s.cfg ∧
      a.regs = { noteStatus (readClass ok p) { s.regs with reqOut := false } with
        dly := s.cfg.pollTicks, seq := .waitSlp } ∧
      a.events = quiet s.cfg.pollTicks.toNat ++ es := ⟨_, step_waitRd_missed hs hmiss hev, rfl, rfl, rfl⟩
  rw [noteStatus_eq] at haregs
  obtain ⟨u, hrun, hcfg, hregs, -, -, huev⟩ := runFor_waitSlp (n := n) (es := es) (hacfg ▸ hs.wf) (by rw [haregs])
    (by rw [haregs]; exact hactive) (by rw [haregs, ← hn]) (by rw [haev, hn])
  rw [haregs, ← hn] at hregs
  refine ⟨u, ?_, hcfg.trans hacfg, huev, ?_⟩
  · rw [hn, runFor_succ _ hstep, hrun]
  · rw [hregs]
    exact ⟨rfl, rfl, hactive, rfl, rfl, rfl⟩

/-- A tick while a response is awaited only counts the wait's elapsed time (R40 (1)). -/
theorem State.AwaitsRead.step_tick (hs : s.AwaitsRead) (hactive : s.regs.wActive = true)
    (hev : s.events = .tick :: es) :
    ∃ t, step s = .next t ∧ t.AwaitsRead ∧ t.cfg = s.cfg ∧ t.events = es ∧
      t.regs = { s.regs with el := sat32 (s.regs.el.toNat + 1) } := by
  have hstep := (Machine.step_tick hs.wf hev).trans
    (onTick_awake (s := { s with events := es }) (by rw [hs.seq]; rfl))
  have hregs := elapse_of_active hactive
  refine ⟨_, hstep, ⟨hs.wf, ?_, ?_, ?_⟩, rfl, rfl, hregs⟩ <;> rw [countTick_regs, hregs]
  · exact hs.seq
  · exact hs.reqOut
  · exact hs.dly

/-- A sound wait has sent no more reads than it has lasted ticks, but for its first (R93). -/
theorem State.Sound.waitRd (hs : s.Sound) (hseq : s.regs.seq = .waitRd) :
    s.regs.wActive = true ∧ s.regs.polls.toNat ≤ s.regs.el.toNat + 1 := by
  obtain ⟨hwf, -, -, ⟨hactive, -⟩, hpolls⟩ := hs
  have hin : s.regs.seq.inWait = true := by rw [hseq]; rfl
  obtain ⟨-, hel, -⟩ := hpolls hin
  have hcount := Nat.le_mul_of_pos_right (s.regs.polls.toNat - 1) ((wellFormed_iff _).mp hwf)
  exact ⟨hactive.trans hin, by omega⟩

theorem tick_cons_quiet (n : Nat) (es : List Event) : .tick :: (quiet n ++ es) = quiet n ++ .tick :: es := by
  rw [List.append_cons, quiet, ← List.replicate_succ', List.replicate_succ, List.cons_append]

/-- Settles O59: the delay after the response ends one tick before the deadline if the response comes first, and at the
deadline if the tick does. -/
theorem responseAndTickOrder : Obligations.ResponseAndTickOrder := by
  intro s ok p rest hs hseq hop hmiss hlimit
  have hread := hs.awaitsRead hseq
  obtain ⟨hactive, hcount⟩ := hs.waitRd hseq
  have hpoll := (wellFormed_iff _).mp hread.wf
  have htime := s.regs.timeout.isLt
  refine ⟨fun hev => ?_, fun hev => ?_⟩
  · rw [tick_cons_quiet] at hev
    obtain ⟨u, hrun, hcfg, huev, -, htimeout, huactive, hdly, hpolls, hel⟩ := hread.runFor_missed hactive hmiss hev
    have hlt : u.regs.el.toNat < u.regs.timeout.toNat := by
      rw [htimeout, hel, sat32_toNat]
      omega
    obtain ⟨v, hsend, hvcfg, hvev, -, hvregs, -⟩ := waitTest_sends hlt
    have hvread : v.AwaitsRead :=
      ⟨hvcfg ▸ hcfg ▸ hread.wf, by rw [hvregs], by rw [hvregs], by rw [hvregs]; exact hdly⟩
    obtain ⟨t, hstep, htread, -, htev, htregs⟩ :=
      hvread.step_tick (by rw [hvregs]; exact huactive) (hvev.trans huev)
    have hend := runFor_trans (hrun.trans hsend) ((runFor_one v).trans hstep)
    have htpolls : t.regs.polls = sat32 (s.regs.polls.toNat + 1) := by rw [htregs, hvregs, hpolls]
    refine ⟨t, hend, htev, htread.seq, ?_⟩
    rw [htpolls, sat32_toNat]
    omega
  · obtain ⟨t, hstep, htread, htcfg, htev, htregs⟩ := hread.step_tick hactive hev
    rw [← htcfg] at htev
    obtain ⟨u, hrun, -, huev, huop, htimeout, -, -, hpolls, hel⟩ :=
      htread.runFor_missed (by rw [htregs]; exact hactive) (by rw [htregs]; exact hmiss) htev
    rw [htregs, htcfg] at hel
    rw [htregs] at huop htimeout hpolls
    have hdeadline : u.regs.timeout.toNat ≤ u.regs.el.toNat := by
      rw [htimeout, hel, sat32_add, sat32_toNat]
      dsimp only
      omega
    rw [waitTest_expired_waitb hdeadline (huop.trans hop), htcfg] at hrun
    exact ⟨_, (runFor_succ _ hstep).trans hrun, huev, rfl, rfl, hpolls⟩

end Sys2Proof.Machine
end

section
/-! The reset event (R130), and the word placed where the step fetches (R132; log 3). -/

namespace Sys2Proof.Machine

variable {s : State}

/-! ### Reset -/

/-- A step with a reset at the head of the list, whether or not a command runs (R130). -/
theorem step_reset {es : List Event} (hw : s.cfg.wellFormed = true) (h : s.events = .reset :: es) :
    step s = onReset { s with events := es } := by
  unfold step
  rw [if_pos hw, h]
  rfl

/-- Settles O11: the reset registers have no request outstanding, so a response after them is dropped
(`unaskedResponseDropped`). -/
theorem resetEvent : Obligations.ResetEvent := by
  intro s es hw hevents
  have hreset := (step_reset hw hevents).trans (onReset_eq _)
  refine ⟨hreset, ?_⟩
  rintro ok payload later rfl
  calc runFor 2 s
    _ = step _ := (runFor_succ 1 hreset).trans (runFor_one _)
    _ = .next _ := unaskedResponseDropped _ ok payload later hw rfl rfl
    _ = _ := by simp [State.upd, State.record]

/-! ### The fetched word -/

/-- `decodeTableWord` reads the word that `withFetchWord` places. -/
theorem decode_of_decodeTableWord {nbits w : Nat} {i : Instr} (h : decodeTableWord nbits w = some i) :
    decode (BitVec.ofNat 64 (w % 2 ^ nbits)) = .ok i := by
  unfold decodeTableWord at h
  split at h
  · next j hdec => exact hdec.trans (congrArg Except.ok (Option.some.inj h))
  · cases h

/-- Settles O13: the placed word is the next event, and behind it stand the events of the state before it. -/
theorem fetchedWordRuns : Obligations.FetchedWordRuns := fun s nbits w _ hw hidle hdec =>
  stepRunsTheDecodedCommand (s.withFetchWord nbits w) _ _ s.events hw hidle rfl (decode_of_decodeTableWord hdec)

end Sys2Proof.Machine
end
